-- ==== Sys2Proof/Word.lean ====
section
/-!
DEFINITION. The machine's words: the widths of 00_scope.md R9 and R11.
-/

namespace Sys2Proof

/-- A byte of the serial bus, of the DIN channel, or a register index (R9, R11). -/
abbrev Byte := BitVec 8

/-- A peripheral register's value, an image word or a DOUT word (R9, R11). -/
abbrev Word := BitVec 16

/-- A host command word on CMD (R11, R101). -/
abbrev CmdWord := BitVec 32

/-- A length operand (R11, R103). -/
abbrev Len := BitVec 24

/-- The level of a line: `true` is 1, `false` is 0 (R40). -/
abbrev Level := Bool

end Sys2Proof
end

