-- ==== Sys2Proof/Config.lean ====
section
/-!
DEFINITION. The implementation parameters of 00_scope.md R10, and the free values.
A parameter is a field of `Config`; the machine reads it from `State.cfg` and no step writes it
(70_reset_and_hazards.md R344). The parameters R10 leaves OPEN are opaque constants in the
configuration the machine is reset with (log 4, 5, 6).
-/

namespace Sys2Proof

/-- `LOADER_TARGET` (R10, 44_firmware_loader.md R234, 90_conflicts.md C2). -/
inductive LoaderTarget where
  | fixedPair
  | direct
deriving DecidableEq, Repr, Inhabited

/-- A bus timing profile, by its name. The machine only copies profiles and never looks into one. -/
structure Profile where
  code : Nat
deriving DecidableEq, Repr, Inhabited

/-- The parameter `Profile` of R10, "any type with equality", told by how many values it has: that is all that a
machine which only copies profiles can show of it. DESIGN CHOICE, log 7. -/
inductive ProfileType where
  /-- The profiles named 0 to `last`. -/
  | upTo (last : Nat)
  /-- Every name is a profile. -/
  | unbounded
deriving DecidableEq, Repr, Inhabited

/-- `p` is a value of the type. -/
def ProfileType.has (t : ProfileType) (p : Profile) : Bool :=
  match t with
  | .upTo last => decide (p.code ≤ last)
  | .unbounded => true

/-- A value of the type for every number, and every value for some number. -/
def ProfileType.value (t : ProfileType) (n : Nat) : Profile :=
  match t with
  | .upTo last => ⟨n % (last + 1)⟩
  | .unbounded => ⟨n⟩

/-- The parameters of R10, one field each, in R10's order. -/
structure Config where
  /-- `READY_GRAIN`: bytes sent per ready check (R190). -/
  readyGrain : Nat
  /-- `PRIME_LEN` (R210). -/
  primeLen : Nat
  /-- `DRAIN_LEN` (R214). -/
  drainLen : Nat
  /-- `SCI_OP_READ` (R112). -/
  sciOpRead : Byte
  /-- `SCI_OP_WRITE` (R113). -/
  sciOpWrite : Byte
  /-- `DUMMY_BYTE` (R112). -/
  dummyByte : Byte
  /-- `READY_LEVEL` (R142). -/
  readyLevel : Level
  /-- `RESET_ACTIVE` (R260, R340). -/
  resetActive : Level
  /-- `REG_VOL` (R174). -/
  regVol : Byte
  /-- `REG_ADDRSEL` (R234). -/
  regAddrSel : Byte
  /-- `REG_DATA` (R234). -/
  regData : Byte
  /-- `NREGS` (R175). -/
  nregs : Nat
  /-- `LOADER_TARGET` (R234). -/
  loaderTarget : LoaderTarget
  /-- `INIT_WRITES` (R260). -/
  initWrites : List (Byte × Word)
  /-- `Profile`: which profiles there are (R53, R144). -/
  profile : ProfileType
  /-- `TP_INIT` (R38, R260). -/
  tpInit : Profile
  /-- `TP_RUN` (R38, R260). -/
  tpRun : Profile
  /-- `MIDI_IMAGE` (R263). -/
  midiImage : List Word
  /-- `MIDI_WRITES` (R263). -/
  midiWrites : List (Byte × Word)
  /-- `MIDI_PAD` (R120). -/
  midiPad : Byte
  /-- `DIN_DEPTH` (R48). -/
  dinDepth : Nat
  /-- `DOUT_DEPTH` (R49). -/
  doutDepth : Nat
deriving DecidableEq, Repr

/-! ## Free values: no statement rests on what any of these is. -/

/-- The level DREQ has at the `n`-th sample that no answer queued in State decides (10_state.md R54,
93 S1: any value). Log 3. -/
opaque Config.freeDreq : Nat → Level

/-- The byte the peripheral returns in the `n`-th exchange that no answer queued in State decides
(10_state.md R54, 93 S1: any value). Log 3. -/
opaque Config.freeMiso : Nat → Byte

/-- The OPEN `INIT_WRITES` (R10, 92 D19). Log 5. -/
opaque Config.openInitWrites : List (Byte × Word)

/-- The OPEN `Profile` (R10, 92 D26). Log 5, 7. -/
opaque Config.openProfile : ProfileType

/-- Which value of `Profile` the OPEN `TP_INIT` is (R10, 92 D19). Log 5. -/
opaque Config.openTpInit : Nat

/-- Which value of `Profile` the OPEN `TP_RUN` is (R10, 92 D19). Log 5. -/
opaque Config.openTpRun : Nat

/-- The OPEN `MIDI_IMAGE` (R10, 92 D20); it may be malformed, which R263 lets a model admit. Log 5, 16. -/
opaque Config.openMidiImage : List Word

/-- The OPEN `MIDI_WRITES` (R10, 92 D20). Log 5. -/
opaque Config.openMidiWrites : List (Byte × Word)

/-- One less than the OPEN `DIN_DEPTH`, an integer of at least 1 (R10, 92 D3). Log 5. -/
opaque Config.openDinDepthPred : Nat

/-- One less than the OPEN `DOUT_DEPTH`, an integer of at least 1 (R10, 92 D3). Log 5. -/
opaque Config.openDoutDepthPred : Nat

/-- Which value of `Profile` the shared timing profile TP holds at power-up: it is not SPIC state and no rule
gives it (10_state.md R58). Log 14. -/
opaque Config.openTpAtPowerUp : Nat

/-- R10's default column. PRESUMED: R10 marks these defaults as general knowledge (log 6), all but
`LOADER_TARGET`, which is the source's reading; the OPEN parameters are free. -/
def Config.standard : Config where
  readyGrain := 32
  primeLen := 10
  drainLen := 2048
  sciOpRead := 0x03
  sciOpWrite := 0x02
  dummyByte := 0xFF
  readyLevel := true
  resetActive := false
  regVol := 0x0B
  regAddrSel := 0x07
  regData := 0x06
  nregs := 16
  loaderTarget := .fixedPair
  initWrites := Config.openInitWrites
  profile := Config.openProfile
  tpInit := Config.openProfile.value Config.openTpInit
  tpRun := Config.openProfile.value Config.openTpRun
  midiImage := Config.openMidiImage
  midiWrites := Config.openMidiWrites
  midiPad := 0x00
  dinDepth := Config.openDinDepthPred + 1
  doutDepth := Config.openDoutDepthPred + 1

end Sys2Proof
end

