-- ==== Sys2Proof/Machine/State.lean ====
section
/-!
DEFINITION. The state of the machine as plain data: every register of 10_state.md, the host channels, the
shared timing profile, the event trace, the configuration, and the moves and answers of the agents
outside the controller. The reset state (R58, 70_reset_and_hazards.md R340).
-/

namespace Sys2Proof.Machine

open Sys2Proof

/-! ## Names of things -/

/-- The output lines (10_state.md R40, R50). -/
inductive Line where
  | xcs
  | xdcs
  | xreset
deriving DecidableEq, Repr

/-- `SESSION` (10_state.md R34). -/
inductive Session where
  | idle
  | priming
  | streaming
  | draining
deriving DecidableEq, Repr

/-- `BUSMODE` as the select lines give it (10_state.md R41); `forbidden` is both lines low, never
reached (R42). Log 19. -/
inductive BusMode where
  | idle
  | control
  | data
  | forbidden
deriving DecidableEq, Repr

/-- The `ERR` codes 0 to 5 (60_exceptions.md R300); codes 6 to 15 are never written. Log 21. -/
inductive ResultCode where
  /-- `OK`: completed. -/
  | ok
  /-- `ERR_OPCODE`: reserved opcode. -/
  | errOpcode
  /-- `ERR_RESERVED`: a must-be-zero field is not zero. -/
  | errReserved
  /-- `ERR_NOT_INIT`: `INIT` = 0 and the command is not BEGIN. -/
  | errNotInit
  /-- `ERR_SESSION`: the session state forbids the command. -/
  | errSession
  /-- `ERR_IMAGE`: the firmware image runs past its length. -/
  | errImage
deriving DecidableEq, Repr

/-- The events of the trace (10_state.md R51). -/
inductive Event where
  | line (l : Line) (v : Level)
  | ready (r : Bool)
  | xfer (o i : Byte)
  | tpGet (p : Profile)
  | tpSet (p : Profile)
  | din (b : Byte)
  | dout (w : Word)
  /-- `Cmd(w)`: the word is accepted on CMD. -/
  | cmd (w : CmdWord)
  /-- `End(code)`: the command ended with this `ERR`. -/
  | done (code : ResultCode)
deriving DecidableEq, Repr

/-! ## The micro-program of a command (00_scope.md R14, R15; 10_state.md R30, R31) -/

/-- What becomes of a byte received from the bus or popped from DIN: dropped, or kept in a local. -/
inductive ByteDst where
  | drop
  | hi
  | lo
deriving DecidableEq, Repr

/-- The byte source of a data transaction (42_streaming.md R190); `frame` holds the bytes not yet sent. -/
inductive DataSrc where
  | din
  | zero
  | frame (bytes : List Byte)
deriving DecidableEq, Repr

/-- An assignment to a register. Assignments take no step (R15). -/
inductive Assign where
  | init (v : Bool)
  | session (v : Session)
  | midi (v : Bool)
  | err (c : ResultCode)
  | drvTp (p : Profile)
deriving DecidableEq, Repr

/-- One item of a micro-program. The first group are the primitives of 40_line_control.md, one step
each; the second the silent items, which take no step (R15); the loops hold the work they have left. -/
inductive Op where
  /-- `SetLine(l, v)` (R140). -/
  | setLine (l : Line) (v : Level)
  /-- `SetLine(l, 1)` as the first line write of `EnterControl` or `EnterData`, which require
  `BUSMODE` = `Idle` (R148, R150). -/
  | enter (l : Line)
  /-- `AwaitReady` (R147): one `SampleReady` (R142) a step, until one is ready. -/
  | awaitReady
  /-- `Xfer(o)` (R143). -/
  | xfer (o : Byte) (d : ByteDst)
  /-- `p <- TPRead(); TP_SAVE <- p; TP_HELD <- 1` of `TxnBegin` (R144, R152). -/
  | tpCapture
  /-- `TPWrite(DRV_TP)` of `TxnBegin` (R144, R152). -/
  | tpApply
  /-- `TPWrite(TP_SAVE); TP_HELD <- 0`, which is `TxnEnd` (R144, R153). -/
  | tpRestore
  /-- `DinPop()` (R145). -/
  | dinPop (d : ByteDst)
  /-- `b <- DinPop()` of a data transaction, whose next step is `Xfer(b)` (R190). -/
  | dinSend
  /-- `DoutPush` of the word in the locals `hi` and `lo` (R146). -/
  | doutPush
  /-- An assignment. -/
  | assign (a : Assign)
  /-- The group loop of `DataSend` with `n` bytes yet to send (R190). -/
  | sendGroups (src : DataSrc) (n : Nat)
  /-- The byte loop of a group with `g` bytes yet to send (R190, R57). -/
  | sendBytes (src : DataSrc) (g : Nat)
  /-- `for (a, v) in l: RegWrite(a, v)` (R260, R263). -/
  | regWrites (l : List (Byte × Word))
  /-- `for a in a .. a+n-1: v <- RegRead(a); DoutPush(v)` (R175). -/
  | readRegs (a n : Nat)
  /-- The record loop of `ImageLoad(DIN, len)` (R232). -/
  | imageLoop (len : Nat)
  /-- `a <- {hi, lo}` (R232). -/
  | imageAddr
  /-- `h <- {hi, lo}` and the test that the payload fits (R232). -/
  | imageHeader (len : Nat)
  /-- The address-select write, in `FixedPair` mode (R232). -/
  | imageSelect
  /-- The payload: one value word for a repeat-run, `N` words for a copy-run (R232). -/
  | imagePayload
  /-- The copy-run loop with `n` words yet to copy (R232). -/
  | imageCopy (n : Nat)
  /-- `v <- {hi, lo}; RegWrite(tgt, v)` (R232). -/
  | imageStore
  /-- `v <- {hi, lo}; for i in 0 .. N-1: RegWrite(tgt, v)` (R232). -/
  | imageRepeat
  /-- The payload discard of a rejection with `n` bytes yet to discard (60_exceptions.md R305). -/
  | discard (n : Nat)
  /-- `raise Fault(ERR_IMAGE)` (R308). -/
  | raiseImage
  /-- The command's end with code `c`: completion (R306) or rejection (R304). -/
  | finish (c : ResultCode)
deriving DecidableEq, Repr

/-- The local variables of the running command that outlive one item of its micro-program (R30). -/
structure Locals where
  /-- The high byte last kept (R170 `hi`; the first byte of an image word). -/
  hi : Byte
  /-- The low byte last kept (R170 `lo`; the second byte of an image word). -/
  lo : Byte
  /-- The loader's address word (R232 `a`). -/
  a : Word
  /-- The loader's header word (R232 `h`). -/
  h : Word
  /-- The loader's cursor (R232 `cur`). -/
  cur : Nat
deriving DecidableEq, Repr

/-- The locals before a micro-program assigns them: no rule reads one before that (R30). -/
def Locals.blank : Locals := { hi := 0, lo := 0, a := 0, h := 0, cur := 0 }

/-- The position `k` of `EXEC(cmd, k)` (R31): `start` is `k` = 0, the acceptance check to come;
`run` is the rest of the micro-program with its locals. Log 18. -/
inductive Pos where
  | start
  | run (loc : Locals) (ops : List Op)
deriving DecidableEq, Repr

/-- `PHASE` (10_state.md R31). -/
inductive Phase where
  | ready
  | exec (cmd : CmdWord) (k : Pos)
  | halted
deriving DecidableEq, Repr

/-! ## The moves of the agents (10_state.md R52) -/

/-- One scheduled move. DESIGN CHOICE, log 2. -/
inductive Move where
  /-- The controller takes its next step. -/
  | controller
  /-- The host offers `w` on CMD (R47). -/
  | offer (w : CmdWord)
  /-- The host pushes `b` on DIN (R48). -/
  | push (b : Byte)
  /-- The host takes the oldest DOUT word (R49). -/
  | take
  /-- A bus co-user replaces the shared timing profile (R53). -/
  | coUser (p : Profile)
  /-- The platform asserts the controller reset (70_reset_and_hazards.md R340). -/
  | reset
deriving DecidableEq, Repr

/-- The state of the machine and of what it shares with its surroundings. -/
structure State where
  /-- The parameters of 00_scope.md R10: configuration, written by no step. Log 4. -/
  cfg : Config
  /-- `PHASE` (R31), with the latched command word (R32) and the command locals (R30). -/
  phase : Phase
  /-- `INIT` (R33). -/
  init : Bool
  /-- `SESSION` (R34). -/
  session : Session
  /-- `MIDI` (R35). -/
  midi : Bool
  /-- `ERR` (R36). -/
  err : ResultCode
  /-- `FAULT` (R37). -/
  fault : Bool
  /-- `DRV_TP` (R38). -/
  drvTp : Profile
  /-- `TP_SAVE` (R39), present exactly while `TP_HELD` = 1. Log 8. -/
  tpSave : Option Profile
  /-- `XCS_o` (R40). -/
  xcs : Level
  /-- `XDCS_o` (R40). -/
  xdcs : Level
  /-- `XRESET_o` (R40). -/
  xreset : Level
  /-- The DIN buffer, oldest byte first (R48). -/
  din : List Byte
  /-- The DOUT buffer, oldest word first (R49). -/
  dout : List Word
  /-- The shared timing profile TP, which is not SPIC state (R58, R144). -/
  tp : Profile
  /-- The trace, oldest event first (R51). Log 9. -/
  trace : List Event
  /-- The model's own: the moves to come, next first; where it is empty the controller moves. Log 2. -/
  sched : List Move
  /-- The model's own: the DREQ levels of the next samples. Log 3. -/
  dreqIn : List Level
  /-- The model's own: the bytes the peripheral returns next. Log 3. -/
  misoIn : List Byte
  /-- The model's own: how many answers were drawn as free values. Log 3. -/
  draws : Nat
deriving DecidableEq, Repr

/-- Why the machine stops. The controller's own fault (`ERR_IMAGE`, R308) is not one of these: it is the
state HALTED. -/
inductive Fault where
  /-- `FaultInternal` of 40_line_control.md R156: `EnterControl` or `EnterData` while `BUSMODE` is not
  `Idle`. Raised by the `enter` item. Safe: the spec gives the case no meaning and no reachable state
  meets it. -/
  | enterNotIdle
  /-- `TxnBegin` while `TP_HELD` = 1, against its precondition (R152). Raised by the `tpCapture` item.
  Safe: no reachable state meets it (R155). -/
  | txnNested
  /-- `TxnEnd` while `TP_HELD` = 0, against its precondition (R153). Raised by the `tpRestore` item.
  Safe: no reachable state meets it (R155). -/
  | txnNotHeld
deriving DecidableEq, Repr

/-- Why the model gives an instruction no meaning. -/
inductive Refusal where
  /-- The instruction has no meaning yet: raised by its arm of `exec` only. Safe. No arm raises it. -/
  | notModelled (mnemonic : String)
deriving DecidableEq, Repr

/-- What a step answers. -/
abbrev Result := Host.Outcome State Fault Refusal

/-! ## Reset (10_state.md R58, 70_reset_and_hazards.md R340) -/

/-- The events a controller reset records (R340). -/
def resetEvents (c : Config) : List Event :=
  [.line .xcs true, .line .xdcs true, .line .xreset c.resetActive]

/-- The state right after power-up reset under configuration `c`, with the shared timing profile at `p`:
R58's table, row by row, the events of R340, and no move or answer queued. -/
def State.resetWith (c : Config) (p : Profile) : State where
  cfg := c
  phase := .ready
  init := false
  session := .idle
  midi := false
  err := .ok
  fault := false
  drvTp := c.tpInit
  tpSave := none
  xcs := true
  xdcs := true
  xreset := c.resetActive
  din := []
  dout := []
  tp := p
  trace := resetEvents c
  sched := []
  dreqIn := []
  misoIn := []
  draws := 0

/-- The machine right after reset, under the standard configuration (log 6) with its OPEN parameters free
(log 5). -/
def State.reset : State :=
  State.resetWith Config.standard (Config.standard.profile.value Config.openTpAtPowerUp)

end Sys2Proof.Machine
end

