-- ==== Sys2Proof/Machine/Operands.lean ====
section
/-!
DEFINITION. The operand forms: the halves of a 16-bit word (00_scope.md R13, 20_memory.md R72, R73),
the volume word (30_encoding.md R121), the MIDI frame (R120) and the firmware image (R116 to R119,
44_firmware_loader.md R230 to R232).
-/

namespace Sys2Proof.Machine

open Sys2Proof

/-- `byte_hi(w) = w[15:8]` (00_scope.md R13). -/
def byteHi (w : Word) : Byte := w.extractLsb' 8 8

/-- `byte_lo(w) = w[7:0]` (00_scope.md R13). -/
def byteLo (w : Word) : Byte := w.extractLsb' 0 8

/-- The concatenation of a high and a low byte: a register value from its two response bytes
(20_memory.md R72) and an image word from its two DIN bytes (R73). -/
def joinBytes (hi lo : Byte) : Word := hi ++ lo

/-- The bytes of a word in the order of the bus and of DIN: high byte first (R72, R73). -/
def wordBytes (w : Word) : List Byte := [byteHi w, byteLo w]

/-- The volume word: both bytes equal to `level` (30_encoding.md R121). -/
def volumeWord (level : Byte) : Word := joinBytes level level

/-- The MIDI frame (30_encoding.md R120). -/
def midiFrame (pad mcmd d1 d2 : Byte) : List Byte := [pad, mcmd, pad, d1, pad, d2]

/-- The register index of a 16-bit address word in `Direct` mode: `a[7:0]` (44_firmware_loader.md R234). -/
def directTarget (a : Word) : Byte := byteLo a

/-! ## The firmware image -/

/-- The repeat flag `R = h[15]` of a header word (30_encoding.md R117). -/
def headerRepeat (h : Word) : Bool := h.getLsbD 15

/-- The count `N = h[14:0]` of a header word (30_encoding.md R117). -/
def headerCount (h : Word) : Nat := (h.extractLsb' 0 15).toNat

/-- How many payload words follow a header: one for a repeat-run, `N` for a copy-run
(30_encoding.md R118, 44_firmware_loader.md R232). -/
def headerNeed (h : Word) : Nat := if headerRepeat h then 1 else headerCount h

/-- R230's `wf` on the words not yet decoded. `fuel` bounds the number of records; an image has at most
as many records as words. -/
def imageWfFuel : Nat → List Word → Bool
  | _, [] => true
  | _, [_] => false
  | 0, _ :: _ :: _ => false
  | fuel + 1, _ :: h :: rest =>
    if rest.length < headerNeed h then false
    else imageWfFuel fuel (rest.drop (headerNeed h))

/-- An image is well formed: its records tile it exactly (30_encoding.md R119, 44_firmware_loader.md
R230). -/
def imageWf (ws : List Word) : Bool := imageWfFuel ws.length ws

/-- What `ImageLoad` does with an image, in order: it takes a word from its source, or it performs a
register write (44_firmware_loader.md R232). -/
inductive LoadAct where
  | word (w : Word)
  | write (a : Byte) (v : Word)
deriving DecidableEq, Repr

/-- The register the payload of a record goes to (44_firmware_loader.md R232, R234). -/
def recordTarget (c : Config) (a : Word) : Byte :=
  match c.loaderTarget with
  | .fixedPair => c.regData
  | .direct => directTarget a

/-- The address-select write that opens a record, in `FixedPair` mode only (R232, R234). -/
def recordSelect (c : Config) (a : Word) : List (Byte × Word) :=
  match c.loaderTarget with
  | .fixedPair => [(c.regAddrSel, a)]
  | .direct => []

/-- What one record does after its two header words were taken (44_firmware_loader.md R232):
`payload` holds at least its `headerNeed h` words. -/
def recordActs (c : Config) (a h : Word) (payload : List Word) : List LoadAct :=
  (recordSelect c a).map (fun p => LoadAct.write p.1 p.2) ++
  if headerRepeat h then
    (payload.take 1).flatMap (fun v =>
      LoadAct.word v :: List.replicate (headerCount h) (LoadAct.write (recordTarget c a) v))
  else
    (payload.take (headerCount h)).flatMap (fun v =>
      [LoadAct.word v, LoadAct.write (recordTarget c a) v])

/-- All that `ImageLoad` does with the words of an image, and whether it reaches the image's end: `false`
where R232 raises `Fault(ERR_IMAGE)`. -/
def imageActsFuel (c : Config) : Nat → List Word → List LoadAct × Bool
  | _, [] => ([], true)
  | _, [_] => ([], false)
  | 0, _ :: _ :: _ => ([], false)
  | fuel + 1, a :: h :: rest =>
    if rest.length < headerNeed h then ([LoadAct.word a, LoadAct.word h], false)
    else
      let tail := imageActsFuel c fuel (rest.drop (headerNeed h))
      (LoadAct.word a :: LoadAct.word h :: (recordActs c a h rest ++ tail.1), tail.2)

/-- `ImageLoad` as the list of what it does (44_firmware_loader.md R232). -/
def imageActs (c : Config) (ws : List Word) : List LoadAct × Bool :=
  imageActsFuel c ws.length ws

/-- The register writes among a loader's actions, in order. -/
def loadWrites : List LoadAct → List (Byte × Word)
  | [] => []
  | .word _ :: rest => loadWrites rest
  | .write a v :: rest => (a, v) :: loadWrites rest

/-- The image words among a loader's actions, in order. -/
def loadWords : List LoadAct → List Word
  | [] => []
  | .word w :: rest => w :: loadWords rest
  | .write _ _ :: rest => loadWords rest

/-- The register writes `ImageLoad(ROM(ws))` performs (44_firmware_loader.md R232). Taking a word from a
ROM records no event, so the writes are all of it; DEDUCED, log 17. -/
def imageWrites (c : Config) (ws : List Word) : List (Byte × Word) := loadWrites (imageActs c ws).1

/-- `ImageLoad(ROM(ws))` reaches the end of the image without a fault (44_firmware_loader.md R235). -/
def imageLoads (c : Config) (ws : List Word) : Bool := (imageActs c ws).2

end Sys2Proof.Machine
end

