-- ==== Sys2Proof/Syntax.lean ====
section
/-!
DEFINITION. The thirteen commands of 30_encoding.md R100, one constructor per row of
spec/opcode_table.json, with the operands of R102 and R103.
-/

namespace Sys2Proof

/-- A SPIC command (30_encoding.md R100). Every operand value is legal (R108), so an operand is a bit
vector of exactly its field's width (R103). -/
inductive Instr where
  /-- BEGIN, format N (45_init_and_midi.md R260). -/
  | begin
  /-- READ_REG addr, format A (41_register_access.md R171). -/
  | readReg (addr : Byte)
  /-- WRITE_REG addr, value, format R (41_register_access.md R173). -/
  | writeReg (addr : Byte) (value : Word)
  /-- SEND_BUFFER len, format L (42_streaming.md R191). -/
  | sendBuffer (len : Len)
  /-- SEND_ZEROES len, format L (42_streaming.md R192). -/
  | sendZeroes (len : Len)
  /-- START_SONG, format N (43_playback_session.md R210). -/
  | startSong
  /-- PLAY_CHUNK len, format L (43_playback_session.md R212). -/
  | playChunk (len : Len)
  /-- STOP_SONG, format N (43_playback_session.md R214). -/
  | stopSong
  /-- LOAD_IMAGE len, format L, a count of image words (44_firmware_loader.md R233, R104). -/
  | loadImage (len : Len)
  /-- SET_VOLUME level, format V (41_register_access.md R174). -/
  | setVolume (level : Byte)
  /-- BEGIN_MIDI, format N (45_init_and_midi.md R263). -/
  | beginMidi
  /-- SEND_MIDI mcmd, d1, d2, format M (45_init_and_midi.md R264). -/
  | sendMidi (mcmd d1 d2 : Byte)
  /-- PRINT_DETAILS, format N (41_register_access.md R175). -/
  | printDetails
deriving DecidableEq, Repr

/-- The mnemonic of a command, as 30_encoding.md R100 and spec/opcode_table.json write it. -/
def Instr.mnemonic : Instr → String
  | .begin => "BEGIN"
  | .readReg _ => "READ_REG"
  | .writeReg _ _ => "WRITE_REG"
  | .sendBuffer _ => "SEND_BUFFER"
  | .sendZeroes _ => "SEND_ZEROES"
  | .startSong => "START_SONG"
  | .playChunk _ => "PLAY_CHUNK"
  | .stopSong => "STOP_SONG"
  | .loadImage _ => "LOAD_IMAGE"
  | .setVolume _ => "SET_VOLUME"
  | .beginMidi => "BEGIN_MIDI"
  | .sendMidi _ _ _ => "SEND_MIDI"
  | .printDetails => "PRINT_DETAILS"

end Sys2Proof
end

