-- ==== Sys2Proof/WellFormed.lean ====
section
/-!
DEFINITION. Well-formedness: of commands, of command words (30_encoding.md R105 to R108), of firmware
images (44_firmware_loader.md R230, `Machine.imageWf`) and of the configuration (00_scope.md R9, R10).
-/

namespace Sys2Proof

/-- A command is well formed. Every operand value of a defined command is legal (30_encoding.md R108)
and an operand's type has exactly its field's width (R103), so there is nothing left to check; one line
per constructor, so that a constructor with a check of its own cannot slip past. -/
def Instr.wf : Instr → Bool
  | .begin => true
  | .readReg _ => true
  | .writeReg _ _ => true
  | .sendBuffer _ => true
  | .sendZeroes _ => true
  | .startSong => true
  | .playChunk _ => true
  | .stopSong => true
  | .loadImage _ => true
  | .setVolume _ => true
  | .beginMidi => true
  | .sendMidi _ _ _ => true
  | .printDetails => true

/-- One row of the opcode map (30_encoding.md R105). -/
structure OpcodeRow where
  mnemonic : String
  pattern : CmdWord
  mask : CmdWord
deriving DecidableEq, Repr

/-- The opcode map of 30_encoding.md R105, row by row. -/
def opcodeMap : List OpcodeRow :=
  [ ⟨"BEGIN", 0x01000000, 0xFFFFFFFF⟩
  , ⟨"READ_REG", 0x02000000, 0xFF00FFFF⟩
  , ⟨"WRITE_REG", 0x03000000, 0xFF000000⟩
  , ⟨"SEND_BUFFER", 0x04000000, 0xFF000000⟩
  , ⟨"SEND_ZEROES", 0x05000000, 0xFF000000⟩
  , ⟨"START_SONG", 0x06000000, 0xFFFFFFFF⟩
  , ⟨"PLAY_CHUNK", 0x07000000, 0xFF000000⟩
  , ⟨"STOP_SONG", 0x08000000, 0xFFFFFFFF⟩
  , ⟨"LOAD_IMAGE", 0x09000000, 0xFF000000⟩
  , ⟨"SET_VOLUME", 0x0A000000, 0xFFFFFF00⟩
  , ⟨"BEGIN_MIDI", 0x0B000000, 0xFFFFFFFF⟩
  , ⟨"SEND_MIDI", 0x0C000000, 0xFF000000⟩
  , ⟨"PRINT_DETAILS", 0x0D000000, 0xFFFFFFFF⟩ ]

/-- A word spells the command of a row iff its masked bits are the row's pattern (R105). -/
def OpcodeRow.spells (r : OpcodeRow) (w : CmdWord) : Bool := (w &&& r.mask) == r.pattern

/-- A command word is well formed: some row of the opcode map spells it (R105). -/
def wordWf (w : CmdWord) : Bool := opcodeMap.any (fun r => r.spells w)

/-- The constraints R9 and R10 put on the parameters: `READY_GRAIN` ≥ 1, `DRAIN_LEN` > `PRIME_LEN`,
`SCI_OP_WRITE` ≠ `SCI_OP_READ`, `REG_DATA` ≠ `REG_ADDRSEL`, 1 ≤ `NREGS` ≤ 256, `MIDI_IMAGE` well formed per
44_firmware_loader.md R230, `DIN_DEPTH` ≥ 1, `DOUT_DEPTH` ≥ 1, and `TP_INIT` and `TP_RUN` values of
`Profile`. -/
def Config.wf (c : Config) : Bool :=
  decide (1 ≤ c.readyGrain) && decide (c.primeLen < c.drainLen) && decide (c.sciOpWrite ≠ c.sciOpRead)
    && decide (c.regData ≠ c.regAddrSel) && decide (1 ≤ c.nregs) && decide (c.nregs ≤ 256)
    && Machine.imageWf c.midiImage && decide (1 ≤ c.dinDepth) && decide (1 ≤ c.doutDepth)
    && c.profile.has c.tpInit && c.profile.has c.tpRun

end Sys2Proof
end

