-- ==== Sys2Proof/Decode.lean ====
section
/-!
DEFINITION. The decoder of 30_encoding.md R109, total on every 32-bit word and rejecting by the name of
the `ERR` code, and the encoder written from the formats of R102.
-/

namespace Sys2Proof

open Sys2Proof.Machine (ResultCode)

/-! ## The fields of a command word (30_encoding.md R102, R103) -/

/-- The opcode, `w[31:24]`. -/
def fieldOpcode (w : CmdWord) : Byte := w.extractLsb' 24 8

/-- `addr = w[23:16]`, and `mcmd` at the same place. -/
def fieldAddr (w : CmdWord) : Byte := w.extractLsb' 16 8

/-- `value = w[15:0]`. -/
def fieldValue (w : CmdWord) : Word := w.extractLsb' 0 16

/-- `len = w[23:0]`. -/
def fieldLen (w : CmdWord) : Len := w.extractLsb' 0 24

/-- `d1 = w[15:8]`. -/
def fieldD1 (w : CmdWord) : Byte := w.extractLsb' 8 8

/-- `level = w[7:0]`, and `d2` at the same place. -/
def fieldLevel (w : CmdWord) : Byte := w.extractLsb' 0 8

/-- The must-be-zero bits `w[23:8]` of format V. -/
def fieldHigh16 (w : CmdWord) : Word := w.extractLsb' 8 16

/-- A command whose must-be-zero bits are `reserved` (30_encoding.md R107). -/
def ifZero {n : Nat} (reserved : BitVec n) (i : Instr) : Except ResultCode Instr :=
  if reserved = 0 then .ok i else .error .errReserved

/-- The decoder, case by case as 30_encoding.md R109 writes it. -/
def decode (w : CmdWord) : Except ResultCode Instr :=
  match (fieldOpcode w).toNat with
  | 0x01 => ifZero (fieldLen w) .begin
  | 0x02 => ifZero (fieldValue w) (.readReg (fieldAddr w))
  | 0x03 => .ok (.writeReg (fieldAddr w) (fieldValue w))
  | 0x04 => .ok (.sendBuffer (fieldLen w))
  | 0x05 => .ok (.sendZeroes (fieldLen w))
  | 0x06 => ifZero (fieldLen w) .startSong
  | 0x07 => .ok (.playChunk (fieldLen w))
  | 0x08 => ifZero (fieldLen w) .stopSong
  | 0x09 => .ok (.loadImage (fieldLen w))
  | 0x0A => ifZero (fieldHigh16 w) (.setVolume (fieldLevel w))
  | 0x0B => ifZero (fieldLen w) .beginMidi
  | 0x0C => .ok (.sendMidi (fieldAddr w) (fieldD1 w) (fieldLevel w))
  | 0x0D => ifZero (fieldLen w) .printDetails
  | _ => .error .errOpcode

/-- The instruction the decoder reads from the low `nbits` bits of `w`, every bit above them zero. -/
def decodeTableWord (nbits w : Nat) : Option Instr :=
  match decode (BitVec.ofNat 32 (w % 2 ^ nbits)) with
  | .ok i => some i
  | .error _ => none

/-! ## The encoder -/

/-- Format N: the opcode, and 24 zero bits (30_encoding.md R102). -/
def formatN (op : Byte) : CmdWord := op ++ (0 : Len)

/-- Format A: opcode, `addr`, 16 zero bits (R102). -/
def formatA (op addr : Byte) : CmdWord := op ++ (addr ++ (0 : Word) : Len)

/-- Format R: opcode, `addr`, `value` (R102). -/
def formatR (op addr : Byte) (value : Word) : CmdWord := op ++ (addr ++ value : Len)

/-- Format L: opcode, `len` (R102). -/
def formatL (op : Byte) (len : Len) : CmdWord := op ++ len

/-- Format V: opcode, 16 zero bits, `level` (R102). -/
def formatV (op level : Byte) : CmdWord := op ++ ((0 : Word) ++ level : Len)

/-- Format M: opcode and three bytes (R102). -/
def formatM (op mcmd d1 d2 : Byte) : CmdWord := op ++ (mcmd ++ (d1 ++ d2 : Word) : Len)

/-- The word of a command: its opcode (30_encoding.md R105) in its format (R102). -/
def encode : Instr → CmdWord
  | .begin => formatN 0x01
  | .readReg addr => formatA 0x02 addr
  | .writeReg addr value => formatR 0x03 addr value
  | .sendBuffer len => formatL 0x04 len
  | .sendZeroes len => formatL 0x05 len
  | .startSong => formatN 0x06
  | .playChunk len => formatL 0x07 len
  | .stopSong => formatN 0x08
  | .loadImage len => formatL 0x09 len
  | .setVolume level => formatV 0x0A level
  | .beginMidi => formatN 0x0B
  | .sendMidi mcmd d1 d2 => formatM 0x0C mcmd d1 d2
  | .printDetails => formatN 0x0D

end Sys2Proof
end

