-- ==== Sys2Proof/Machine/Flags.lean ====
section
/-!
DEFINITION. The condition state: the views of the registers that are not registers themselves (BUSMODE,
`TP_HELD`, `cmd_ready`), the numbers of `SESSION` and `ERR`, and the STATUS vector (10_state.md R39, R41,
R44, R47).
-/

namespace Sys2Proof.Machine

open Sys2Proof

/-- `BUSMODE`, a function of the select lines (10_state.md R41). -/
def State.busMode (s : State) : BusMode :=
  match s.xcs, s.xdcs with
  | true, true => .idle
  | false, true => .control
  | true, false => .data
  | false, false => .forbidden

/-- `TP_HELD` (10_state.md R39). -/
def State.tpHeld (s : State) : Bool := s.tpSave.isSome

/-- `cmd_ready = (PHASE = READY)` (10_state.md R47). -/
def State.cmdReady (s : State) : Bool := decide (s.phase = .ready)

/-- `BUSY`: 1 iff `PHASE` is `EXEC(..)` or `HALTED` (10_state.md R44, R45). -/
def State.busy (s : State) : Bool := !s.cmdReady

/-- The number of a session state (10_state.md R34). -/
def sessionCode : Session → BitVec 2
  | .idle => 0
  | .priming => 1
  | .streaming => 2
  | .draining => 3

/-- The number of a bus mode in STATUS; 3 never appears (10_state.md R44). -/
def busModeCode : BusMode → BitVec 2
  | .idle => 0
  | .control => 1
  | .data => 2
  | .forbidden => 3

/-- The number of a result code (60_exceptions.md R300). -/
def resultCode : ResultCode → BitVec 4
  | .ok => 0
  | .errOpcode => 1
  | .errReserved => 2
  | .errNotInit => 3
  | .errSession => 4
  | .errImage => 5

/-- The STATUS vector, bits 15 down to 0 (10_state.md R44). -/
def State.status (s : State) : BitVec 16 :=
  (0 : BitVec 4) ++ resultCode s.err ++ BitVec.ofBool s.fault ++ BitVec.ofBool s.midi
    ++ BitVec.ofBool s.init ++ sessionCode s.session ++ busModeCode s.busMode ++ BitVec.ofBool s.busy

end Sys2Proof.Machine
end

