-- ==== Sys2Proof/Machine/Ops.lean ====
section
/-!
DEFINITION. The named operations: the primitives and composite actions of 40_line_control.md, the
transactions (41 R170, R172; 42 R190), the loader (44 R232), one step of a micro-program, acceptance,
rejection, completion and fault (60_exceptions.md R302 to R308), which take the place of exceptions here,
and the moves of the other agents (10_state.md R47 to R53, 70 R340).
-/

namespace Sys2Proof.Machine

open Sys2Proof

/-! ## Primitive effects -/

/-- Append an event to the trace (10_state.md R51). -/
def State.record (e : Event) (s : State) : State := { s with trace := s.trace ++ [e] }

/-- `SetLine(l, v)`: drive the line and record it, changed or not (40_line_control.md R140, R154). -/
def State.setLine (l : Line) (v : Level) (s : State) : State :=
  match l with
  | .xcs => State.record (.line .xcs v) { s with xcs := v }
  | .xdcs => State.record (.line .xdcs v) { s with xdcs := v }
  | .xreset => State.record (.line .xreset v) { s with xreset := v }

/-- The level of DREQ at a sample: the next queued answer, or a free value (10_state.md R54). Log 3. -/
def State.dreqLevel (s : State) : Level :=
  match s.dreqIn with
  | l :: _ => l
  | [] => Config.freeDreq s.draws

/-- The state after a sample took its answer. -/
def State.dreqTaken (s : State) : State :=
  match s.dreqIn with
  | _ :: rest => { s with dreqIn := rest }
  | [] => { s with draws := s.draws + 1 }

/-- The byte the peripheral returns in an exchange: the next queued answer, or a free value (R54).
Log 3. -/
def State.misoByte (s : State) : Byte :=
  match s.misoIn with
  | b :: _ => b
  | [] => Config.freeMiso s.draws

/-- The state after an exchange took its answer. -/
def State.misoTaken (s : State) : State :=
  match s.misoIn with
  | _ :: rest => { s with misoIn := rest }
  | [] => { s with draws := s.draws + 1 }

/-- `SampleReady`'s answer `r <- (lvl = READY_LEVEL)` (40_line_control.md R142). -/
def State.sampleReady (s : State) : Bool := s.dreqLevel == s.cfg.readyLevel

/-- The state after `SampleReady` (R142). -/
def State.afterSample (s : State) : State := State.record (.ready s.sampleReady) s.dreqTaken

/-- The state after `Xfer(o)` (40_line_control.md R143). -/
def State.afterXfer (o : Byte) (s : State) : State :=
  State.record (.xfer o s.misoByte) s.misoTaken

/-- `TPWrite(p)`: the shared profile becomes `p` (40_line_control.md R144). -/
def State.tpWrite (p : Profile) (s : State) : State := State.record (.tpSet p) { s with tp := p }

/-- `p <- TPRead(); TP_SAVE <- p; TP_HELD <- 1`, the first half of `TxnBegin` (R144, R152). -/
def State.tpCapture (s : State) : State := State.record (.tpGet s.tp) { s with tpSave := some s.tp }

/-- `TPWrite(TP_SAVE); TP_HELD <- 0`, which is `TxnEnd`, where `TP_SAVE` holds `p` (R144, R153). -/
def State.tpRestore (p : Profile) (s : State) : State := { s.tpWrite p with tpSave := none }

/-- `DinPop()` of the byte `b` that leaves `bs` in DIN (40_line_control.md R145). -/
def State.dinPop (b : Byte) (bs : List Byte) (s : State) : State :=
  State.record (.din b) { s with din := bs }

/-- `DoutPush(w)` into a DOUT buffer with room (40_line_control.md R146). -/
def State.doutPush (w : Word) (s : State) : State :=
  State.record (.dout w) { s with dout := s.dout ++ [w] }

/-- Keep a byte in a local, or drop it (30_encoding.md R112 to R114). -/
def Locals.keep (d : ByteDst) (b : Byte) (loc : Locals) : Locals :=
  match d with
  | .drop => loc
  | .hi => { loc with hi := b }
  | .lo => { loc with lo := b }

/-- The word whose bytes the locals hold (20_memory.md R72, R73). -/
def Locals.word (loc : Locals) : Word := joinBytes loc.hi loc.lo

/-- An assignment to a register; it records nothing (00_scope.md R15). -/
def State.assign (a : Assign) (s : State) : State :=
  match a with
  | .init v => { s with init := v }
  | .session v => { s with session := v }
  | .midi v => { s with midi := v }
  | .err c => { s with err := c }
  | .drvTp p => { s with drvTp := p }

/-! ## The end of a command -/

/-- Completion (`c` = OK, 60_exceptions.md R306) and the end of a rejection (R304):
`ERR <- c; record End(c); PHASE <- READY`. -/
def State.finish (c : ResultCode) (s : State) : State :=
  State.record (.done c) { s with err := c, phase := .ready }

/-- Fault entry `raise Fault(c)`: `ERR <- c; FAULT <- 1; record End(c); PHASE <- HALTED`, nothing saved and
no vector taken (60_exceptions.md R308). -/
def State.raiseFault (c : ResultCode) (s : State) : State :=
  State.record (.done c) { s with err := c, fault := true, phase := .halted }

/-! ## Composite actions (00_scope.md R17) -/

/-- `TxnBegin` (40_line_control.md R152). -/
def txnBegin : List Op := [.tpCapture, .tpApply]

/-- `TxnEnd` (40_line_control.md R153). -/
def txnEnd : List Op := [.tpRestore]

/-- `EnterControl` (40_line_control.md R148). -/
def enterControl : List Op := [.enter .xdcs, .setLine .xcs false]

/-- `ExitControl` (40_line_control.md R149). -/
def exitControl : List Op := [.setLine .xcs true]

/-- `EnterData` (40_line_control.md R150). -/
def enterData : List Op := [.enter .xcs, .setLine .xdcs false]

/-- `ExitData` (40_line_control.md R151). -/
def exitData : List Op := [.setLine .xdcs true]

/-- `RegRead(a)`: the value is left in the locals `hi` and `lo` (41_register_access.md R170, 30_encoding.md
R112). -/
def regRead (c : Config) (a : Byte) : List Op :=
  txnBegin ++ [.awaitReady] ++ enterControl
    ++ [.xfer c.sciOpRead .drop, .xfer a .drop, .xfer c.dummyByte .hi, .xfer c.dummyByte .lo]
    ++ exitControl ++ txnEnd

/-- `RegWrite(a, v)` (41_register_access.md R172, 30_encoding.md R113). -/
def regWrite (c : Config) (a : Byte) (v : Word) : List Op :=
  txnBegin ++ [.awaitReady] ++ enterControl
    ++ [.xfer c.sciOpWrite .drop, .xfer a .drop, .xfer (byteHi v) .drop, .xfer (byteLo v) .drop]
    ++ exitControl ++ txnEnd

/-- `DataSend(src, n)` (42_streaming.md R190). -/
def dataSend (src : DataSrc) (n : Nat) : List Op :=
  txnBegin ++ enterData ++ [.sendGroups src n] ++ exitData ++ txnEnd

/-- `ImageLoad(DIN, len)` (44_firmware_loader.md R232), with `cur` = 0 in the blank locals. -/
def imageLoadDin (len : Nat) : List Op := [.imageLoop len]

/-- `ImageLoad(ROM(ws), length(ws))` (44_firmware_loader.md R232). DEDUCED, log 17: taking a word from a ROM
is no primitive, so the writes, and the fault of a malformed image after them, are all of it. -/
def imageLoadRom (c : Config) (ws : List Word) : List Op :=
  .regWrites (imageWrites c ws) :: if imageLoads c ws then [] else [.raiseImage]

/-- `w <- nextWord(DIN)`: two pops, high byte first (20_memory.md R73). -/
def nextWordDin : List Op := [.dinPop .hi, .dinPop .lo]

/-! ## The silent items (00_scope.md R15) -/

/-- Whether an item is a primitive, which takes a step, or silent, which takes none (R15). -/
def Op.isPrimitive : Op → Bool
  | .setLine _ _ => true
  | .enter _ => true
  | .awaitReady => true
  | .xfer _ _ => true
  | .tpCapture => true
  | .tpApply => true
  | .tpRestore => true
  | .dinPop _ => true
  | .dinSend => true
  | .doutPush => true
  | .assign _ => false
  | .sendGroups _ _ => false
  | .sendBytes _ _ => false
  | .regWrites _ => false
  | .readRegs _ _ => false
  | .imageLoop _ => false
  | .imageAddr => false
  | .imageHeader _ => false
  | .imageSelect => false
  | .imagePayload => false
  | .imageCopy _ => false
  | .imageStore => false
  | .imageRepeat => false
  | .discard _ => false
  | .raiseImage => false
  | .finish _ => false

/-- The source of a data transaction after `g` of its bytes were sent (42_streaming.md R190). -/
def DataSrc.drop (g : Nat) : DataSrc → DataSrc
  | .din => .din
  | .zero => .zero
  | .frame bytes => .frame (bytes.drop g)

/-- The items that send the next byte of a source (42_streaming.md R190). A frame holds a byte for every
position the loop reaches (R264); past its end a zero would go out. -/
def DataSrc.sendNext : DataSrc → List Op
  | .din => [.dinSend]
  | .zero => [.xfer 0 .drop]
  | .frame bytes => [.xfer (bytes.headD 0) .drop]

/-- What a silent item turns into: new locals and the items to run in its place, or `none` where it raises
`Fault(ERR_IMAGE)`. A loop with work left opens with a primitive; a loop that is over turns into nothing.
(`assign` and `finish` are handled by `settle`; primitives stand for themselves.) -/
def Op.expand (c : Config) (loc : Locals) : Op → Option (Locals × List Op)
  -- R190: while sent < n: AwaitReady; g <- min(READY_GRAIN, n - sent); for j in 0 .. g-1: ...
  | .sendGroups src n =>
    if n = 0 then some (loc, [])
    else some (loc, [.awaitReady, .sendBytes src (min c.readyGrain n),
      .sendGroups (src.drop (min c.readyGrain n)) (n - min c.readyGrain n)])
  | .sendBytes src g =>
    if g = 0 then some (loc, []) else some (loc, src.sendNext ++ [.sendBytes (src.drop 1) (g - 1)])
  | .regWrites [] => some (loc, [])
  | .regWrites ((a, v) :: l) => some (loc, regWrite c a v ++ [.regWrites l])
  -- R175
  | .readRegs a n =>
    if n = 0 then some (loc, [])
    else some (loc, regRead c (BitVec.ofNat 8 a) ++ [.doutPush, .readRegs (a + 1) (n - 1)])
  -- R232, line by line
  | .imageLoop len =>
    if len ≤ loc.cur then some (loc, [])
    else if len - loc.cur < 2 then none
    else some (loc, nextWordDin ++ [.imageAddr] ++ nextWordDin
      ++ [.imageHeader len, .imageSelect, .imagePayload, .imageLoop len])
  | .imageAddr => some ({ loc with a := loc.word }, [])
  | .imageHeader len =>
    if len - (loc.cur + 2) < headerNeed loc.word then none
    else some ({ loc with h := loc.word, cur := loc.cur + 2 }, [])
  | .imageSelect =>
    match c.loaderTarget with
    | .fixedPair => some (loc, regWrite c c.regAddrSel loc.a)
    | .direct => some (loc, [])
  | .imagePayload =>
    if headerRepeat loc.h then some (loc, nextWordDin ++ [.imageRepeat])
    else if headerCount loc.h = 0 then some (loc, [])
    else some (loc, nextWordDin ++ [.imageStore, .imageCopy (headerCount loc.h - 1)])
  | .imageCopy n =>
    if n = 0 then some (loc, []) else some (loc, nextWordDin ++ [.imageStore, .imageCopy (n - 1)])
  | .imageStore =>
    some ({ loc with cur := loc.cur + 1 }, regWrite c (recordTarget c loc.a) loc.word)
  | .imageRepeat =>
    if headerCount loc.h = 0 then some ({ loc with cur := loc.cur + 1 }, [])
    else some ({ loc with cur := loc.cur + 1 },
      regWrite c (recordTarget c loc.a) loc.word
        ++ [.regWrites (List.replicate (headerCount loc.h - 1) (recordTarget c loc.a, loc.word))])
  -- 60_exceptions.md R305
  | .discard n => if n = 0 then some (loc, []) else some (loc, [.dinPop .drop, .discard (n - 1)])
  | .raiseImage => none
  | .assign _ => some (loc, [])
  | .finish _ => some (loc, [])
  | op => some (loc, [op])

/-- Run the silent items at the head of a micro-program, up to its next primitive or its end, and leave
`PHASE` there (00_scope.md R15, 10_state.md R31). DEDUCED, log 1. -/
def settle (w : CmdWord) : List Op → Locals → State → State
  | [], _, s => s.finish .ok
  | op :: rest, loc, s =>
    if op.isPrimitive then { s with phase := .exec w (.run loc (op :: rest)) }
    else match op with
      | .finish code => s.finish code
      | .assign a => settle w rest loc (s.assign a)
      | _ =>
        match op.expand s.cfg loc with
        | none => s.raiseFault .errImage
        | some (loc', []) => settle w rest loc' s
        | some (loc', op' :: ops) => { s with phase := .exec w (.run loc' (op' :: ops ++ rest)) }

/-! ## One step of the controller in a command -/

/-- One primitive of a micro-program, and the silent items after it. A hold leaves the state as it is
(60_exceptions.md R311); a busy sample leaves the position as it is (40_line_control.md R147). -/
def microStep (w : CmdWord) (loc : Locals) (ops : List Op) (s : State) : Result :=
  match ops with
  | [] => .next (s.finish .ok)
  | op :: rest =>
    match op with
    | .setLine l v => .next (settle w rest loc (s.setLine l v))
    | .enter l =>
      if s.busMode = .idle then .next (settle w rest loc (s.setLine l true))
      else .fault .enterNotIdle
    | .awaitReady =>
      if s.sampleReady then .next (settle w rest loc s.afterSample) else .next s.afterSample
    | .xfer o d => .next (settle w rest (loc.keep d s.misoByte) (s.afterXfer o))
    | .tpCapture =>
      if s.tpHeld then .fault .txnNested
      else .next (settle w rest loc s.tpCapture)
    | .tpApply => .next (settle w rest loc (s.tpWrite s.drvTp))
    | .tpRestore =>
      match s.tpSave with
      | none => .fault .txnNotHeld
      | some p => .next (settle w rest loc (s.tpRestore p))
    | .dinPop d =>
      match s.din with
      | [] => .next s
      | b :: bs => .next (settle w rest (loc.keep d b) (s.dinPop b bs))
    | .dinSend =>
      match s.din with
      | [] => .next s
      | b :: bs => .next (settle w (.xfer b .drop :: rest) loc (s.dinPop b bs))
    | .doutPush =>
      if s.cfg.doutDepth ≤ s.dout.length then .next s
      else .next (settle w rest loc (s.doutPush loc.word))
    | _ => .next (settle w (op :: rest) loc s)

/-! ## Acceptance and rejection (60_exceptions.md R302 to R305) -/

/-- What a command asks of `SESSION` at its acceptance check (R302). -/
inductive SessionNeed where
  | any
  | idle
  | streaming
deriving DecidableEq, Repr

/-- `SESSION` meets a command's need (R302). -/
def SessionNeed.met (need : SessionNeed) (x : Session) : Bool :=
  match need with
  | .any => true
  | .idle => decide (x = .idle)
  | .streaming => decide (x = .streaming)

/-- The state checks of the acceptance of a command other than BEGIN, in R303's order: `none` where it is
accepted (60_exceptions.md R302). -/
def acceptance (need : SessionNeed) (s : State) : Option ResultCode :=
  if s.init = false then some .errNotInit
  else if need.met s.session then none
  else some .errSession

/-- The micro-program of a rejection: `ERR <- c`, the discard of `n` payload bytes, the end (R304, R305).
`ERR` is written before the discard, as R304 lists it; DEDUCED, log 11. -/
def rejectProgram (c : ResultCode) (n : Nat) : List Op := [.assign (.err c), .discard n, .finish c]

/-- The rejection of a word that spells no command: nothing is discarded (R304, R305). -/
def State.rejectWord (c : ResultCode) (s : State) : State := s.finish c

/-- One step of a command, whatever it is: at `EXEC(w, 0)` the acceptance check, which rejects with code
`guard` and `payload` bytes to discard or starts the micro-program `prog` (R302); after it, one primitive.
In READY and HALTED no command executes and the controller has no step (R309, R311). -/
def runCommand (guard : Option ResultCode) (payload : Nat) (prog : List Op) (s : State) : Result :=
  match s.phase with
  | .ready => .next s
  | .halted => .next s
  | .exec w .start =>
    match guard with
    | some c => .next (settle w (rejectProgram c payload) .blank s)
    | none => .next (settle w prog .blank s)
  | .exec w (.run loc ops) => microStep w loc ops s

/-! ## The moves of the other agents -/

/-- Controller reset: every piece of SPIC state at R58's value, in one step, with R340's events. TP is not
SPIC state and keeps what it holds, mid-transaction too (R342); the environment's fields and the
configuration stay. Log 15. -/
def State.controllerReset (s : State) : State :=
  { State.resetWith s.cfg s.tp with
    trace := s.trace ++ resetEvents s.cfg, sched := s.sched, dreqIn := s.dreqIn,
    misoIn := s.misoIn, draws := s.draws }

/-- A move is enabled: a CMD transfer needs `cmd_ready` (10_state.md R47), a push a DIN buffer that is not
full (R48), a take a DOUT word (R49), a co-user `TP_HELD` = 0 and a value of `Profile` (R53). -/
def Move.enabled (m : Move) (s : State) : Bool :=
  match m with
  | .controller => true
  | .offer _ => s.cmdReady
  | .push _ => decide (s.din.length < s.cfg.dinDepth)
  | .take => !s.dout.isEmpty
  | .coUser p => !s.tpHeld && s.cfg.profile.has p
  | .reset => true

/-- An enabled move of an agent other than the controller. A CMD transfer latches the word and records
`Cmd(w)` (R47, R51); pushes, takes, co-user moves record nothing (R51). -/
def Move.apply (m : Move) (s : State) : State :=
  match m with
  | .controller => s
  | .offer w => State.record (.cmd w) { s with phase := .exec w .start }
  | .push b => { s with din := s.din ++ [b] }
  | .take => { s with dout := s.dout.drop 1 }
  | .coUser p => { s with tp := p }
  | .reset => s.controllerReset

end Sys2Proof.Machine
end

