-- ==== Sys2Proof/Machine/InitMidi.lean ====
section
/-!
DEFINITION. The initialisation and MIDI-mode commands of 45_init_and_midi.md: BEGIN, BEGIN_MIDI and
SEND_MIDI.
-/

namespace Sys2Proof.Machine

open Sys2Proof

/-- R260, line by line. -/
def beginProgram (c : Config) : List Op :=
  [ .setLine .xcs true
  , .setLine .xdcs true
  , .setLine .xreset c.resetActive
  , .setLine .xreset (!c.resetActive)
  , .awaitReady
  , .assign (.drvTp c.tpInit)
  , .regWrites c.initWrites
  , .assign (.drvTp c.tpRun)
  , .assign (.init true)
  , .assign (.session .idle)
  , .assign (.midi false)
  , .finish .ok ]

/-- BEGIN (45_init_and_midi.md R260): accepted whatever `INIT` and `SESSION` are. -/
def execBegin (s : State) : Result := runCommand none 0 (beginProgram s.cfg) s

/-- R263: `ImageLoad(ROM(MIDI_IMAGE)); for (a, v) in MIDI_WRITES: RegWrite(a, v); MIDI <- 1; ERR <- OK`. -/
def beginMidiProgram (c : Config) : List Op :=
  imageLoadRom c c.midiImage ++ [.regWrites c.midiWrites, .assign (.midi true), .finish .ok]

/-- BEGIN_MIDI (45_init_and_midi.md R263). -/
def execBeginMidi (s : State) : Result :=
  runCommand (acceptance .any s) 0 (beginMidiProgram s.cfg) s

/-- R264: `DataSend(FRAME([MIDI_PAD, mcmd, MIDI_PAD, d1, MIDI_PAD, d2]), 6); ERR <- OK`. -/
def sendMidiProgram (c : Config) (mcmd d1 d2 : Byte) : List Op :=
  dataSend (.frame (midiFrame c.midiPad mcmd d1 d2)) 6 ++ [.finish .ok]

/-- SEND_MIDI (45_init_and_midi.md R264): it does not ask for `MIDI` = 1. -/
def execSendMidi (mcmd d1 d2 : Byte) (s : State) : Result :=
  runCommand (acceptance .any s) 0 (sendMidiProgram s.cfg mcmd d1 d2) s

end Sys2Proof.Machine
end

