-- ==== Sys2Proof/Machine/Loader.lean ====
section
/-!
DEFINITION. The firmware loader command of 44_firmware_loader.md: LOAD_IMAGE.
-/

namespace Sys2Proof.Machine

open Sys2Proof

/-- R233: `ImageLoad(DIN, len); ERR <- OK`. -/
def loadImageProgram (len : Len) : List Op := imageLoadDin len.toNat ++ [.finish .ok]

/-- LOAD_IMAGE (44_firmware_loader.md R233); rejected, it discards its `2*len` bytes (60_exceptions.md R305);
on a malformed image it faults (R235). -/
def execLoadImage (len : Len) (s : State) : Result :=
  runCommand (acceptance .any s) (2 * len.toNat) (loadImageProgram len) s

end Sys2Proof.Machine
end

