-- ==== Sys2Proof/Machine/Playback.lean ====
section
/-!
DEFINITION. The playback session commands of 43_playback_session.md: START_SONG, PLAY_CHUNK and STOP_SONG.
-/

namespace Sys2Proof.Machine

open Sys2Proof

/-- R210: `SESSION <- Priming; DataSend(ZERO, PRIME_LEN); SESSION <- Streaming; ERR <- OK`. -/
def startSongProgram (c : Config) : List Op :=
  .assign (.session .priming) :: dataSend .zero c.primeLen
    ++ [.assign (.session .streaming), .finish .ok]

/-- START_SONG (43_playback_session.md R210): accepted in session `Idle` only. -/
def execStartSong (s : State) : Result :=
  runCommand (acceptance .idle s) 0 (startSongProgram s.cfg) s

/-- R212: `DataSend(DIN, len); ERR <- OK`. -/
def playChunkProgram (len : Len) : List Op := dataSend .din len.toNat ++ [.finish .ok]

/-- PLAY_CHUNK (43_playback_session.md R212): accepted in session `Streaming` only; rejected, it discards
its `len` bytes (60_exceptions.md R305). -/
def execPlayChunk (len : Len) (s : State) : Result :=
  runCommand (acceptance .streaming s) len.toNat (playChunkProgram len) s

/-- R214: `SESSION <- Draining; DataSend(ZERO, DRAIN_LEN); SESSION <- Idle; ERR <- OK`. -/
def stopSongProgram (c : Config) : List Op :=
  .assign (.session .draining) :: dataSend .zero c.drainLen
    ++ [.assign (.session .idle), .finish .ok]

/-- STOP_SONG (43_playback_session.md R214): accepted in session `Streaming` only. -/
def execStopSong (s : State) : Result :=
  runCommand (acceptance .streaming s) 0 (stopSongProgram s.cfg) s

end Sys2Proof.Machine
end

