-- ==== Sys2Proof/Machine/RegisterAccess.lean ====
section
/-!
DEFINITION. The register access commands of 41_register_access.md: READ_REG, WRITE_REG, SET_VOLUME and
PRINT_DETAILS.
-/

namespace Sys2Proof.Machine

open Sys2Proof

/-- R171: `v <- RegRead(addr); DoutPush(v); ERR <- OK`. -/
def readRegProgram (c : Config) (addr : Byte) : List Op := regRead c addr ++ [.doutPush, .finish .ok]

/-- READ_REG (41_register_access.md R171). -/
def execReadReg (addr : Byte) (s : State) : Result :=
  runCommand (acceptance .any s) 0 (readRegProgram s.cfg addr) s

/-- R173: `RegWrite(addr, value); ERR <- OK`. -/
def writeRegProgram (c : Config) (addr : Byte) (value : Word) : List Op :=
  regWrite c addr value ++ [.finish .ok]

/-- WRITE_REG (41_register_access.md R173). -/
def execWriteReg (addr : Byte) (value : Word) (s : State) : Result :=
  runCommand (acceptance .any s) 0 (writeRegProgram s.cfg addr value) s

/-- R174: `RegWrite(REG_VOL, {level, level}); ERR <- OK`. -/
def setVolumeProgram (c : Config) (level : Byte) : List Op :=
  regWrite c c.regVol (volumeWord level) ++ [.finish .ok]

/-- SET_VOLUME (41_register_access.md R174). -/
def execSetVolume (level : Byte) (s : State) : Result :=
  runCommand (acceptance .any s) 0 (setVolumeProgram s.cfg level) s

/-- R175: `for a in 0 .. NREGS-1: v <- RegRead(a); DoutPush(v)`, then `ERR <- OK`. -/
def printDetailsProgram (c : Config) : List Op := [.readRegs 0 c.nregs, .finish .ok]

/-- PRINT_DETAILS (41_register_access.md R175). -/
def execPrintDetails (s : State) : Result :=
  runCommand (acceptance .any s) 0 (printDetailsProgram s.cfg) s

end Sys2Proof.Machine
end

