-- ==== Sys2Proof/Machine/Streaming.lean ====
section
/-!
DEFINITION. The streaming data commands of 42_streaming.md: SEND_BUFFER and SEND_ZEROES.
-/

namespace Sys2Proof.Machine

open Sys2Proof

/-- R191: `DataSend(DIN, len); ERR <- OK`. -/
def sendBufferProgram (len : Len) : List Op := dataSend .din len.toNat ++ [.finish .ok]

/-- SEND_BUFFER (42_streaming.md R191); rejected, it discards its `len` bytes (60_exceptions.md R305). -/
def execSendBuffer (len : Len) (s : State) : Result :=
  runCommand (acceptance .any s) len.toNat (sendBufferProgram len) s

/-- R192: `DataSend(ZERO, len); ERR <- OK`. -/
def sendZeroesProgram (len : Len) : List Op := dataSend .zero len.toNat ++ [.finish .ok]

/-- SEND_ZEROES (42_streaming.md R192); it has no payload to discard. -/
def execSendZeroes (len : Len) (s : State) : Result :=
  runCommand (acceptance .any s) 0 (sendZeroesProgram len) s

end Sys2Proof.Machine
end

