-- ==== Sys2Proof/Machine/Dispatch.lean ====
section
/-!
DEFINITION. `exec`: one step of a command, one arm per constructor of `Instr`.
-/

namespace Sys2Proof.Machine

def exec (i : Instr) (s : State) : Host.Outcome State Fault Refusal :=
  match i with
  | .begin => Sys2Proof.Machine.execBegin s
  | .readReg addr => Sys2Proof.Machine.execReadReg addr s
  | .writeReg addr value => Sys2Proof.Machine.execWriteReg addr value s
  | .sendBuffer len => Sys2Proof.Machine.execSendBuffer len s
  | .sendZeroes len => Sys2Proof.Machine.execSendZeroes len s
  | .startSong => Sys2Proof.Machine.execStartSong s
  | .playChunk len => Sys2Proof.Machine.execPlayChunk len s
  | .stopSong => Sys2Proof.Machine.execStopSong s
  | .loadImage len => Sys2Proof.Machine.execLoadImage len s
  | .setVolume level => Sys2Proof.Machine.execSetVolume level s
  | .beginMidi => Sys2Proof.Machine.execBeginMidi s
  | .sendMidi mcmd d1 d2 => Sys2Proof.Machine.execSendMidi mcmd d1 d2 s
  | .printDetails => Sys2Proof.Machine.execPrintDetails s

end Sys2Proof.Machine
end

