-- ==== Sys2Proof/Machine/Step.lean ====
section
/-!
DEFINITION. `step`: the next move of whichever agent the schedule names, and the place the next command is
fetched from.
-/

namespace Sys2Proof.Machine

open Sys2Proof

/-- The controller's next step (10_state.md R31). In READY it waits for a command and in HALTED it has no
step (R309, R311): the state stays as it is. In `EXEC(w, k)` it decodes the latched word (R109) and runs
one step of the command it spells, or rejects the word (60_exceptions.md R302). -/
def controllerStep (s : State) : Result :=
  match s.phase with
  | .ready => .next s
  | .halted => .next s
  | .exec w _ =>
    match decode w with
    | .ok i => exec i s
    | .error c => .next (s.rejectWord c)

/-- One step of the machine (00_scope.md R15, 10_state.md R52): the scheduled move if it is enabled, else
the controller's step, the scheduled move waiting (R47). DESIGN CHOICE, log 2. -/
def step (s : State) : Host.Outcome State Fault Refusal :=
  match s.sched with
  | [] => controllerStep s
  | .controller :: rest => controllerStep { s with sched := rest }
  | m :: rest =>
    if m.enabled s then .next (m.apply { s with sched := rest }) else controllerStep s

/-- `s` with the word latched in `PHASE` as the accepted command whose acceptance check comes next
(10_state.md R32, R47) and with no other agent's move before the controller's: the very next step runs it.
Log 13. -/
def State.withFetchWord (s : State) (nbits w : Nat) : State :=
  { s with phase := .exec (BitVec.ofNat 32 (w % 2 ^ nbits)) .start, sched := [] }

end Sys2Proof.Machine
end

