-- ==== Sys2Proof/Safety.lean ====
section
/-!
DEFINITION. The terms claims are made in: runs of steps, what the peripheral is supposed to answer, the
events a transaction records, and the invariants (10_state.md R42, R43; 40_line_control.md R155).
-/

namespace Sys2Proof.Machine

open Sys2Proof

/-! ## Runs -/

/-- `n` successive steps of command `i` (10_state.md R31: one primitive each). -/
def execN (i : Instr) : Nat → State → Result
  | 0, s => .next s
  | n + 1, s =>
    match exec i s with
    | .next t => execN i n t
    | .fault r => .fault r
    | .refused r => .refused r

/-- `n` successive steps of the machine. -/
def stepN : Nat → State → Result
  | 0, s => .next s
  | n + 1, s =>
    match step s with
    | .next t => stepN n t
    | .fault r => .fault r
    | .refused r => .refused r

/-- A command was just accepted on CMD: its acceptance check comes next, and the bus is idle with no
profile held, as it is at every command boundary (10_state.md R43, R47). -/
def State.atStart (s : State) : Prop :=
  (∃ w, s.phase = .exec w .start) ∧ s.busMode = .idle ∧ s.tpSave = none

/-- `s` after a command that completed, took the queued answers down to `d` and `m`, and recorded `evs`
before its `End(OK)`: nothing else differs (60_exceptions.md R306). -/
def State.completed (s : State) (d : List Level) (m : List Byte) (evs : List Event) : State :=
  { s with phase := .ready, err := .ok, dreqIn := d, misoIn := m, trace := s.trace ++ evs ++ [.done .ok] }

/-! ## The peripheral's answers (10_state.md R54) and the events of transactions -/

/-- The DREQ levels of an `AwaitReady` that finds the peripheral busy `k` times. -/
def samples (ready : Level) (k : Nat) : List Level := List.replicate k (!ready) ++ [ready]

/-- The events of that `AwaitReady` (40_line_control.md R147). -/
def pollEvents (k : Nat) : List Event := List.replicate k (.ready false) ++ [.ready true]

/-- The peripheral's answers to one register transaction: how often it is busy, and its four bytes. -/
structure Reply where
  busy : Nat
  b0 : Byte
  b1 : Byte
  b2 : Byte
  b3 : Byte
deriving DecidableEq, Repr

/-- The DREQ levels of a list of register transactions. -/
def replyLevels (ready : Level) (rs : List Reply) : List Level :=
  rs.flatMap fun r => samples ready r.busy

/-- The bytes the peripheral returns in a list of register transactions. -/
def replyBytes (rs : List Reply) : List Byte := rs.flatMap fun r => [r.b0, r.b1, r.b2, r.b3]

/-- The events of a register transaction that sends `o0` to `o3`, with TP holding `tp` and `DRV_TP`
holding `drv` (41_register_access.md R170, R172). -/
def regTxnEvents (tp drv : Profile) (o0 o1 o2 o3 : Byte) (r : Reply) : List Event :=
  [.tpGet tp, .tpSet drv] ++ pollEvents r.busy
    ++ [.line .xdcs true, .line .xcs false, .xfer o0 r.b0, .xfer o1 r.b1, .xfer o2 r.b2, .xfer o3 r.b3,
      .line .xcs true, .tpSet tp]

/-- The events of `RegRead(a)` (R170). -/
def readEvents (c : Config) (tp drv : Profile) (a : Byte) (r : Reply) : List Event :=
  regTxnEvents tp drv c.sciOpRead a c.dummyByte c.dummyByte r

/-- The events of `RegWrite(a, v)` (R172). -/
def writeEvents (c : Config) (tp drv : Profile) (a : Byte) (v : Word) (r : Reply) : List Event :=
  regTxnEvents tp drv c.sciOpWrite a (byteHi v) (byteLo v) r

/-- The events of a list of register writes, each its own transaction (20_memory.md R80). -/
def writesEvents (c : Config) (tp drv : Profile) : List (Byte × Word) → List Reply → List Event
  | (a, v) :: l, r :: rs => writeEvents c tp drv a v r ++ writesEvents c tp drv l rs
  | _, _ => []

/-- The events of PRINT_DETAILS's reads of the registers from `a` on (41_register_access.md R175). -/
def dumpEvents (c : Config) (tp drv : Profile) : Nat → List Reply → List Event
  | _, [] => []
  | a, r :: rs =>
    readEvents c tp drv (BitVec.ofNat 8 a) r ++ [.dout (joinBytes r.b2 r.b3)]
      ++ dumpEvents c tp drv (a + 1) rs

/-- The events of the loader's actions: two `Din` for a word taken from DIN, a transaction for a write
(44_firmware_loader.md R232). -/
def loadEvents (c : Config) (tp drv : Profile) : List LoadAct → List Reply → List Event
  | .word w :: l, rs => .din (byteHi w) :: .din (byteLo w) :: loadEvents c tp drv l rs
  | .write a v :: l, r :: rs => writeEvents c tp drv a v r ++ loadEvents c tp drv l rs
  | _, _ => []

/-- The events of a group's bytes, each a byte sent and the byte received (42_streaming.md R190). -/
def byteEvents (fromDin : Bool) (bs : List (Byte × Byte)) : List Event :=
  bs.flatMap fun b => if fromDin then [.din b.1, .xfer b.1 b.2] else [.xfer b.1 b.2]

/-- The events of the groups of a data transaction: group `k` is preceded by one `AwaitReady`, busy as
often as the `k`-th number says (42_streaming.md R190). -/
def groupEvents (fromDin : Bool) (grain : Nat) : List Nat → List (Byte × Byte) → List Event
  | [], _ => []
  | k :: ks, bs =>
    pollEvents k ++ byteEvents fromDin (bs.take grain) ++ groupEvents fromDin grain ks (bs.drop grain)

/-- The events of a data transaction (R190). -/
def dataEvents (fromDin : Bool) (grain : Nat) (tp drv : Profile) (ks : List Nat)
    (bs : List (Byte × Byte)) : List Event :=
  [.tpGet tp, .tpSet drv, .line .xcs true, .line .xdcs false] ++ groupEvents fromDin grain ks bs
    ++ [.line .xdcs true, .tpSet tp]

/-- How many groups, so how many `AwaitReady` calls, a data transaction of `n` bytes has:
`ceil(n / READY_GRAIN)` (R190). -/
def groupCount (grain n : Nat) : Nat := (n + grain - 1) / grain

/-- What the peripheral answers to a data transaction: it is busy `ks` times before the groups in turn,
and it returns the second bytes of `bs`; `d` and `m` are left over. -/
def State.answersData (s : State) (ks : List Nat) (bs : List (Byte × Byte)) (d : List Level)
    (m : List Byte) : Prop :=
  1 ≤ s.cfg.readyGrain ∧ ks.length = groupCount s.cfg.readyGrain bs.length
    ∧ s.dreqIn = (ks.flatMap fun k => samples s.cfg.readyLevel k) ++ d
    ∧ s.misoIn = bs.map (fun b => b.2) ++ m

/-- What the peripheral answers to register transactions: `rs` in turn; `d` and `m` are left over. -/
def State.answersRegs (s : State) (rs : List Reply) (d : List Level) (m : List Byte) : Prop :=
  s.dreqIn = replyLevels s.cfg.readyLevel rs ++ d ∧ s.misoIn = replyBytes rs ++ m

/-- The event of a primitive action, which 70_reset_and_hazards.md R359 counts: every event but `Cmd` and `End`,
the host-side events that bracket a command (10_state.md R51). -/
def Event.ofPrimitive : Event → Bool
  | .line _ _ => true
  | .ready _ => true
  | .xfer _ _ => true
  | .tpGet _ => true
  | .tpSet _ => true
  | .din _ => true
  | .dout _ => true
  | .cmd _ => false
  | .done _ => false

/-- The run of command `i` from `s` completes, and records `n` primitive events (60_exceptions.md R306,
70_reset_and_hazards.md R359). -/
def completesWith (i : Instr) (s : State) (n : Nat) : Prop :=
  ∃ (u t : State) (k : Nat) (evs : List Event), exec i s = .next u ∧ execN i k u = .next t
    ∧ t.phase = .ready ∧ t.err = .ok ∧ t.trace = s.trace ++ evs
    ∧ (evs.filter Event.ofPrimitive).length = n

/-- Events with every profile that a transaction finds (`TPGet`) or puts back written over, and every profile it
applies left as it is: that is the `TPSet` right after a `TPGet` (40_line_control.md R152, R153). `afterGet` says
that a `TPGet` was the last event before these. -/
def hideFound (afterGet : Bool) : List Event → List Event
  | [] => []
  | .tpGet _ :: rest => .tpGet ⟨0⟩ :: hideFound true rest
  | .tpSet p :: rest => .tpSet (if afterGet then p else ⟨0⟩) :: hideFound false rest
  | e :: rest => e :: hideFound false rest

/-- The last sample of the ready line in a trace. -/
def lastReady : List Event → Option Bool
  | [] => none
  | .ready r :: rest => (lastReady rest).or (some r)
  | _ :: rest => lastReady rest

/-! ## Acceptance and rejection, as 60_exceptions.md R302, R303 and R305 word them -/

/-- `SESSION` allows the command (R302, 43_playback_session.md R215). -/
def sessionAllows (x : Session) : Instr → Bool
  | .begin => true
  | .readReg _ => true
  | .writeReg _ _ => true
  | .sendBuffer _ => true
  | .sendZeroes _ => true
  | .startSong => decide (x = .idle)
  | .playChunk _ => decide (x = .streaming)
  | .stopSong => decide (x = .streaming)
  | .loadImage _ => true
  | .setVolume _ => true
  | .beginMidi => true
  | .sendMidi _ _ _ => true
  | .printDetails => true

/-- The code a decoded command is rejected with at its acceptance check, or `none` where it runs (R302). -/
def rejection (i : Instr) (s : State) : Option ResultCode :=
  if i ≠ .begin ∧ s.init = false then some .errNotInit
  else if sessionAllows s.session i then none
  else some .errSession

/-- The DIN payload of a command in bytes, which its rejection discards (R305). -/
def discardBytes : Instr → Nat
  | .begin => 0
  | .readReg _ => 0
  | .writeReg _ _ => 0
  | .sendBuffer len => len.toNat
  | .sendZeroes _ => 0
  | .startSong => 0
  | .playChunk len => len.toNat
  | .stopSong => 0
  | .loadImage len => 2 * len.toNat
  | .setVolume _ => 0
  | .beginMidi => 0
  | .sendMidi _ _ _ => 0
  | .printDetails => 0

/-- `s` after a command that was rejected with code `c` and discarded `payload`, which left `rest` in DIN
(R304, R305): nothing else differs. -/
def State.rejected (s : State) (c : ResultCode) (payload rest : List Byte) : State :=
  { s with phase := .ready, err := c, din := rest, trace := s.trace ++ payload.map .din ++ [.done c] }

/-- An opcode is reserved: 0x00 and 0x0E to 0xFF (30_encoding.md R106). -/
def reservedOpcode (op : Byte) : Bool := decide (op.toNat = 0 ∨ 0x0E ≤ op.toNat)

/-- Every rejection cause that applies to the word `w` in state `s`, in the order of R302 and R303, each read
off the word's opcode byte (30_encoding.md R105) and the registers. -/
def rejectionCauses (w : CmdWord) (s : State) : List ResultCode :=
  let op := fieldOpcode w
  (if reservedOpcode op then [.errOpcode] else [])
    ++ (if !reservedOpcode op && !wordWf w then [.errReserved] else [])
    ++ (if op ≠ 0x01 ∧ s.init = false then [.errNotInit] else [])
    ++ (if (op = 0x06 ∧ s.session ≠ .idle) ∨ ((op = 0x07 ∨ op = 0x08) ∧ s.session ≠ .streaming) then
        [.errSession] else [])

/-- How many DIN bytes the rejection of the word `w` with code `c` discards (R305). -/
def discardOf (w : CmdWord) (c : ResultCode) : Nat :=
  if c = .errNotInit ∨ c = .errSession then
    if fieldOpcode w = 0x04 ∨ fieldOpcode w = 0x07 then (fieldLen w).toNat
    else if fieldOpcode w = 0x09 then 2 * (fieldLen w).toNat
    else 0
  else 0

/-! ## The bus discipline (40_line_control.md R155) as a check on micro-programs -/

/-- What the check tracks: the select lines, `TP_HELD`, and whether a ready sample is known to be the last
one. -/
structure Bus where
  xcs : Level
  xdcs : Level
  held : Bool
  ready : Bool
deriving DecidableEq, Repr

/-- `BUSMODE` is `Idle`. -/
def Bus.idle (b : Bus) : Bool := b.xcs && b.xdcs

/-- Outside every transaction: idle, and no profile held. -/
def Bus.free (b : Bus) : Bool := b.idle && !b.held

/-- `BUSMODE` is `Data`, inside a transaction. -/
def Bus.inData (b : Bus) : Bool := b.xcs && !b.xdcs && b.held

/-- `BUSMODE` is `Control`, inside a transaction. -/
def Bus.inControl (b : Bus) : Bool := !b.xcs && b.xdcs && b.held

/-- One item of a micro-program against the discipline: the bus after it, or `none` where it breaks a rule.
(a) `Enter*` from `Idle` only; (b) an `Enter*` is followed by its own `Exit*`; (c), (d) selects inside one
`TxnBegin`/`TxnEnd` pair, which does not nest; (e) everything else outside transactions; and no byte
without a ready sample (R155, R193, R143, R146, R232). -/
def Op.check (b : Bus) : Op → Option Bus
  | .setLine .xcs v =>
    if b.xdcs && (v || (b.xcs && b.held)) then some { b with xcs := v } else none
  | .setLine .xdcs v =>
    if b.xcs && (v || (b.xdcs && b.held)) then some { b with xdcs := v } else none
  | .setLine .xreset _ => if b.free then some b else none
  | .enter _ => if b.idle && b.held then some b else none
  | .awaitReady => some { b with ready := true }
  | .xfer _ _ => if (b.inData || b.inControl) && b.ready then some b else none
  | .tpCapture => if b.free then some { b with held := true, ready := false } else none
  | .tpApply => if b.idle && b.held then some b else none
  | .tpRestore => if b.idle && b.held then some { b with held := false, ready := false } else none
  | .dinSend => if b.inData && b.ready then some b else none
  | .sendBytes _ _ => if b.inData && b.ready then some b else none
  | .sendGroups _ _ => if b.inData then some { b with ready := false } else none
  | _ => if b.free then some { b with ready := false } else none

/-- A micro-program keeps the discipline from bus `b` on, and ends outside transactions. -/
def bracketed : Bus → List Op → Bool
  | b, [] => b.free
  | b, op :: rest =>
    match op.check b with
    | none => false
    | some b' => bracketed b' rest

/-- The micro-program rests on a primitive (00_scope.md R15). -/
def restsOnPrimitive : List Op → Bool
  | [] => false
  | op :: _ => op.isPrimitive

/-- `BUSMODE` = `Idle` and `TP_HELD` = 0: what R43 asks of every command boundary. -/
def State.busFree (s : State) : Prop := s.busMode = .idle ∧ s.tpHeld = false

/-- The discipline of the machine (10_state.md R37, R42, R43; 40_line_control.md R155): at every command
boundary the bus is free; `FAULT` = 1 exactly in HALTED, with `ERR_IMAGE`; and inside a command the rest
of the micro-program keeps the discipline from the lines and the profile as they are. -/
def Disciplined (s : State) : Prop :=
  match s.phase with
  | .ready => s.busFree ∧ s.fault = false
  | .halted => s.busFree ∧ s.fault = true ∧ s.err = .errImage
  | .exec _ .start => s.busFree ∧ s.fault = false
  | .exec w (.run _ ops) =>
    s.fault = false ∧ (∃ i, decode w = .ok i) ∧ restsOnPrimitive ops = true
      ∧ ∃ r : Bool, (r = true → lastReady s.trace = some true)
        ∧ bracketed { xcs := s.xcs, xdcs := s.xdcs, held := s.tpHeld, ready := r } ops = true

/-! ## Which command may do what -/

/-- The commands that stream bytes from DIN (10_state.md R48). -/
def streamsDin : Instr → Bool
  | .begin => false
  | .readReg _ => false
  | .writeReg _ _ => false
  | .sendBuffer _ => true
  | .sendZeroes _ => false
  | .startSong => false
  | .playChunk _ => true
  | .stopSong => false
  | .loadImage _ => false
  | .setVolume _ => false
  | .beginMidi => false
  | .sendMidi _ _ _ => false
  | .printDetails => false

/-- LOAD_IMAGE, the command that takes image words from DIN (10_state.md R48). -/
def loadsDin : Instr → Bool
  | .begin => false
  | .readReg _ => false
  | .writeReg _ _ => false
  | .sendBuffer _ => false
  | .sendZeroes _ => false
  | .startSong => false
  | .playChunk _ => false
  | .stopSong => false
  | .loadImage _ => true
  | .setVolume _ => false
  | .beginMidi => false
  | .sendMidi _ _ _ => false
  | .printDetails => false

/-- The commands that push on DOUT (10_state.md R49). -/
def pushesDout : Instr → Bool
  | .begin => false
  | .readReg _ => true
  | .writeReg _ _ => false
  | .sendBuffer _ => false
  | .sendZeroes _ => false
  | .startSong => false
  | .playChunk _ => false
  | .stopSong => false
  | .loadImage _ => false
  | .setVolume _ => false
  | .beginMidi => false
  | .sendMidi _ _ _ => false
  | .printDetails => true

/-- The values of `SESSION` a command may write (10_state.md R34, 43_playback_session.md R211, R215). -/
def writesSession (x : Session) : Instr → Bool
  | .begin => decide (x = .idle)
  | .readReg _ => false
  | .writeReg _ _ => false
  | .sendBuffer _ => false
  | .sendZeroes _ => false
  | .startSong => decide (x = .priming) || decide (x = .streaming)
  | .playChunk _ => false
  | .stopSong => decide (x = .draining) || decide (x = .idle)
  | .loadImage _ => false
  | .setVolume _ => false
  | .beginMidi => false
  | .sendMidi _ _ _ => false
  | .printDetails => false

/-- The values of `MIDI` a command may write (10_state.md R35). -/
def writesMidi (v : Bool) : Instr → Bool
  | .begin => !v
  | .readReg _ => false
  | .writeReg _ _ => false
  | .sendBuffer _ => false
  | .sendZeroes _ => false
  | .startSong => false
  | .playChunk _ => false
  | .stopSong => false
  | .loadImage _ => false
  | .setVolume _ => false
  | .beginMidi => v
  | .sendMidi _ _ _ => false
  | .printDetails => false

/-- Which commands an item of a micro-program may belong to: the `Written by` lines of 10_state.md R33 to R38, the
readers of DIN (R48), the writers of DOUT (R49), the user of XRESET (40_line_control.md R141), the raisers of
`ERR_IMAGE` (60_exceptions.md R300). -/
def Op.mayServe (i : Instr) : Op → Bool
  | .setLine .xreset _ => decide (i = .begin)
  | .setLine .xcs _ => true
  | .setLine .xdcs _ => true
  | .enter .xcs => true
  | .enter .xdcs => true
  | .enter .xreset => false
  | .awaitReady => true
  | .xfer _ _ => true
  | .tpCapture => true
  | .tpApply => true
  | .tpRestore => true
  | .dinPop _ => streamsDin i || loadsDin i
  | .dinSend => streamsDin i
  | .doutPush => pushesDout i
  | .assign (.init v) => decide (i = .begin) && v
  | .assign (.session v) => writesSession v i
  | .assign (.midi v) => writesMidi v i
  | .assign (.err _) => true
  | .assign (.drvTp _) => decide (i = .begin)
  | .sendGroups .din _ => streamsDin i
  | .sendGroups .zero _ => true
  | .sendGroups (.frame _) _ => true
  | .sendBytes .din _ => streamsDin i
  | .sendBytes .zero _ => true
  | .sendBytes (.frame _) _ => true
  | .regWrites _ => true
  | .readRegs _ _ => pushesDout i
  | .imageLoop _ => loadsDin i
  | .imageAddr => loadsDin i
  | .imageHeader _ => loadsDin i
  | .imageSelect => loadsDin i
  | .imagePayload => loadsDin i
  | .imageCopy _ => loadsDin i
  | .imageStore => loadsDin i
  | .imageRepeat => loadsDin i
  | .discard n => streamsDin i || loadsDin i || decide (n = 0)
  | .raiseImage => decide (i = .beginMidi)
  | .finish _ => true

/-- The running micro-program holds only items its command may use. -/
def ServesCommand (s : State) : Prop :=
  match s.phase with
  | .exec w (.run _ ops) => ∀ i, decode w = .ok i → ∀ op ∈ ops, op.mayServe i = true
  | _ => True

/-- `Idle` and `Streaming`, the session states a command can find at its acceptance check
(43_playback_session.md R211). -/
def settledSession (x : Session) : Bool := decide (x = .idle) || decide (x = .streaming)

/-- With `SESSION` at `x`, a micro-program leaves it settled wherever the command may end: at its last item, at
a `finish`, and at an item that may raise the fault. -/
def endsSettled : Session → List Op → Bool
  | x, [] => settledSession x
  | _, .assign (.session y) :: rest => endsSettled y rest
  | x, .finish _ :: rest => settledSession x && endsSettled x rest
  | x, .imageLoop _ :: rest => settledSession x && endsSettled x rest
  | x, .imageHeader _ :: rest => settledSession x && endsSettled x rest
  | x, .raiseImage :: rest => settledSession x && endsSettled x rest
  | x, _ :: rest => endsSettled x rest

/-- `Priming` and `Draining` are seen only inside the command that set them (R211): at every command boundary
and acceptance check `SESSION` is settled. -/
def SessionSettled (s : State) : Prop :=
  match s.phase with
  | .ready => settledSession s.session = true
  | .halted => settledSession s.session = true
  | .exec _ .start => settledSession s.session = true
  | .exec w (.run _ ops) => (∃ i, decode w = .ok i) ∧ endsSettled s.session ops = true

/-- The host channels' buffers hold no more than their capacity (10_state.md R48, R49). -/
def BuffersFit (s : State) : Prop :=
  s.din.length ≤ s.cfg.dinDepth ∧ s.dout.length ≤ s.cfg.doutDepth

/-- Every profile of the machine is a value of the parameter `Profile` (00_scope.md R10, 10_state.md R38, R39, R51,
R53): the configuration's two, the shared one, the driver's, the one held, those in the trace, and those that the
running micro-program has yet to assign. -/
def ProfilesFit (s : State) : Prop :=
  s.cfg.profile.has s.cfg.tpInit = true ∧ s.cfg.profile.has s.cfg.tpRun = true
  ∧ s.cfg.profile.has s.tp = true ∧ s.cfg.profile.has s.drvTp = true
  ∧ (∀ p, s.tpSave = some p → s.cfg.profile.has p = true)
  ∧ (∀ p, .tpGet p ∈ s.trace ∨ .tpSet p ∈ s.trace → s.cfg.profile.has p = true)
  ∧ ∀ w loc ops p, s.phase = .exec w (.run loc ops) → .assign (.drvTp p) ∈ ops → s.cfg.profile.has p = true

end Sys2Proof.Machine
end

