-- ==== Sys2Proof/Certificates/Slice0/Obligations.lean ====
section
/-!
DEFINITION. The statements for the provers, each over every state and operand it names.
-/

open Sys2Proof Sys2Proof.Machine

/-! ## Encoding -/

/-- Decoding the word of a command gives the command back, for every operand value (30_encoding.md R102, R103,
R105, R109). -/
def Obligations.DecodeOfEncode : Prop := ∀ i : Instr, decode (encode i) = .ok i

/-- 30_encoding.md R105: a word spells the command of a row iff its masked bits are the row's pattern, and a
word no row spells is no command. -/
def Obligations.WordSpellsItsRow : Prop :=
  (∀ r ∈ opcodeMap, ∀ w : CmdWord,
    r.spells w = true ↔ ∃ i, decode w = .ok i ∧ i.mnemonic = r.mnemonic)
  ∧ ∀ w : CmdWord, (∀ r ∈ opcodeMap, r.spells w = false) → ∃ c, decode w = .error c

/-- 30_encoding.md R106: a word with a reserved opcode, the all-zero word among them, spells no command and is
rejected with `ERR_OPCODE`, with no other effect and no bus activity. -/
def Obligations.ReservedOpcodeRejected : Prop :=
  reservedOpcode 0 = true ∧
  ∀ (s : State) (w : CmdWord), s.sched = [] → s.phase = .exec w .start →
    reservedOpcode (fieldOpcode w) = true →
    (∀ r ∈ opcodeMap, r.spells w = false)
    ∧ step s = .next { s with phase := .ready, err := .errOpcode, trace := s.trace ++ [.done .errOpcode] }

/-- 30_encoding.md R107: a word with the opcode of a command that no row spells is rejected with
`ERR_RESERVED`, with no other effect; and a word that decodes is exactly the encoding of its command, so every
bit of it is an operand or zero. -/
def Obligations.ReservedBitsRejected : Prop :=
  (∀ (s : State) (w : CmdWord), s.sched = [] → s.phase = .exec w .start →
    reservedOpcode (fieldOpcode w) = false → (∀ r ∈ opcodeMap, r.spells w = false) →
    step s = .next { s with phase := .ready, err := .errReserved, trace := s.trace ++ [.done .errReserved] })
  ∧ ∀ (w : CmdWord) (i : Instr), decode w = .ok i → encode i = w

/-- A few words of the encoding tables, written out (30_encoding.md R105). -/
def Obligations.LiteralWordsDecode : Prop :=
  decode 0x01000000 = .ok .begin
  ∧ decode 0x020B0000 = .ok (.readReg 0x0B)
  ∧ decode 0x030B2020 = .ok (.writeReg 0x0B 0x2020)
  ∧ decode 0x05000028 = .ok (.sendZeroes 40)
  ∧ decode 0x08000000 = .ok .stopSong
  ∧ decode 0x0A000020 = .ok (.setVolume 0x20)
  ∧ decode 0x0C903C7F = .ok (.sendMidi 0x90 0x3C 0x7F)
  ∧ decode 0x00000000 = .error .errOpcode
  ∧ decode 0x0E000000 = .error .errOpcode
  ∧ decode 0x06000001 = .error .errReserved

/-! ## The step and the agents -/

/-- When the latched word decodes to `i`, a step of the machine is `exec i`: with no move scheduled, with the
controller's own turn scheduled (which is taken off the schedule), and with a move scheduled that is not
enabled (which waits). The schedule is the model's own, log 2. -/
def Obligations.StepRunsDecodedInstruction : Prop :=
  ∀ (s : State) (w : CmdWord) (k : Pos) (i : Instr), s.phase = .exec w k → decode w = .ok i →
    (s.sched = [] → step s = exec i s)
    ∧ (∀ rest, s.sched = .controller :: rest → step s = exec i { s with sched := rest })
    ∧ (∀ m rest, s.sched = m :: rest → m.enabled s = false → step s = exec i s)

/-- With no move scheduled, steps of the machine are steps of the command it executes, for any number of
them (10_state.md R31, R32); after its end both answer the same state again, which is the model's choice,
log 10. -/
def Obligations.StepsAreStepsOfTheCommand : Prop :=
  ∀ (s : State) (w : CmdWord) (k : Pos) (i : Instr) (n : Nat), s.sched = [] → s.phase = .exec w k →
    decode w = .ok i → stepN n s = execN i n s

/-- 10_state.md R47: `cmd_ready` is `PHASE` = READY; an offer made while it is 1 is latched into `PHASE` and
recorded, with no other effect; an offer made while it is 0 waits, unlost, and the controller goes on. That a
waiting offer leaves the turn to the controller is the model's choice, log 2. -/
def Obligations.CommandTransfer : Prop :=
  ∀ (s : State) (w : CmdWord) (rest : List Move), s.sched = .offer w :: rest →
    (s.cmdReady = true ↔ s.phase = .ready)
    ∧ (s.phase = .ready →
        step s = .next { s with phase := .exec w .start, trace := s.trace ++ [.cmd w], sched := rest })
    ∧ (s.phase ≠ .ready → step s = controllerStep s ∧ ∀ t, step s = .next t → t.sched = .offer w :: rest)

/-- 10_state.md R48, R49: a push appends to a DIN buffer with room and waits at a full one; a take removes
the oldest DOUT word and waits at an empty buffer; nothing else changes. That no event is recorded is the
model's reading of R51, log 24. Waiting is the model's choice, log 2. -/
def Obligations.HostChannelMoves : Prop :=
  (∀ (s : State) (b : Byte) (rest : List Move), s.sched = .push b :: rest →
    (s.din.length < s.cfg.dinDepth → step s = .next { s with din := s.din ++ [b], sched := rest })
    ∧ (s.cfg.dinDepth ≤ s.din.length → step s = controllerStep s))
  ∧ ∀ (s : State) (rest : List Move), s.sched = .take :: rest →
    (∀ v vs, s.dout = v :: vs → step s = .next { s with dout := vs, sched := rest })
    ∧ (s.dout = [] → step s = controllerStep s)

/-- 10_state.md R53: a bus co-user's only move replaces the shared timing profile by any value of `Profile`, and
only while `TP_HELD` = 0. Which values `Profile` has is the configuration's, log 7; that the move records no
event is the model's reading of R51, log 24; that it waits otherwise is the model's choice, log 2. -/
def Obligations.CoUserMove : Prop :=
  ∀ (s : State) (p : Profile) (rest : List Move), s.sched = .coUser p :: rest →
    (s.tpHeld = false → s.cfg.profile.has p = true → step s = .next { s with tp := p, sched := rest })
    ∧ (s.tpHeld = true → step s = controllerStep s)
    ∧ (s.cfg.profile.has p = false → step s = controllerStep s)

/-- 70_reset_and_hazards.md R340: from any state, in one step, controller reset sets every piece of SPIC state
and records three line events; the shared profile, the configuration and the surroundings stay. That the trace,
the waiting answers and the draw counter outlive it, and that no profile stays held, are the model's choices,
logs 8 and 15. -/
def Obligations.ResetMove : Prop :=
  ∀ (s : State) (rest : List Move), s.sched = .reset :: rest →
    step s = .next
      { cfg := s.cfg, phase := .ready, init := false, session := .idle, midi := false, err := .ok,
        fault := false, drvTp := s.cfg.tpInit, tpSave := none, xcs := true, xdcs := true,
        xreset := s.cfg.resetActive, din := [], dout := [], tp := s.tp,
        trace := s.trace ++ [.line .xcs true, .line .xdcs true, .line .xreset s.cfg.resetActive],
        sched := rest, dreqIn := s.dreqIn, misoIn := s.misoIn, draws := s.draws }

/-- 10_state.md R58: the value of every piece of state after reset, under every configuration; TP is what it
was. -/
def Obligations.ResetValues : Prop :=
  (∀ (c : Config) (p : Profile),
    (State.resetWith c p).phase = .ready ∧ (State.resetWith c p).init = false
    ∧ (State.resetWith c p).session = .idle ∧ (State.resetWith c p).midi = false
    ∧ (State.resetWith c p).err = .ok ∧ (State.resetWith c p).fault = false
    ∧ (State.resetWith c p).drvTp = c.tpInit ∧ (State.resetWith c p).tpHeld = false
    ∧ (State.resetWith c p).xcs = true ∧ (State.resetWith c p).xdcs = true
    ∧ (State.resetWith c p).xreset = c.resetActive
    ∧ (State.resetWith c p).din = [] ∧ (State.resetWith c p).dout = []
    ∧ (State.resetWith c p).tp = p)
  ∧ ∀ (s : State) (rest : List Move), s.sched = .reset :: rest →
    ∃ t, step s = .next t ∧ t.tp = s.tp

/-- 60_exceptions.md R309: in HALTED no command does anything, `cmd_ready` = 0, and a step that is not a
reset leaves HALTED, `FAULT`, `ERR` and the trace as they are, DIN only gaining a pushed byte and DOUT only
losing its oldest word; a disciplined HALTED state shows `BUSY`, `FAULT` and `ERR_IMAGE`. R309 says that the
controller has no step there; that `exec` and `step` answer a next state, the same one, is the model's choice,
log 10. That the host's and a co-user's moves record no event is its reading of R51, log 24. -/
def Obligations.HaltedIsQuiescent : Prop :=
  ∀ s : State, s.phase = .halted →
    s.cmdReady = false ∧ (∀ i, exec i s = .next s)
    ∧ (s.sched.head? ≠ some .reset → ∃ t, step s = .next t ∧ t.phase = .halted ∧ t.fault = s.fault
        ∧ t.err = s.err ∧ t.trace = s.trace
        ∧ (t.din = s.din ∨ ∃ b, t.din = s.din ++ [b]) ∧ (t.dout = s.dout ∨ ∃ v, s.dout = v :: t.dout))
    ∧ (Disciplined s → s.status.getLsbD 0 = true ∧ s.status.getLsbD 7 = true
        ∧ s.status.extractLsb' 8 4 = 5)

/-- 10_state.md R44: the fields of STATUS, `SESSION` with R34's encodings and `ERR` with the codes of
60_exceptions.md R300, and `BUSMODE` is never 3 in a disciplined state. -/
def Obligations.StatusLayout : Prop :=
  ∀ s : State,
    (s.status.getLsbD 0 = true ↔ s.phase = .halted ∨ ∃ w k, s.phase = .exec w k)
    ∧ (s.xcs = true → s.xdcs = true → s.status.extractLsb' 1 2 = 0)
    ∧ (s.xcs = false → s.xdcs = true → s.status.extractLsb' 1 2 = 1)
    ∧ (s.xcs = true → s.xdcs = false → s.status.extractLsb' 1 2 = 2)
    ∧ (Disciplined s → s.status.extractLsb' 1 2 ≠ 3)
    ∧ (s.session = .idle → s.status.extractLsb' 3 2 = 0)
    ∧ (s.session = .priming → s.status.extractLsb' 3 2 = 1)
    ∧ (s.session = .streaming → s.status.extractLsb' 3 2 = 2)
    ∧ (s.session = .draining → s.status.extractLsb' 3 2 = 3)
    ∧ s.status.getLsbD 5 = s.init ∧ s.status.getLsbD 6 = s.midi ∧ s.status.getLsbD 7 = s.fault
    ∧ (s.err = .ok → s.status.extractLsb' 8 4 = 0)
    ∧ (s.err = .errOpcode → s.status.extractLsb' 8 4 = 1)
    ∧ (s.err = .errReserved → s.status.extractLsb' 8 4 = 2)
    ∧ (s.err = .errNotInit → s.status.extractLsb' 8 4 = 3)
    ∧ (s.err = .errSession → s.status.extractLsb' 8 4 = 4)
    ∧ (s.err = .errImage → s.status.extractLsb' 8 4 = 5)
    ∧ s.status.extractLsb' 12 4 = 0

/-! ## What each command does: it is accepted, and its run ends in exactly this state -/

/-- BEGIN, accepted whatever `INIT` and `SESSION` are (45_init_and_midi.md R260, R262). -/
def Obligations.BeginCompletes : Prop :=
  ∀ (s : State) (k : Nat) (rs : List Reply) (d : List Level) (m : List Byte),
    s.atStart → rs.length = s.cfg.initWrites.length →
    s.dreqIn = samples s.cfg.readyLevel k ++ replyLevels s.cfg.readyLevel rs ++ d →
    s.misoIn = replyBytes rs ++ m →
    ∃ u, exec .begin s = .next u ∧ ∃ n, execN .begin n u = .next
      { s.completed d m
          ([.line .xcs true, .line .xdcs true, .line .xreset s.cfg.resetActive,
            .line .xreset (!s.cfg.resetActive)] ++ pollEvents k
            ++ writesEvents s.cfg s.tp s.cfg.tpInit s.cfg.initWrites rs) with
        init := true, session := .idle, midi := false, drvTp := s.cfg.tpRun,
        xcs := true, xdcs := true, xreset := !s.cfg.resetActive }

/-- READ_REG: one read transaction, whose value `{b2, b3}` goes to DOUT (41_register_access.md R170, R171). -/
def Obligations.ReadRegCompletes : Prop :=
  ∀ (s : State) (addr : Byte) (r : Reply) (d : List Level) (m : List Byte),
    s.atStart → s.init = true → s.answersRegs [r] d m → s.dout.length < s.cfg.doutDepth →
    ∃ u, exec (.readReg addr) s = .next u ∧ ∃ n, execN (.readReg addr) n u = .next
      { s.completed d m
          ([.tpGet s.tp, .tpSet s.drvTp] ++ pollEvents r.busy
            ++ [.line .xdcs true, .line .xcs false, .xfer s.cfg.sciOpRead r.b0, .xfer addr r.b1,
                .xfer s.cfg.dummyByte r.b2, .xfer s.cfg.dummyByte r.b3, .line .xcs true, .tpSet s.tp,
                .dout (joinBytes r.b2 r.b3)]) with
        dout := s.dout ++ [joinBytes r.b2 r.b3] }

/-- WRITE_REG: one write transaction, and no SPIC register but `ERR` differs (41_register_access.md R172,
R173). -/
def Obligations.WriteRegCompletes : Prop :=
  ∀ (s : State) (addr : Byte) (value : Word) (r : Reply) (d : List Level) (m : List Byte),
    s.atStart → s.init = true → s.answersRegs [r] d m →
    ∃ u, exec (.writeReg addr value) s = .next u ∧ ∃ n, execN (.writeReg addr value) n u = .next
      (s.completed d m
        ([.tpGet s.tp, .tpSet s.drvTp] ++ pollEvents r.busy
          ++ [.line .xdcs true, .line .xcs false, .xfer s.cfg.sciOpWrite r.b0, .xfer addr r.b1,
              .xfer (value.extractLsb' 8 8) r.b2, .xfer (value.extractLsb' 0 8) r.b3, .line .xcs true,
              .tpSet s.tp]))

/-- SET_VOLUME: one write of `{level, level}` to `REG_VOL` (41_register_access.md R174, 30_encoding.md
R121). -/
def Obligations.SetVolumeCompletes : Prop :=
  ∀ (s : State) (level : Byte) (r : Reply) (d : List Level) (m : List Byte),
    s.atStart → s.init = true → s.answersRegs [r] d m →
    ∃ u, exec (.setVolume level) s = .next u ∧ ∃ n, execN (.setVolume level) n u = .next
      (s.completed d m
        ([.tpGet s.tp, .tpSet s.drvTp] ++ pollEvents r.busy
          ++ [.line .xdcs true, .line .xcs false, .xfer s.cfg.sciOpWrite r.b0, .xfer s.cfg.regVol r.b1,
              .xfer level r.b2, .xfer level r.b3, .line .xcs true, .tpSet s.tp]))

/-- PRINT_DETAILS: `NREGS` read transactions in ascending address order, each value to DOUT
(41_register_access.md R175). -/
def Obligations.PrintDetailsCompletes : Prop :=
  ∀ (s : State) (rs : List Reply) (d : List Level) (m : List Byte),
    s.atStart → s.init = true → rs.length = s.cfg.nregs → s.answersRegs rs d m →
    s.dout.length + s.cfg.nregs ≤ s.cfg.doutDepth →
    ∃ u, exec .printDetails s = .next u ∧ ∃ n, execN .printDetails n u = .next
      { s.completed d m (dumpEvents s.cfg s.tp s.drvTp 0 rs) with
        dout := s.dout ++ rs.map (fun r => joinBytes r.b2 r.b3) }

/-- SEND_BUFFER: one data transaction of the `len` oldest DIN bytes (42_streaming.md R190, R191). -/
def Obligations.SendBufferCompletes : Prop :=
  ∀ (s : State) (len : Len) (ks : List Nat) (bs : List (Byte × Byte)) (rest : List Byte) (d : List Level)
    (m : List Byte),
    s.atStart → s.init = true → bs.length = len.toNat → s.din = bs.map (fun b => b.1) ++ rest →
    s.answersData ks bs d m →
    ∃ u, exec (.sendBuffer len) s = .next u ∧ ∃ n, execN (.sendBuffer len) n u = .next
      { s.completed d m (dataEvents true s.cfg.readyGrain s.tp s.drvTp ks bs) with din := rest }

/-- SEND_ZEROES: one data transaction of `len` zero bytes; DIN is not touched (42_streaming.md R192). -/
def Obligations.SendZeroesCompletes : Prop :=
  ∀ (s : State) (len : Len) (ks : List Nat) (is : List Byte) (d : List Level) (m : List Byte),
    s.atStart → s.init = true → is.length = len.toNat →
    s.answersData ks (is.map fun i => (0, i)) d m →
    ∃ u, exec (.sendZeroes len) s = .next u ∧ ∃ n, execN (.sendZeroes len) n u = .next
      (s.completed d m (dataEvents false s.cfg.readyGrain s.tp s.drvTp ks (is.map fun i => (0, i))))

/-- START_SONG, from session `Idle`: `Priming`, `PRIME_LEN` zero bytes, then `Streaming`
(43_playback_session.md R210). That `Priming` stands right after the acceptance step is the model's reading
of 00_scope.md R15, log 1. -/
def Obligations.StartSongCompletes : Prop :=
  ∀ (s : State) (ks : List Nat) (is : List Byte) (d : List Level) (m : List Byte),
    s.atStart → s.init = true → s.session = .idle → is.length = s.cfg.primeLen →
    s.answersData ks (is.map fun i => (0, i)) d m →
    ∃ u, exec .startSong s = .next u ∧ u.session = .priming ∧ ∃ n, execN .startSong n u = .next
      { s.completed d m (dataEvents false s.cfg.readyGrain s.tp s.drvTp ks (is.map fun i => (0, i))) with
        session := .streaming }

/-- PLAY_CHUNK, in session `Streaming`: one data transaction of the `len` oldest DIN bytes
(43_playback_session.md R212). -/
def Obligations.PlayChunkCompletes : Prop :=
  ∀ (s : State) (len : Len) (ks : List Nat) (bs : List (Byte × Byte)) (rest : List Byte) (d : List Level)
    (m : List Byte),
    s.atStart → s.init = true → s.session = .streaming → bs.length = len.toNat →
    s.din = bs.map (fun b => b.1) ++ rest → s.answersData ks bs d m →
    ∃ u, exec (.playChunk len) s = .next u ∧ ∃ n, execN (.playChunk len) n u = .next
      { s.completed d m (dataEvents true s.cfg.readyGrain s.tp s.drvTp ks bs) with din := rest }

/-- STOP_SONG, from session `Streaming`: `Draining`, `DRAIN_LEN` zero bytes, then `Idle`
(43_playback_session.md R214). That `Draining` stands right after the acceptance step is the model's reading
of 00_scope.md R15, log 1. -/
def Obligations.StopSongCompletes : Prop :=
  ∀ (s : State) (ks : List Nat) (is : List Byte) (d : List Level) (m : List Byte),
    s.atStart → s.init = true → s.session = .streaming → is.length = s.cfg.drainLen →
    s.answersData ks (is.map fun i => (0, i)) d m →
    ∃ u, exec .stopSong s = .next u ∧ u.session = .draining ∧ ∃ n, execN .stopSong n u = .next
      { s.completed d m (dataEvents false s.cfg.readyGrain s.tp s.drvTp ks (is.map fun i => (0, i))) with
        session := .idle }

/-- LOAD_IMAGE of a well-formed image: its `2*len` DIN bytes are taken, word by word, and its register writes
performed in order (44_firmware_loader.md R232, R233). -/
def Obligations.LoadImageCompletes : Prop :=
  ∀ (s : State) (len : Len) (ws : List Word) (rs : List Reply) (rest : List Byte) (d : List Level)
    (m : List Byte),
    s.atStart → s.init = true → ws.length = len.toNat → imageWf ws = true →
    s.din = ws.flatMap (fun v => [v.extractLsb' 8 8, v.extractLsb' 0 8]) ++ rest →
    rs.length = (loadWrites (imageActs s.cfg ws).1).length → s.answersRegs rs d m →
    ∃ u, exec (.loadImage len) s = .next u ∧ ∃ n, execN (.loadImage len) n u = .next
      { s.completed d m (loadEvents s.cfg s.tp s.drvTp (imageActs s.cfg ws).1 rs) with din := rest }

/-- BEGIN_MIDI with a well-formed `MIDI_IMAGE`: the image's writes, then `MIDI_WRITES`, then `MIDI` = 1
(45_init_and_midi.md R263). That a ROM word is fetched with no event is the model's reading, log 17. -/
def Obligations.BeginMidiCompletes : Prop :=
  ∀ (s : State) (r1 r2 : List Reply) (d : List Level) (m : List Byte),
    s.atStart → s.init = true → imageWf s.cfg.midiImage = true →
    r1.length = (imageWrites s.cfg s.cfg.midiImage).length → r2.length = s.cfg.midiWrites.length →
    s.answersRegs (r1 ++ r2) d m →
    ∃ u, exec .beginMidi s = .next u ∧ ∃ n, execN .beginMidi n u = .next
      { s.completed d m (writesEvents s.cfg s.tp s.drvTp (imageWrites s.cfg s.cfg.midiImage) r1
          ++ writesEvents s.cfg s.tp s.drvTp s.cfg.midiWrites r2) with
        midi := true }

/-- SEND_MIDI: one data transaction of the six bytes of the frame, whatever `MIDI` is (45_init_and_midi.md R264,
30_encoding.md R120). -/
def Obligations.SendMidiCompletes : Prop :=
  ∀ (s : State) (mcmd d1 d2 : Byte) (ks : List Nat) (bs : List (Byte × Byte)) (d : List Level) (m : List Byte),
    s.atStart → s.init = true →
    bs.map (fun b => b.1) = [s.cfg.midiPad, mcmd, s.cfg.midiPad, d1, s.cfg.midiPad, d2] →
    s.answersData ks bs d m →
    ∃ u, exec (.sendMidi mcmd d1 d2) s = .next u ∧ ∃ n, execN (.sendMidi mcmd d1 d2) n u = .next
      (s.completed d m (dataEvents false s.cfg.readyGrain s.tp s.drvTp ks bs))

/-! ## Rejection and fault -/

/-- 60_exceptions.md R304: a command that its acceptance check turns away with code `c` discards its DIN
payload, sets `ERR`, records `End(c)` and is READY, and nothing else differs; so does a word that spells no
command, with nothing discarded. -/
def Obligations.RejectionIsPrecise : Prop :=
  (∀ (i : Instr) (s : State) (w : CmdWord) (c : ResultCode) (payload rest : List Byte),
    s.phase = .exec w .start → rejection i s = some c → s.din = payload ++ rest →
    payload.length = discardBytes i →
    ∃ u, exec i s = .next u ∧ ∃ n, execN i n u = .next (s.rejected c payload rest))
  ∧ ∀ (s : State) (w : CmdWord) (c : ResultCode), s.phase = .exec w .start → decode w = .error c →
    controllerStep s = .next (s.rejected c [] s.din)

/-- 60_exceptions.md R303: when several causes apply to one word, exactly the first of them, in the order of
R302, is reported, with the discard of R305; when none applies, the word is a command that runs. -/
def Obligations.FirstCauseIsReported : Prop :=
  (∀ (s : State) (w : CmdWord) (c : ResultCode) (more : List ResultCode) (payload rest : List Byte),
    s.sched = [] → s.phase = .exec w .start → rejectionCauses w s = c :: more → s.din = payload ++ rest →
    payload.length = discardOf w c →
    ∃ n, stepN n s = .next (s.rejected c payload rest))
  ∧ ∀ (s : State) (w : CmdWord), rejectionCauses w s = [] → ∃ i, decode w = .ok i ∧ rejection i s = none

/-- 44_firmware_loader.md R235 and 60_exceptions.md R308: LOAD_IMAGE of a malformed image performs what comes
before the overrun, leaves the words it did not read in DIN, and faults: `ERR` = `ERR_IMAGE`, `FAULT` = 1,
HALTED, and nothing else differs. -/
def Obligations.MalformedImageFaults : Prop :=
  ∀ (s : State) (len : Len) (ws : List Word) (rs : List Reply) (rest : List Byte) (d : List Level)
    (m : List Byte),
    s.atStart → s.init = true → ws.length = len.toNat → imageWf ws = false →
    s.din = ws.flatMap (fun v => [v.extractLsb' 8 8, v.extractLsb' 0 8]) ++ rest →
    rs.length = (loadWrites (imageActs s.cfg ws).1).length → s.answersRegs rs d m →
    ∃ u, exec (.loadImage len) s = .next u ∧ ∃ n, execN (.loadImage len) n u = .next
      { s with
        phase := .halted, err := .errImage, fault := true, dreqIn := d, misoIn := m,
        din := (ws.drop (loadWords (imageActs s.cfg ws).1).length).flatMap
          (fun v => [v.extractLsb' 8 8, v.extractLsb' 0 8]) ++ rest,
        trace := s.trace ++ loadEvents s.cfg s.tp s.drvTp (imageActs s.cfg ws).1 rs ++ [.done .errImage] }

/-- BEGIN_MIDI under a configuration whose `MIDI_IMAGE` is malformed, which 45_init_and_midi.md R263 lets a model
admit, faults after the writes before the overrun, and `MIDI` stays. Admitting it is the model's choice, log 16;
that a ROM word is fetched with no event is the model's reading, log 17. -/
def Obligations.MalformedMidiImageFaults : Prop :=
  ∀ (s : State) (rs : List Reply) (d : List Level) (m : List Byte),
    s.atStart → s.init = true → imageWf s.cfg.midiImage = false →
    rs.length = (imageWrites s.cfg s.cfg.midiImage).length → s.answersRegs rs d m →
    ∃ u, exec .beginMidi s = .next u ∧ ∃ n, execN .beginMidi n u = .next
      { s with
        phase := .halted, err := .errImage, fault := true, dreqIn := d, misoIn := m,
        trace := s.trace ++ writesEvents s.cfg s.tp s.drvTp (imageWrites s.cfg s.cfg.midiImage) rs
          ++ [.done .errImage] }

/-! ## Commands that are one another's equal, and the firmware image -/

/-- 30_encoding.md R111: SET_VOLUME is WRITE_REG of `REG_VOL`, step by step; PLAY_CHUNK accepted in session
`Streaming`, and every later step of it, is SEND_BUFFER. -/
def Obligations.EquivalentCommands : Prop :=
  (∀ (s : State) (level : Byte),
    exec (.setVolume level) s = exec (.writeReg s.cfg.regVol (level ++ level : BitVec (8 + 8))) s)
  ∧ (∀ (s : State) (w : CmdWord) (len : Len), s.phase = .exec w .start → s.session = .streaming →
      exec (.playChunk len) s = exec (.sendBuffer len) s)
  ∧ ∀ (s : State) (w : CmdWord) (loc : Locals) (ops : List Op) (len : Len),
      s.phase = .exec w (.run loc ops) → exec (.playChunk len) s = exec (.sendBuffer len) s

/-- 44_firmware_loader.md R236: of an image that opens with a record and its payload, the loader takes `2 + N`
words for a copy-run and three for a repeat-run, the record's own words in order, and performs `N` writes for
it, one more in `FixedPair` mode; then it does what it does with the rest of the image. An empty image takes
and writes nothing. -/
def Obligations.RecordCounts : Prop :=
  (∀ c : Config, (imageActs c []).1 = [])
  ∧ ∀ (c : Config) (a h : Word) (payload more : List Word),
    payload.length = (if h.getLsbD 15 then 1 else (h.extractLsb' 0 15).toNat) →
    loadWords (imageActs c (a :: h :: payload ++ more)).1
      = a :: h :: payload ++ loadWords (imageActs c more).1
    ∧ (loadWords (imageActs c (a :: h :: payload ++ more)).1).length
      = (if h.getLsbD 15 then 3 else 2 + (h.extractLsb' 0 15).toNat)
        + (loadWords (imageActs c more).1).length
    ∧ (loadWrites (imageActs c (a :: h :: payload ++ more)).1).length
      = (h.extractLsb' 0 15).toNat + (if c.loaderTarget = .fixedPair then 1 else 0)
        + (loadWrites (imageActs c more).1).length

/-- 44_firmware_loader.md R230, R232: the loader reaches the end of an image, in either target mode, exactly
where the image is well formed, and then it took every word of it once and in order. -/
def Obligations.LoaderEndsIffWellFormed : Prop :=
  ∀ (c : Config) (ws : List Word),
    imageLoads c ws = imageWf ws ∧ (imageWf ws = true → loadWords (imageActs c ws).1 = ws)

/-- 41_register_access.md R176: under a peripheral that answers the read with the bytes last written, WRITE_REG
A, V and then READ_REG A, offered back to back, push V on DOUT. The whole run is of the machine's steps, the
second offer waiting on the first command. The schedule and the waiting are the model's own, log 2. -/
def Obligations.WriteThenReadRoundTrip : Prop :=
  ∀ (s : State) (a : Byte) (v : Word) (r1 r2 : Reply) (d : List Level) (m : List Byte),
    s.phase = .ready → s.busFree → s.init = true → s.dout.length < s.cfg.doutDepth →
    s.sched = [.offer (encode (.writeReg a v)), .offer (encode (.readReg a))] →
    s.answersRegs [r1, r2] d m → r2.b2 = v.extractLsb' 8 8 → r2.b3 = v.extractLsb' 0 8 →
    ∃ n, stepN n s = .next
      { s.completed d m
          (.cmd (encode (.writeReg a v)) :: writeEvents s.cfg s.tp s.drvTp a v r1 ++ [.done .ok]
            ++ .cmd (encode (.readReg a)) :: readEvents s.cfg s.tp s.drvTp a r2 ++ [.dout v]) with
        dout := s.dout ++ [v], sched := [] }

/-- 70_reset_and_hazards.md R359: how many primitive events each of its commands records, from acceptance to
completion, with `rd` = `busy + 1` samples for an `AwaitReady` that finds the peripheral busy `busy` times. -/
def Obligations.EventCounts : Prop :=
  (∀ (s : State) (addr : Byte) (r : Reply) (d : List Level) (m : List Byte),
    s.atStart → s.init = true → s.answersRegs [r] d m → s.dout.length < s.cfg.doutDepth →
    completesWith (.readReg addr) s (10 + (r.busy + 1) + 1))
  ∧ (∀ (s : State) (addr : Byte) (value : Word) (r : Reply) (d : List Level) (m : List Byte),
    s.atStart → s.init = true → s.answersRegs [r] d m →
    completesWith (.writeReg addr value) s (10 + (r.busy + 1)))
  ∧ (∀ (s : State) (level : Byte) (r : Reply) (d : List Level) (m : List Byte),
    s.atStart → s.init = true → s.answersRegs [r] d m →
    completesWith (.setVolume level) s (10 + (r.busy + 1)))
  ∧ (∀ (s : State) (len : Len) (ks : List Nat) (bs : List (Byte × Byte)) (rest : List Byte) (d : List Level)
      (m : List Byte),
    s.atStart → s.init = true → bs.length = len.toNat → s.din = bs.map (fun b => b.1) ++ rest →
    s.answersData ks bs d m →
    completesWith (.sendBuffer len) s (6 + 2 * len.toNat + (ks.map fun k => k + 1).sum)
    ∧ (s.session = .streaming →
      completesWith (.playChunk len) s (6 + 2 * len.toNat + (ks.map fun k => k + 1).sum)))
  ∧ (∀ (s : State) (len : Len) (ks : List Nat) (is : List Byte) (d : List Level) (m : List Byte),
    s.atStart → s.init = true → is.length = len.toNat → s.answersData ks (is.map fun i => (0, i)) d m →
    completesWith (.sendZeroes len) s (6 + len.toNat + (ks.map fun k => k + 1).sum))
  ∧ ∀ (s : State) (mcmd d1 d2 : Byte) (ks : List Nat) (bs : List (Byte × Byte)) (d : List Level)
      (m : List Byte),
    s.atStart → s.init = true →
    bs.map (fun b => b.1) = [s.cfg.midiPad, mcmd, s.cfg.midiPad, d1, s.cfg.midiPad, d2] →
    s.answersData ks bs d m →
    completesWith (.sendMidi mcmd d1 d2) s (6 + 6 + (ks.map fun k => k + 1).sum)

/-! ## Waiting -/

/-- 40_line_control.md R147 and 60_exceptions.md R310: `AwaitReady` records one `Ready(false)` a busy sample and
otherwise leaves everything as it is, for as long as the peripheral is busy, without end; the first ready
sample ends it. That the silent items after that sample run in its step is the model's reading of 00_scope.md R15,
log 1. -/
def Obligations.AwaitReadyPolls : Prop :=
  ∀ (i : Instr) (s : State) (w : CmdWord) (loc : Locals) (rest : List Op) (d : List Level),
    s.phase = .exec w (.run loc (.awaitReady :: rest)) →
    (∀ n, s.dreqIn = List.replicate n (!s.cfg.readyLevel) ++ d →
      execN i n s = .next { s with dreqIn := d, trace := s.trace ++ List.replicate n (.ready false) })
    ∧ (s.dreqIn = s.cfg.readyLevel :: d →
      exec i s = .next (settle w rest loc { s with dreqIn := d, trace := s.trace ++ [.ready true] }))

/-- 10_state.md R54: where no answer is queued, a sample records some Boolean and an exchange some byte, and
the command goes on with it. No statement says which: the values are free, log 3. That the silent items after
the sample or the exchange run in its step is the model's reading of 00_scope.md R15, log 1. -/
def Obligations.UnqueuedAnswersAreFree : Prop :=
  (∀ (i : Instr) (s : State) (w : CmdWord) (loc : Locals) (rest : List Op),
    s.phase = .exec w (.run loc (.awaitReady :: rest)) → s.dreqIn = [] →
    ∃ r : Bool, exec i s = .next
      (if r then settle w rest loc { s with draws := s.draws + 1, trace := s.trace ++ [.ready true] }
        else { s with draws := s.draws + 1, trace := s.trace ++ [.ready false] }))
  ∧ ∀ (i : Instr) (s : State) (w : CmdWord) (loc : Locals) (o : Byte) (dst : ByteDst) (rest : List Op),
    s.phase = .exec w (.run loc (.xfer o dst :: rest)) → s.misoIn = [] →
    ∃ b : Byte, exec i s = .next (settle w rest (loc.keep dst b)
      { s with draws := s.draws + 1, trace := s.trace ++ [.xfer o b] })

/-- 60_exceptions.md R311: the three holds change nothing and record nothing: an empty DIN at a pop, a full
DOUT at a push, READY with no command; with a byte in DIN, or room in DOUT, the hold is lifted and the event
recorded. R311 says that a held controller has no enabled step; that `exec` and `step` answer the same state
there is the model's choice, log 10. The items after a lifted hold run in the same step, log 1. -/
def Obligations.HoldsChangeNothing : Prop :=
  (∀ (i : Instr) (s : State) (w : CmdWord) (loc : Locals) (dst : ByteDst) (rest : List Op),
    s.phase = .exec w (.run loc (.dinPop dst :: rest)) →
    (s.din = [] → exec i s = .next s)
    ∧ ∀ b bs, s.din = b :: bs → exec i s = .next
        (settle w rest (loc.keep dst b) { s with din := bs, trace := s.trace ++ [.din b] }))
  ∧ (∀ (i : Instr) (s : State) (w : CmdWord) (loc : Locals) (rest : List Op),
    s.phase = .exec w (.run loc (.dinSend :: rest)) →
    (s.din = [] → exec i s = .next s)
    ∧ ∀ b bs, s.din = b :: bs → exec i s = .next
        { s with
          din := bs, trace := s.trace ++ [.din b], phase := .exec w (.run loc (.xfer b .drop :: rest)) })
  ∧ (∀ (i : Instr) (s : State) (w : CmdWord) (loc : Locals) (rest : List Op),
    s.phase = .exec w (.run loc (.doutPush :: rest)) →
    (s.cfg.doutDepth ≤ s.dout.length → exec i s = .next s)
    ∧ (s.dout.length < s.cfg.doutDepth → exec i s = .next
        (settle w rest loc
          { s with dout := s.dout ++ [loc.word], trace := s.trace ++ [.dout loc.word] })))
  ∧ ∀ s : State, s.phase = .ready → s.sched = [] → step s = .next s

/-- Bytes that the host pushes while a command runs serve it as bytes that were in DIN before it (10_state.md
R48, 40_line_control.md R145, 60_exceptions.md R311): whatever a run of the command reaches with them in DIN,
the machine reaches with them still to be pushed, a full DIN making the host wait and an empty one the
controller. The schedule is the model's own, log 2; that a push records no event is its reading of R51, log 24. -/
def Obligations.HostMayPushDuringTheCommand : Prop :=
  ∀ (s t : State) (w : CmdWord) (k : Pos) (i : Instr) (bs : List Byte) (n : Nat),
    1 ≤ s.cfg.dinDepth → s.phase = .exec w k → decode w = .ok i → s.sched = bs.map .push →
    execN i n { s with din := s.din ++ bs, sched := [] } = .next t →
    ∃ (j : Nat) (u : State) (cs : List Byte), stepN j s = .next u ∧ u.sched = cs.map .push
      ∧ { u with din := u.din ++ cs, sched := [] } = t

/-- Words that the host takes while a command runs make room as a deeper DOUT would (10_state.md R49,
40_line_control.md R146, 60_exceptions.md R311): with `j` takes scheduled, whatever a run of the command reaches
with `j` more places in DOUT, the machine reaches, the words it took standing in front. The schedule is the
model's own, log 2; that a take records no event is its reading of R51, log 24. -/
def Obligations.HostMayTakeDuringTheCommand : Prop :=
  ∀ (s t : State) (w : CmdWord) (k : Pos) (i : Instr) (j n : Nat),
    1 ≤ s.cfg.doutDepth → s.phase = .exec w k → decode w = .ok i → s.sched = List.replicate j .take →
    execN i n { s with cfg := { s.cfg with doutDepth := s.cfg.doutDepth + j }, sched := [] } = .next t →
    ∃ (p : Nat) (u : State) (taken : List Word), stepN p s = .next u ∧ taken.length ≤ j
      ∧ u.sched = List.replicate (j - taken.length) .take
      ∧ { u with
          cfg := { s.cfg with doutDepth := s.cfg.doutDepth + j }, dout := taken ++ u.dout, sched := [] } = t

/-! ## Invariants and whole-machine rules -/

/-- Every step of the machine keeps the bus discipline: of the controller in any command, of the host, of a
co-user, of reset (10_state.md R37, R42, R43; 40_line_control.md R155). -/
def Obligations.StepKeepsDiscipline : Prop :=
  ∀ s t : State, Disciplined s → step s = .next t → Disciplined t

/-- The state after reset keeps the discipline, under every configuration. -/
def Obligations.ResetIsDisciplined : Prop :=
  ∀ (c : Config) (p : Profile), Disciplined (State.resetWith c p)

/-- 10_state.md R42: both select lines are never low together: not in a disciplined state, and so at no step of
any run from reset, whatever the agents do and the peripheral answers. -/
def Obligations.SelectsNeverBothLow : Prop :=
  (∀ s : State, Disciplined s → ¬ (s.xcs = false ∧ s.xdcs = false))
  ∧ ∀ (c : Config) (p : Profile) (ms : List Move) (d : List Level) (m : List Byte) (n : Nat) (t : State),
    stepN n { State.resetWith c p with sched := ms, dreqIn := d, misoIn := m } = .next t →
    ¬ (t.xcs = false ∧ t.xdcs = false)

/-- From a disciplined state the machine always has a next state: `FaultInternal` (40_line_control.md R156) and a
refusal are unreachable. That a held, idle or halted controller answers the same state is the model's choice,
log 10. -/
def Obligations.StepAlwaysAnswers : Prop :=
  ∀ s : State, Disciplined s → ∃ t, step s = .next t

/-- 40_line_control.md R143, R155 and 42_streaming.md R193: a byte is exchanged only with the profile held, a
select line low, and the last sample of the ready line ready. -/
def Obligations.NoExchangeWhileBusy : Prop :=
  ∀ (s t : State) (o b : Byte) (more : List Event), Disciplined s → step s = .next t →
    t.trace = s.trace ++ .xfer o b :: more →
    s.tpHeld = true ∧ s.busMode ≠ .idle ∧ lastReady s.trace = some true

/-- Every step keeps: the rest of the running micro-program holds only items its command may use. -/
def Obligations.StepKeepsServing : Prop :=
  ∀ s t : State, ServesCommand s → step s = .next t → ServesCommand t

/-- Who writes what (10_state.md R33, R34, R35, R37, R38, R48, R49; 40_line_control.md R141): a step of a
command leaves alone every register it is not named a writer of, and the configuration, the schedule and the
cut of DIN and DOUT with it. -/
def Obligations.OnlyNamedWritersWrite : Prop :=
  ∀ (s t : State) (w : CmdWord) (k : Pos) (i : Instr), s.phase = .exec w k → decode w = .ok i →
    ServesCommand s → exec i s = .next t →
    (i ≠ .begin → t.init = s.init ∧ t.drvTp = s.drvTp ∧ t.xreset = s.xreset)
    ∧ (s.init = true → t.init = true)
    ∧ (i ≠ .begin → i ≠ .startSong → i ≠ .stopSong → t.session = s.session)
    ∧ (i ≠ .begin → i ≠ .beginMidi → t.midi = s.midi)
    ∧ ((∀ len, i ≠ .loadImage len) → i ≠ .beginMidi → t.fault = s.fault)
    ∧ (s.fault = true → t.fault = true)
    ∧ ((∀ len, i ≠ .sendBuffer len) → (∀ len, i ≠ .playChunk len) → (∀ len, i ≠ .loadImage len) →
        t.din = s.din)
    ∧ ((∀ addr, i ≠ .readReg addr) → i ≠ .printDetails → t.dout = s.dout)
    ∧ t.cfg = s.cfg ∧ t.sched = s.sched

/-- Every step keeps `Priming` and `Draining` inside the command that set them, so that no acceptance check and
no command boundary finds them (43_playback_session.md R211). -/
def Obligations.StepKeepsSessionSettled : Prop :=
  ∀ s t : State, SessionSettled s → step s = .next t → SessionSettled t

/-- The state after reset serves, its session is settled, and its buffers fit. -/
def Obligations.ResetServesSettledAndFits : Prop :=
  ∀ (c : Config) (p : Profile), ServesCommand (State.resetWith c p)
    ∧ SessionSettled (State.resetWith c p) ∧ BuffersFit (State.resetWith c p)

/-- 10_state.md R48, R49: every step keeps the DIN and DOUT buffers within their capacities. -/
def Obligations.StepKeepsBuffersFit : Prop :=
  ∀ s t : State, BuffersFit s → step s = .next t → BuffersFit t

/-- 00_scope.md R15, 10_state.md R51, 20_memory.md R85: a controller step appends to the trace at most one event
besides the `End` of the command, and an `End` only where the command ends, with its code in `ERR`; and no step
of any agent takes an event away. -/
def Obligations.TraceOnlyGrows : Prop :=
  (∀ s t : State, controllerStep s = .next t →
    ∃ evs, t.trace = s.trace ++ evs
      ∧ (evs.filter fun e => match e with | .done _ => false | _ => true).length ≤ 1
      ∧ ∀ c, Event.done c ∈ evs → t.err = c ∧ (t.phase = .ready ∨ t.phase = .halted))
  ∧ ∀ s t : State, step s = .next t → ∃ evs, t.trace = s.trace ++ evs

/-- 10_state.md R31, R32: while a command executes, its word stays latched until the command ends, with its code
as the last event; and READY is left for a command only by a CMD transfer. (Reset apart.) -/
def Obligations.CommandStaysLatched : Prop :=
  ∀ s t : State, s.sched.head? ≠ some .reset → step s = .next t →
    (∀ w k, s.phase = .exec w k →
      (∃ k', t.phase = .exec w k')
      ∨ ((t.phase = .ready ∨ t.phase = .halted) ∧ t.trace.getLast? = some (.done t.err)))
    ∧ (s.phase = .ready → t.phase = .ready ∨ ∃ w rest, s.sched = .offer w :: rest ∧ t.phase = .exec w .start)

/-- 40_line_control.md R153 and 10_state.md R39, R53: a held profile stays the one captured until a step puts
exactly it back as the shared profile. (Reset apart.) -/
def Obligations.HeldProfileIsRestored : Prop :=
  ∀ (s t : State) (p : Profile), s.tpSave = some p → s.sched.head? ≠ some .reset → step s = .next t →
    t.tpSave = some p ∨ (t.tpSave = none ∧ t.tp = p)

/-! ## The shared timing profile under co-users, inside one command -/

/-- 70_reset_and_hazards.md R350, 20_memory.md R88: where a command stands before a register write or read, a
co-user's move before the transaction changes the profile that the transaction finds and puts back, and
nothing else: it applies `DRV_TP`, and its every other event is what it was. A second co-user's move waits until
the transaction is over, and finds the first one's profile there. The schedule and the waiting are the
model's own, log 2; that a co-user's move records no event is its reading of R51, log 24; the items after the
transaction run in its last step, log 1. -/
def Obligations.CoUserMovesBetweenTransactions : Prop :=
  ∀ (s : State) (w : CmdWord) (i : Instr) (loc : Locals) (rest : List Op) (a : Byte) (r : Reply)
    (d : List Level) (m : List Byte) (p q : Profile) (more : List Move),
    decode w = .ok i → s.busFree → s.cfg.profile.has p = true → s.cfg.profile.has q = true →
    s.sched = .coUser p :: .controller :: .coUser q :: more → s.answersRegs [r] d m →
    (∀ v : Word, s.phase = .exec w (.run loc (regWrite s.cfg a v ++ rest)) →
      ∃ n, stepN n s = .next
        { settle w rest loc { s with
            tp := p, dreqIn := d, misoIn := m, trace := s.trace ++ writeEvents s.cfg p s.drvTp a v r } with
          tp := q, sched := more })
    ∧ (s.phase = .exec w (.run loc (regRead s.cfg a ++ rest)) →
      ∃ n, stepN n s = .next
        { settle w rest { loc with hi := r.b2, lo := r.b3 } { s with
            tp := p, dreqIn := d, misoIn := m, trace := s.trace ++ readEvents s.cfg p s.drvTp a r } with
          tp := q, sched := more })

/-- 70_reset_and_hazards.md R350, 20_memory.md R88: co-users that move during a command, whenever `TP_HELD` = 0 and
to whatever profiles, change only what its transactions find and put back. Whatever a run of the command reaches
without them, the machine reaches with them, on any schedule of co-users' moves and controller's turns: but
for the shared profile, the profile held and the schedule every field is the same, a profile is held in the one
iff in the other, and the events differ in no more than the profiles found and put back, never in a profile
applied. The schedule is the model's own, log 2; that a co-user's move records no event is its reading of R51,
log 24. -/
def Obligations.CoUsersChangeOnlyProfilesFound : Prop :=
  ∀ (s t : State) (w : CmdWord) (i : Instr) (n : Nat), s.phase = .exec w .start → s.busFree →
    decode w = .ok i → (∀ mv ∈ s.sched, mv = .controller ∨ ∃ p, mv = .coUser p) →
    execN i n { s with sched := [] } = .next t →
    ∃ (j : Nat) (u : State) (evs evs' : List Event), stepN j s = .next u
      ∧ t.trace = s.trace ++ evs ∧ u.trace = s.trace ++ evs'
      ∧ hideFound false evs' = hideFound false evs ∧ u.tpHeld = t.tpHeld
      ∧ { u with tp := t.tp, tpSave := t.tpSave, trace := t.trace, sched := [] } = t

/-- Every step keeps every profile of the machine a value of the parameter `Profile` (00_scope.md R10, 10_state.md
R38, R39, R53). -/
def Obligations.StepKeepsProfilesFit : Prop :=
  ∀ s t : State, ProfilesFit s → step s = .next t → ProfilesFit t

/-- The state after reset has values of `Profile` only, under every configuration that meets R10's constraints
and with TP any value of `Profile`; and so has `State.reset`, whose OPEN parameters are the model's free values,
logs 5, 7 and 14. -/
def Obligations.ResetProfilesFit : Prop :=
  (∀ (c : Config) (p : Profile), c.wf = true → c.profile.has p = true → ProfilesFit (State.resetWith c p))
  ∧ ProfilesFit State.reset
end

