-- ==== Sys2Proof/Laws/State.lean ====
section
/-!
SUPPORT. One lemma per field per update of State, each true by rfl (after a case split on what the update
branches on), so that no later proof unfolds a record update.
-/

namespace Sys2Proof.Machine

open Sys2Proof

/-! ## `State.record` -/

@[simp] theorem State.record_cfg (e : Event) (s : State) : (s.record e).cfg = s.cfg := rfl
@[simp] theorem State.record_phase (e : Event) (s : State) : (s.record e).phase = s.phase := rfl
@[simp] theorem State.record_init (e : Event) (s : State) : (s.record e).init = s.init := rfl
@[simp] theorem State.record_session (e : Event) (s : State) : (s.record e).session = s.session := rfl
@[simp] theorem State.record_midi (e : Event) (s : State) : (s.record e).midi = s.midi := rfl
@[simp] theorem State.record_err (e : Event) (s : State) : (s.record e).err = s.err := rfl
@[simp] theorem State.record_fault (e : Event) (s : State) : (s.record e).fault = s.fault := rfl
@[simp] theorem State.record_drvTp (e : Event) (s : State) : (s.record e).drvTp = s.drvTp := rfl
@[simp] theorem State.record_tpSave (e : Event) (s : State) : (s.record e).tpSave = s.tpSave := rfl
@[simp] theorem State.record_xcs (e : Event) (s : State) : (s.record e).xcs = s.xcs := rfl
@[simp] theorem State.record_xdcs (e : Event) (s : State) : (s.record e).xdcs = s.xdcs := rfl
@[simp] theorem State.record_xreset (e : Event) (s : State) : (s.record e).xreset = s.xreset := rfl
@[simp] theorem State.record_din (e : Event) (s : State) : (s.record e).din = s.din := rfl
@[simp] theorem State.record_dout (e : Event) (s : State) : (s.record e).dout = s.dout := rfl
@[simp] theorem State.record_tp (e : Event) (s : State) : (s.record e).tp = s.tp := rfl
@[simp] theorem State.record_trace (e : Event) (s : State) : (s.record e).trace = s.trace ++ [e] := rfl
@[simp] theorem State.record_sched (e : Event) (s : State) : (s.record e).sched = s.sched := rfl
@[simp] theorem State.record_dreqIn (e : Event) (s : State) : (s.record e).dreqIn = s.dreqIn := rfl
@[simp] theorem State.record_misoIn (e : Event) (s : State) : (s.record e).misoIn = s.misoIn := rfl
@[simp] theorem State.record_draws (e : Event) (s : State) : (s.record e).draws = s.draws := rfl

/-! ## `State.setLine` -/

@[simp] theorem State.setLine_cfg (l : Line) (v : Level) (s : State) : (s.setLine l v).cfg = s.cfg := by
  cases l <;> rfl
@[simp] theorem State.setLine_phase (l : Line) (v : Level) (s : State) : (s.setLine l v).phase = s.phase := by
  cases l <;> rfl
@[simp] theorem State.setLine_init (l : Line) (v : Level) (s : State) : (s.setLine l v).init = s.init := by
  cases l <;> rfl
@[simp] theorem State.setLine_session (l : Line) (v : Level) (s : State) : (s.setLine l v).session = s.session := by
  cases l <;> rfl
@[simp] theorem State.setLine_midi (l : Line) (v : Level) (s : State) : (s.setLine l v).midi = s.midi := by
  cases l <;> rfl
@[simp] theorem State.setLine_err (l : Line) (v : Level) (s : State) : (s.setLine l v).err = s.err := by
  cases l <;> rfl
@[simp] theorem State.setLine_fault (l : Line) (v : Level) (s : State) : (s.setLine l v).fault = s.fault := by
  cases l <;> rfl
@[simp] theorem State.setLine_drvTp (l : Line) (v : Level) (s : State) : (s.setLine l v).drvTp = s.drvTp := by
  cases l <;> rfl
@[simp] theorem State.setLine_tpSave (l : Line) (v : Level) (s : State) : (s.setLine l v).tpSave = s.tpSave := by
  cases l <;> rfl
@[simp] theorem State.setLine_xcs_xcs (v : Level) (s : State) : (s.setLine .xcs v).xcs = v := rfl
@[simp] theorem State.setLine_xdcs_xcs (v : Level) (s : State) : (s.setLine .xdcs v).xcs = s.xcs := rfl
@[simp] theorem State.setLine_xreset_xcs (v : Level) (s : State) : (s.setLine .xreset v).xcs = s.xcs := rfl
@[simp] theorem State.setLine_xcs_xdcs (v : Level) (s : State) : (s.setLine .xcs v).xdcs = s.xdcs := rfl
@[simp] theorem State.setLine_xdcs_xdcs (v : Level) (s : State) : (s.setLine .xdcs v).xdcs = v := rfl
@[simp] theorem State.setLine_xreset_xdcs (v : Level) (s : State) : (s.setLine .xreset v).xdcs = s.xdcs := rfl
@[simp] theorem State.setLine_xcs_xreset (v : Level) (s : State) : (s.setLine .xcs v).xreset = s.xreset := rfl
@[simp] theorem State.setLine_xdcs_xreset (v : Level) (s : State) : (s.setLine .xdcs v).xreset = s.xreset := rfl
@[simp] theorem State.setLine_xreset_xreset (v : Level) (s : State) : (s.setLine .xreset v).xreset = v := rfl
@[simp] theorem State.setLine_din (l : Line) (v : Level) (s : State) : (s.setLine l v).din = s.din := by
  cases l <;> rfl
@[simp] theorem State.setLine_dout (l : Line) (v : Level) (s : State) : (s.setLine l v).dout = s.dout := by
  cases l <;> rfl
@[simp] theorem State.setLine_tp (l : Line) (v : Level) (s : State) : (s.setLine l v).tp = s.tp := by
  cases l <;> rfl
@[simp] theorem State.setLine_trace (l : Line) (v : Level) (s : State) : (s.setLine l v).trace = s.trace ++ [.line l v] := by
  cases l <;> rfl
@[simp] theorem State.setLine_sched (l : Line) (v : Level) (s : State) : (s.setLine l v).sched = s.sched := by
  cases l <;> rfl
@[simp] theorem State.setLine_dreqIn (l : Line) (v : Level) (s : State) : (s.setLine l v).dreqIn = s.dreqIn := by
  cases l <;> rfl
@[simp] theorem State.setLine_misoIn (l : Line) (v : Level) (s : State) : (s.setLine l v).misoIn = s.misoIn := by
  cases l <;> rfl
@[simp] theorem State.setLine_draws (l : Line) (v : Level) (s : State) : (s.setLine l v).draws = s.draws := by
  cases l <;> rfl

/-! ## `State.dreqTaken` and `State.misoTaken` -/

@[simp] theorem State.dreqTaken_cfg (s : State) : s.dreqTaken.cfg = s.cfg := by
  unfold State.dreqTaken; split <;> rfl
@[simp] theorem State.dreqTaken_phase (s : State) : s.dreqTaken.phase = s.phase := by
  unfold State.dreqTaken; split <;> rfl
@[simp] theorem State.dreqTaken_init (s : State) : s.dreqTaken.init = s.init := by
  unfold State.dreqTaken; split <;> rfl
@[simp] theorem State.dreqTaken_session (s : State) : s.dreqTaken.session = s.session := by
  unfold State.dreqTaken; split <;> rfl
@[simp] theorem State.dreqTaken_midi (s : State) : s.dreqTaken.midi = s.midi := by
  unfold State.dreqTaken; split <;> rfl
@[simp] theorem State.dreqTaken_err (s : State) : s.dreqTaken.err = s.err := by
  unfold State.dreqTaken; split <;> rfl
@[simp] theorem State.dreqTaken_fault (s : State) : s.dreqTaken.fault = s.fault := by
  unfold State.dreqTaken; split <;> rfl
@[simp] theorem State.dreqTaken_drvTp (s : State) : s.dreqTaken.drvTp = s.drvTp := by
  unfold State.dreqTaken; split <;> rfl
@[simp] theorem State.dreqTaken_tpSave (s : State) : s.dreqTaken.tpSave = s.tpSave := by
  unfold State.dreqTaken; split <;> rfl
@[simp] theorem State.dreqTaken_xcs (s : State) : s.dreqTaken.xcs = s.xcs := by
  unfold State.dreqTaken; split <;> rfl
@[simp] theorem State.dreqTaken_xdcs (s : State) : s.dreqTaken.xdcs = s.xdcs := by
  unfold State.dreqTaken; split <;> rfl
@[simp] theorem State.dreqTaken_xreset (s : State) : s.dreqTaken.xreset = s.xreset := by
  unfold State.dreqTaken; split <;> rfl
@[simp] theorem State.dreqTaken_din (s : State) : s.dreqTaken.din = s.din := by
  unfold State.dreqTaken; split <;> rfl
@[simp] theorem State.dreqTaken_dout (s : State) : s.dreqTaken.dout = s.dout := by
  unfold State.dreqTaken; split <;> rfl
@[simp] theorem State.dreqTaken_tp (s : State) : s.dreqTaken.tp = s.tp := by
  unfold State.dreqTaken; split <;> rfl
@[simp] theorem State.dreqTaken_trace (s : State) : s.dreqTaken.trace = s.trace := by
  unfold State.dreqTaken; split <;> rfl
@[simp] theorem State.dreqTaken_sched (s : State) : s.dreqTaken.sched = s.sched := by
  unfold State.dreqTaken; split <;> rfl
@[simp] theorem State.dreqTaken_dreqIn (s : State) : s.dreqTaken.dreqIn = s.dreqIn.drop 1 := by
  unfold State.dreqTaken; split <;> simp_all
@[simp] theorem State.dreqTaken_misoIn (s : State) : s.dreqTaken.misoIn = s.misoIn := by
  unfold State.dreqTaken; split <;> rfl
@[simp] theorem State.misoTaken_cfg (s : State) : s.misoTaken.cfg = s.cfg := by
  unfold State.misoTaken; split <;> rfl
@[simp] theorem State.misoTaken_phase (s : State) : s.misoTaken.phase = s.phase := by
  unfold State.misoTaken; split <;> rfl
@[simp] theorem State.misoTaken_init (s : State) : s.misoTaken.init = s.init := by
  unfold State.misoTaken; split <;> rfl
@[simp] theorem State.misoTaken_session (s : State) : s.misoTaken.session = s.session := by
  unfold State.misoTaken; split <;> rfl
@[simp] theorem State.misoTaken_midi (s : State) : s.misoTaken.midi = s.midi := by
  unfold State.misoTaken; split <;> rfl
@[simp] theorem State.misoTaken_err (s : State) : s.misoTaken.err = s.err := by
  unfold State.misoTaken; split <;> rfl
@[simp] theorem State.misoTaken_fault (s : State) : s.misoTaken.fault = s.fault := by
  unfold State.misoTaken; split <;> rfl
@[simp] theorem State.misoTaken_drvTp (s : State) : s.misoTaken.drvTp = s.drvTp := by
  unfold State.misoTaken; split <;> rfl
@[simp] theorem State.misoTaken_tpSave (s : State) : s.misoTaken.tpSave = s.tpSave := by
  unfold State.misoTaken; split <;> rfl
@[simp] theorem State.misoTaken_xcs (s : State) : s.misoTaken.xcs = s.xcs := by
  unfold State.misoTaken; split <;> rfl
@[simp] theorem State.misoTaken_xdcs (s : State) : s.misoTaken.xdcs = s.xdcs := by
  unfold State.misoTaken; split <;> rfl
@[simp] theorem State.misoTaken_xreset (s : State) : s.misoTaken.xreset = s.xreset := by
  unfold State.misoTaken; split <;> rfl
@[simp] theorem State.misoTaken_din (s : State) : s.misoTaken.din = s.din := by
  unfold State.misoTaken; split <;> rfl
@[simp] theorem State.misoTaken_dout (s : State) : s.misoTaken.dout = s.dout := by
  unfold State.misoTaken; split <;> rfl
@[simp] theorem State.misoTaken_tp (s : State) : s.misoTaken.tp = s.tp := by
  unfold State.misoTaken; split <;> rfl
@[simp] theorem State.misoTaken_trace (s : State) : s.misoTaken.trace = s.trace := by
  unfold State.misoTaken; split <;> rfl
@[simp] theorem State.misoTaken_sched (s : State) : s.misoTaken.sched = s.sched := by
  unfold State.misoTaken; split <;> rfl
@[simp] theorem State.misoTaken_dreqIn (s : State) : s.misoTaken.dreqIn = s.dreqIn := by
  unfold State.misoTaken; split <;> rfl
@[simp] theorem State.misoTaken_misoIn (s : State) : s.misoTaken.misoIn = s.misoIn.drop 1 := by
  unfold State.misoTaken; split <;> simp_all

/-! ## `State.afterSample` and `State.afterXfer` -/

@[simp] theorem State.afterSample_cfg (s : State) : s.afterSample.cfg = s.cfg := by
  simp [State.afterSample]
@[simp] theorem State.afterSample_phase (s : State) : s.afterSample.phase = s.phase := by
  simp [State.afterSample]
@[simp] theorem State.afterSample_init (s : State) : s.afterSample.init = s.init := by
  simp [State.afterSample]
@[simp] theorem State.afterSample_session (s : State) : s.afterSample.session = s.session := by
  simp [State.afterSample]
@[simp] theorem State.afterSample_midi (s : State) : s.afterSample.midi = s.midi := by
  simp [State.afterSample]
@[simp] theorem State.afterSample_err (s : State) : s.afterSample.err = s.err := by
  simp [State.afterSample]
@[simp] theorem State.afterSample_fault (s : State) : s.afterSample.fault = s.fault := by
  simp [State.afterSample]
@[simp] theorem State.afterSample_drvTp (s : State) : s.afterSample.drvTp = s.drvTp := by
  simp [State.afterSample]
@[simp] theorem State.afterSample_tpSave (s : State) : s.afterSample.tpSave = s.tpSave := by
  simp [State.afterSample]
@[simp] theorem State.afterSample_xcs (s : State) : s.afterSample.xcs = s.xcs := by
  simp [State.afterSample]
@[simp] theorem State.afterSample_xdcs (s : State) : s.afterSample.xdcs = s.xdcs := by
  simp [State.afterSample]
@[simp] theorem State.afterSample_xreset (s : State) : s.afterSample.xreset = s.xreset := by
  simp [State.afterSample]
@[simp] theorem State.afterSample_din (s : State) : s.afterSample.din = s.din := by
  simp [State.afterSample]
@[simp] theorem State.afterSample_dout (s : State) : s.afterSample.dout = s.dout := by
  simp [State.afterSample]
@[simp] theorem State.afterSample_tp (s : State) : s.afterSample.tp = s.tp := by
  simp [State.afterSample]
@[simp] theorem State.afterSample_trace (s : State) : s.afterSample.trace = s.trace ++ [.ready s.sampleReady] := by
  simp [State.afterSample]
@[simp] theorem State.afterSample_sched (s : State) : s.afterSample.sched = s.sched := by
  simp [State.afterSample]
@[simp] theorem State.afterSample_dreqIn (s : State) : s.afterSample.dreqIn = s.dreqIn.drop 1 := by
  simp [State.afterSample]
@[simp] theorem State.afterSample_misoIn (s : State) : s.afterSample.misoIn = s.misoIn := by
  simp [State.afterSample]
@[simp] theorem State.afterXfer_cfg (o : Byte) (s : State) : (s.afterXfer o).cfg = s.cfg := by
  simp [State.afterXfer]
@[simp] theorem State.afterXfer_phase (o : Byte) (s : State) : (s.afterXfer o).phase = s.phase := by
  simp [State.afterXfer]
@[simp] theorem State.afterXfer_init (o : Byte) (s : State) : (s.afterXfer o).init = s.init := by
  simp [State.afterXfer]
@[simp] theorem State.afterXfer_session (o : Byte) (s : State) : (s.afterXfer o).session = s.session := by
  simp [State.afterXfer]
@[simp] theorem State.afterXfer_midi (o : Byte) (s : State) : (s.afterXfer o).midi = s.midi := by
  simp [State.afterXfer]
@[simp] theorem State.afterXfer_err (o : Byte) (s : State) : (s.afterXfer o).err = s.err := by
  simp [State.afterXfer]
@[simp] theorem State.afterXfer_fault (o : Byte) (s : State) : (s.afterXfer o).fault = s.fault := by
  simp [State.afterXfer]
@[simp] theorem State.afterXfer_drvTp (o : Byte) (s : State) : (s.afterXfer o).drvTp = s.drvTp := by
  simp [State.afterXfer]
@[simp] theorem State.afterXfer_tpSave (o : Byte) (s : State) : (s.afterXfer o).tpSave = s.tpSave := by
  simp [State.afterXfer]
@[simp] theorem State.afterXfer_xcs (o : Byte) (s : State) : (s.afterXfer o).xcs = s.xcs := by
  simp [State.afterXfer]
@[simp] theorem State.afterXfer_xdcs (o : Byte) (s : State) : (s.afterXfer o).xdcs = s.xdcs := by
  simp [State.afterXfer]
@[simp] theorem State.afterXfer_xreset (o : Byte) (s : State) : (s.afterXfer o).xreset = s.xreset := by
  simp [State.afterXfer]
@[simp] theorem State.afterXfer_din (o : Byte) (s : State) : (s.afterXfer o).din = s.din := by
  simp [State.afterXfer]
@[simp] theorem State.afterXfer_dout (o : Byte) (s : State) : (s.afterXfer o).dout = s.dout := by
  simp [State.afterXfer]
@[simp] theorem State.afterXfer_tp (o : Byte) (s : State) : (s.afterXfer o).tp = s.tp := by
  simp [State.afterXfer]
@[simp] theorem State.afterXfer_trace (o : Byte) (s : State) : (s.afterXfer o).trace = s.trace ++ [.xfer o s.misoByte] := by
  simp [State.afterXfer]
@[simp] theorem State.afterXfer_sched (o : Byte) (s : State) : (s.afterXfer o).sched = s.sched := by
  simp [State.afterXfer]
@[simp] theorem State.afterXfer_dreqIn (o : Byte) (s : State) : (s.afterXfer o).dreqIn = s.dreqIn := by
  simp [State.afterXfer]
@[simp] theorem State.afterXfer_misoIn (o : Byte) (s : State) : (s.afterXfer o).misoIn = s.misoIn.drop 1 := by
  simp [State.afterXfer]

/-! ## `State.finish`, `State.raiseFault`, `State.assign`, `State.controllerReset` -/

@[simp] theorem State.finish_cfg (c : ResultCode) (s : State) : (s.finish c).cfg = s.cfg := rfl
@[simp] theorem State.finish_phase (c : ResultCode) (s : State) : (s.finish c).phase = .ready := rfl
@[simp] theorem State.finish_init (c : ResultCode) (s : State) : (s.finish c).init = s.init := rfl
@[simp] theorem State.finish_session (c : ResultCode) (s : State) : (s.finish c).session = s.session := rfl
@[simp] theorem State.finish_midi (c : ResultCode) (s : State) : (s.finish c).midi = s.midi := rfl
@[simp] theorem State.finish_err (c : ResultCode) (s : State) : (s.finish c).err = c := rfl
@[simp] theorem State.finish_fault (c : ResultCode) (s : State) : (s.finish c).fault = s.fault := rfl
@[simp] theorem State.finish_drvTp (c : ResultCode) (s : State) : (s.finish c).drvTp = s.drvTp := rfl
@[simp] theorem State.finish_tpSave (c : ResultCode) (s : State) : (s.finish c).tpSave = s.tpSave := rfl
@[simp] theorem State.finish_xcs (c : ResultCode) (s : State) : (s.finish c).xcs = s.xcs := rfl
@[simp] theorem State.finish_xdcs (c : ResultCode) (s : State) : (s.finish c).xdcs = s.xdcs := rfl
@[simp] theorem State.finish_xreset (c : ResultCode) (s : State) : (s.finish c).xreset = s.xreset := rfl
@[simp] theorem State.finish_din (c : ResultCode) (s : State) : (s.finish c).din = s.din := rfl
@[simp] theorem State.finish_dout (c : ResultCode) (s : State) : (s.finish c).dout = s.dout := rfl
@[simp] theorem State.finish_tp (c : ResultCode) (s : State) : (s.finish c).tp = s.tp := rfl
@[simp] theorem State.finish_trace (c : ResultCode) (s : State) : (s.finish c).trace = s.trace ++ [.done c] := rfl
@[simp] theorem State.finish_sched (c : ResultCode) (s : State) : (s.finish c).sched = s.sched := rfl
@[simp] theorem State.finish_dreqIn (c : ResultCode) (s : State) : (s.finish c).dreqIn = s.dreqIn := rfl
@[simp] theorem State.finish_misoIn (c : ResultCode) (s : State) : (s.finish c).misoIn = s.misoIn := rfl
@[simp] theorem State.finish_draws (c : ResultCode) (s : State) : (s.finish c).draws = s.draws := rfl
@[simp] theorem State.raiseFault_cfg (c : ResultCode) (s : State) : (s.raiseFault c).cfg = s.cfg := rfl
@[simp] theorem State.raiseFault_phase (c : ResultCode) (s : State) : (s.raiseFault c).phase = .halted := rfl
@[simp] theorem State.raiseFault_init (c : ResultCode) (s : State) : (s.raiseFault c).init = s.init := rfl
@[simp] theorem State.raiseFault_session (c : ResultCode) (s : State) : (s.raiseFault c).session = s.session := rfl
@[simp] theorem State.raiseFault_midi (c : ResultCode) (s : State) : (s.raiseFault c).midi = s.midi := rfl
@[simp] theorem State.raiseFault_err (c : ResultCode) (s : State) : (s.raiseFault c).err = c := rfl
@[simp] theorem State.raiseFault_fault (c : ResultCode) (s : State) : (s.raiseFault c).fault = true := rfl
@[simp] theorem State.raiseFault_drvTp (c : ResultCode) (s : State) : (s.raiseFault c).drvTp = s.drvTp := rfl
@[simp] theorem State.raiseFault_tpSave (c : ResultCode) (s : State) : (s.raiseFault c).tpSave = s.tpSave := rfl
@[simp] theorem State.raiseFault_xcs (c : ResultCode) (s : State) : (s.raiseFault c).xcs = s.xcs := rfl
@[simp] theorem State.raiseFault_xdcs (c : ResultCode) (s : State) : (s.raiseFault c).xdcs = s.xdcs := rfl
@[simp] theorem State.raiseFault_xreset (c : ResultCode) (s : State) : (s.raiseFault c).xreset = s.xreset := rfl
@[simp] theorem State.raiseFault_din (c : ResultCode) (s : State) : (s.raiseFault c).din = s.din := rfl
@[simp] theorem State.raiseFault_dout (c : ResultCode) (s : State) : (s.raiseFault c).dout = s.dout := rfl
@[simp] theorem State.raiseFault_tp (c : ResultCode) (s : State) : (s.raiseFault c).tp = s.tp := rfl
@[simp] theorem State.raiseFault_trace (c : ResultCode) (s : State) : (s.raiseFault c).trace = s.trace ++ [.done c] := rfl
@[simp] theorem State.raiseFault_sched (c : ResultCode) (s : State) : (s.raiseFault c).sched = s.sched := rfl
@[simp] theorem State.raiseFault_dreqIn (c : ResultCode) (s : State) : (s.raiseFault c).dreqIn = s.dreqIn := rfl
@[simp] theorem State.raiseFault_misoIn (c : ResultCode) (s : State) : (s.raiseFault c).misoIn = s.misoIn := rfl
@[simp] theorem State.raiseFault_draws (c : ResultCode) (s : State) : (s.raiseFault c).draws = s.draws := rfl
@[simp] theorem State.assign_cfg (a : Assign) (s : State) : (s.assign a).cfg = s.cfg := by
  cases a <;> rfl
@[simp] theorem State.assign_phase (a : Assign) (s : State) : (s.assign a).phase = s.phase := by
  cases a <;> rfl
@[simp] theorem State.assign_init_init (v : Bool) (s : State) : (s.assign (.init v)).init = v := rfl
@[simp] theorem State.assign_session_init (v : Session) (s : State) : (s.assign (.session v)).init = s.init := rfl
@[simp] theorem State.assign_midi_init (v : Bool) (s : State) : (s.assign (.midi v)).init = s.init := rfl
@[simp] theorem State.assign_err_init (v : ResultCode) (s : State) : (s.assign (.err v)).init = s.init := rfl
@[simp] theorem State.assign_drvTp_init (v : Profile) (s : State) : (s.assign (.drvTp v)).init = s.init := rfl
@[simp] theorem State.assign_init_session (v : Bool) (s : State) : (s.assign (.init v)).session = s.session := rfl
@[simp] theorem State.assign_session_session (v : Session) (s : State) : (s.assign (.session v)).session = v := rfl
@[simp] theorem State.assign_midi_session (v : Bool) (s : State) : (s.assign (.midi v)).session = s.session := rfl
@[simp] theorem State.assign_err_session (v : ResultCode) (s : State) : (s.assign (.err v)).session = s.session := rfl
@[simp] theorem State.assign_drvTp_session (v : Profile) (s : State) : (s.assign (.drvTp v)).session = s.session := rfl
@[simp] theorem State.assign_init_midi (v : Bool) (s : State) : (s.assign (.init v)).midi = s.midi := rfl
@[simp] theorem State.assign_session_midi (v : Session) (s : State) : (s.assign (.session v)).midi = s.midi := rfl
@[simp] theorem State.assign_midi_midi (v : Bool) (s : State) : (s.assign (.midi v)).midi = v := rfl
@[simp] theorem State.assign_err_midi (v : ResultCode) (s : State) : (s.assign (.err v)).midi = s.midi := rfl
@[simp] theorem State.assign_drvTp_midi (v : Profile) (s : State) : (s.assign (.drvTp v)).midi = s.midi := rfl
@[simp] theorem State.assign_init_err (v : Bool) (s : State) : (s.assign (.init v)).err = s.err := rfl
@[simp] theorem State.assign_session_err (v : Session) (s : State) : (s.assign (.session v)).err = s.err := rfl
@[simp] theorem State.assign_midi_err (v : Bool) (s : State) : (s.assign (.midi v)).err = s.err := rfl
@[simp] theorem State.assign_err_err (v : ResultCode) (s : State) : (s.assign (.err v)).err = v := rfl
@[simp] theorem State.assign_drvTp_err (v : Profile) (s : State) : (s.assign (.drvTp v)).err = s.err := rfl
@[simp] theorem State.assign_fault (a : Assign) (s : State) : (s.assign a).fault = s.fault := by
  cases a <;> rfl
@[simp] theorem State.assign_init_drvTp (v : Bool) (s : State) : (s.assign (.init v)).drvTp = s.drvTp := rfl
@[simp] theorem State.assign_session_drvTp (v : Session) (s : State) : (s.assign (.session v)).drvTp = s.drvTp := rfl
@[simp] theorem State.assign_midi_drvTp (v : Bool) (s : State) : (s.assign (.midi v)).drvTp = s.drvTp := rfl
@[simp] theorem State.assign_err_drvTp (v : ResultCode) (s : State) : (s.assign (.err v)).drvTp = s.drvTp := rfl
@[simp] theorem State.assign_drvTp_drvTp (v : Profile) (s : State) : (s.assign (.drvTp v)).drvTp = v := rfl
@[simp] theorem State.assign_tpSave (a : Assign) (s : State) : (s.assign a).tpSave = s.tpSave := by
  cases a <;> rfl
@[simp] theorem State.assign_xcs (a : Assign) (s : State) : (s.assign a).xcs = s.xcs := by
  cases a <;> rfl
@[simp] theorem State.assign_xdcs (a : Assign) (s : State) : (s.assign a).xdcs = s.xdcs := by
  cases a <;> rfl
@[simp] theorem State.assign_xreset (a : Assign) (s : State) : (s.assign a).xreset = s.xreset := by
  cases a <;> rfl
@[simp] theorem State.assign_din (a : Assign) (s : State) : (s.assign a).din = s.din := by
  cases a <;> rfl
@[simp] theorem State.assign_dout (a : Assign) (s : State) : (s.assign a).dout = s.dout := by
  cases a <;> rfl
@[simp] theorem State.assign_tp (a : Assign) (s : State) : (s.assign a).tp = s.tp := by
  cases a <;> rfl
@[simp] theorem State.assign_trace (a : Assign) (s : State) : (s.assign a).trace = s.trace := by
  cases a <;> rfl
@[simp] theorem State.assign_sched (a : Assign) (s : State) : (s.assign a).sched = s.sched := by
  cases a <;> rfl
@[simp] theorem State.assign_dreqIn (a : Assign) (s : State) : (s.assign a).dreqIn = s.dreqIn := by
  cases a <;> rfl
@[simp] theorem State.assign_misoIn (a : Assign) (s : State) : (s.assign a).misoIn = s.misoIn := by
  cases a <;> rfl
@[simp] theorem State.assign_draws (a : Assign) (s : State) : (s.assign a).draws = s.draws := by
  cases a <;> rfl
@[simp] theorem State.controllerReset_cfg (s : State) : s.controllerReset.cfg = s.cfg := rfl
@[simp] theorem State.controllerReset_phase (s : State) : s.controllerReset.phase = .ready := rfl
@[simp] theorem State.controllerReset_init (s : State) : s.controllerReset.init = false := rfl
@[simp] theorem State.controllerReset_session (s : State) : s.controllerReset.session = .idle := rfl
@[simp] theorem State.controllerReset_midi (s : State) : s.controllerReset.midi = false := rfl
@[simp] theorem State.controllerReset_err (s : State) : s.controllerReset.err = .ok := rfl
@[simp] theorem State.controllerReset_fault (s : State) : s.controllerReset.fault = false := rfl
@[simp] theorem State.controllerReset_drvTp (s : State) : s.controllerReset.drvTp = s.cfg.tpInit := rfl
@[simp] theorem State.controllerReset_tpSave (s : State) : s.controllerReset.tpSave = none := rfl
@[simp] theorem State.controllerReset_xcs (s : State) : s.controllerReset.xcs = true := rfl
@[simp] theorem State.controllerReset_xdcs (s : State) : s.controllerReset.xdcs = true := rfl
@[simp] theorem State.controllerReset_xreset (s : State) : s.controllerReset.xreset = s.cfg.resetActive := rfl
@[simp] theorem State.controllerReset_din (s : State) : s.controllerReset.din = [] := rfl
@[simp] theorem State.controllerReset_dout (s : State) : s.controllerReset.dout = [] := rfl
@[simp] theorem State.controllerReset_tp (s : State) : s.controllerReset.tp = s.tp := rfl
@[simp] theorem State.controllerReset_trace (s : State) : s.controllerReset.trace = s.trace ++ resetEvents s.cfg := rfl
@[simp] theorem State.controllerReset_sched (s : State) : s.controllerReset.sched = s.sched := rfl
@[simp] theorem State.controllerReset_dreqIn (s : State) : s.controllerReset.dreqIn = s.dreqIn := rfl
@[simp] theorem State.controllerReset_misoIn (s : State) : s.controllerReset.misoIn = s.misoIn := rfl
@[simp] theorem State.controllerReset_draws (s : State) : s.controllerReset.draws = s.draws := rfl

/-! ## The profile and the channels: `State.tpWrite`, `tpCapture`, `tpRestore`, `dinPop`, `doutPush` -/

@[simp] theorem State.tpWrite_cfg (p : Profile) (s : State) : (s.tpWrite p).cfg = s.cfg := rfl
@[simp] theorem State.tpWrite_phase (p : Profile) (s : State) : (s.tpWrite p).phase = s.phase := rfl
@[simp] theorem State.tpWrite_init (p : Profile) (s : State) : (s.tpWrite p).init = s.init := rfl
@[simp] theorem State.tpWrite_session (p : Profile) (s : State) : (s.tpWrite p).session = s.session := rfl
@[simp] theorem State.tpWrite_midi (p : Profile) (s : State) : (s.tpWrite p).midi = s.midi := rfl
@[simp] theorem State.tpWrite_err (p : Profile) (s : State) : (s.tpWrite p).err = s.err := rfl
@[simp] theorem State.tpWrite_fault (p : Profile) (s : State) : (s.tpWrite p).fault = s.fault := rfl
@[simp] theorem State.tpWrite_drvTp (p : Profile) (s : State) : (s.tpWrite p).drvTp = s.drvTp := rfl
@[simp] theorem State.tpWrite_tpSave (p : Profile) (s : State) : (s.tpWrite p).tpSave = s.tpSave := rfl
@[simp] theorem State.tpWrite_xcs (p : Profile) (s : State) : (s.tpWrite p).xcs = s.xcs := rfl
@[simp] theorem State.tpWrite_xdcs (p : Profile) (s : State) : (s.tpWrite p).xdcs = s.xdcs := rfl
@[simp] theorem State.tpWrite_xreset (p : Profile) (s : State) : (s.tpWrite p).xreset = s.xreset := rfl
@[simp] theorem State.tpWrite_din (p : Profile) (s : State) : (s.tpWrite p).din = s.din := rfl
@[simp] theorem State.tpWrite_dout (p : Profile) (s : State) : (s.tpWrite p).dout = s.dout := rfl
@[simp] theorem State.tpWrite_tp (p : Profile) (s : State) : (s.tpWrite p).tp = p := rfl
@[simp] theorem State.tpWrite_trace (p : Profile) (s : State) : (s.tpWrite p).trace = s.trace ++ [.tpSet p] := rfl
@[simp] theorem State.tpWrite_sched (p : Profile) (s : State) : (s.tpWrite p).sched = s.sched := rfl
@[simp] theorem State.tpWrite_dreqIn (p : Profile) (s : State) : (s.tpWrite p).dreqIn = s.dreqIn := rfl
@[simp] theorem State.tpWrite_misoIn (p : Profile) (s : State) : (s.tpWrite p).misoIn = s.misoIn := rfl
@[simp] theorem State.tpWrite_draws (p : Profile) (s : State) : (s.tpWrite p).draws = s.draws := rfl
@[simp] theorem State.tpCapture_cfg (s : State) : (s.tpCapture).cfg = s.cfg := rfl
@[simp] theorem State.tpCapture_phase (s : State) : (s.tpCapture).phase = s.phase := rfl
@[simp] theorem State.tpCapture_init (s : State) : (s.tpCapture).init = s.init := rfl
@[simp] theorem State.tpCapture_session (s : State) : (s.tpCapture).session = s.session := rfl
@[simp] theorem State.tpCapture_midi (s : State) : (s.tpCapture).midi = s.midi := rfl
@[simp] theorem State.tpCapture_err (s : State) : (s.tpCapture).err = s.err := rfl
@[simp] theorem State.tpCapture_fault (s : State) : (s.tpCapture).fault = s.fault := rfl
@[simp] theorem State.tpCapture_drvTp (s : State) : (s.tpCapture).drvTp = s.drvTp := rfl
@[simp] theorem State.tpCapture_tpSave (s : State) : (s.tpCapture).tpSave = some s.tp := rfl
@[simp] theorem State.tpCapture_xcs (s : State) : (s.tpCapture).xcs = s.xcs := rfl
@[simp] theorem State.tpCapture_xdcs (s : State) : (s.tpCapture).xdcs = s.xdcs := rfl
@[simp] theorem State.tpCapture_xreset (s : State) : (s.tpCapture).xreset = s.xreset := rfl
@[simp] theorem State.tpCapture_din (s : State) : (s.tpCapture).din = s.din := rfl
@[simp] theorem State.tpCapture_dout (s : State) : (s.tpCapture).dout = s.dout := rfl
@[simp] theorem State.tpCapture_tp (s : State) : (s.tpCapture).tp = s.tp := rfl
@[simp] theorem State.tpCapture_trace (s : State) : (s.tpCapture).trace = s.trace ++ [.tpGet s.tp] := rfl
@[simp] theorem State.tpCapture_sched (s : State) : (s.tpCapture).sched = s.sched := rfl
@[simp] theorem State.tpCapture_dreqIn (s : State) : (s.tpCapture).dreqIn = s.dreqIn := rfl
@[simp] theorem State.tpCapture_misoIn (s : State) : (s.tpCapture).misoIn = s.misoIn := rfl
@[simp] theorem State.tpCapture_draws (s : State) : (s.tpCapture).draws = s.draws := rfl
@[simp] theorem State.tpRestore_cfg (p : Profile) (s : State) : (s.tpRestore p).cfg = s.cfg := rfl
@[simp] theorem State.tpRestore_phase (p : Profile) (s : State) : (s.tpRestore p).phase = s.phase := rfl
@[simp] theorem State.tpRestore_init (p : Profile) (s : State) : (s.tpRestore p).init = s.init := rfl
@[simp] theorem State.tpRestore_session (p : Profile) (s : State) : (s.tpRestore p).session = s.session := rfl
@[simp] theorem State.tpRestore_midi (p : Profile) (s : State) : (s.tpRestore p).midi = s.midi := rfl
@[simp] theorem State.tpRestore_err (p : Profile) (s : State) : (s.tpRestore p).err = s.err := rfl
@[simp] theorem State.tpRestore_fault (p : Profile) (s : State) : (s.tpRestore p).fault = s.fault := rfl
@[simp] theorem State.tpRestore_drvTp (p : Profile) (s : State) : (s.tpRestore p).drvTp = s.drvTp := rfl
@[simp] theorem State.tpRestore_tpSave (p : Profile) (s : State) : (s.tpRestore p).tpSave = none := rfl
@[simp] theorem State.tpRestore_xcs (p : Profile) (s : State) : (s.tpRestore p).xcs = s.xcs := rfl
@[simp] theorem State.tpRestore_xdcs (p : Profile) (s : State) : (s.tpRestore p).xdcs = s.xdcs := rfl
@[simp] theorem State.tpRestore_xreset (p : Profile) (s : State) : (s.tpRestore p).xreset = s.xreset := rfl
@[simp] theorem State.tpRestore_din (p : Profile) (s : State) : (s.tpRestore p).din = s.din := rfl
@[simp] theorem State.tpRestore_dout (p : Profile) (s : State) : (s.tpRestore p).dout = s.dout := rfl
@[simp] theorem State.tpRestore_tp (p : Profile) (s : State) : (s.tpRestore p).tp = p := rfl
@[simp] theorem State.tpRestore_trace (p : Profile) (s : State) : (s.tpRestore p).trace = s.trace ++ [.tpSet p] := rfl
@[simp] theorem State.tpRestore_sched (p : Profile) (s : State) : (s.tpRestore p).sched = s.sched := rfl
@[simp] theorem State.tpRestore_dreqIn (p : Profile) (s : State) : (s.tpRestore p).dreqIn = s.dreqIn := rfl
@[simp] theorem State.tpRestore_misoIn (p : Profile) (s : State) : (s.tpRestore p).misoIn = s.misoIn := rfl
@[simp] theorem State.tpRestore_draws (p : Profile) (s : State) : (s.tpRestore p).draws = s.draws := rfl
@[simp] theorem State.dinPop_cfg (b : Byte) (bs : List Byte) (s : State) : (s.dinPop b bs).cfg = s.cfg := rfl
@[simp] theorem State.dinPop_phase (b : Byte) (bs : List Byte) (s : State) : (s.dinPop b bs).phase = s.phase := rfl
@[simp] theorem State.dinPop_init (b : Byte) (bs : List Byte) (s : State) : (s.dinPop b bs).init = s.init := rfl
@[simp] theorem State.dinPop_session (b : Byte) (bs : List Byte) (s : State) : (s.dinPop b bs).session = s.session := rfl
@[simp] theorem State.dinPop_midi (b : Byte) (bs : List Byte) (s : State) : (s.dinPop b bs).midi = s.midi := rfl
@[simp] theorem State.dinPop_err (b : Byte) (bs : List Byte) (s : State) : (s.dinPop b bs).err = s.err := rfl
@[simp] theorem State.dinPop_fault (b : Byte) (bs : List Byte) (s : State) : (s.dinPop b bs).fault = s.fault := rfl
@[simp] theorem State.dinPop_drvTp (b : Byte) (bs : List Byte) (s : State) : (s.dinPop b bs).drvTp = s.drvTp := rfl
@[simp] theorem State.dinPop_tpSave (b : Byte) (bs : List Byte) (s : State) : (s.dinPop b bs).tpSave = s.tpSave := rfl
@[simp] theorem State.dinPop_xcs (b : Byte) (bs : List Byte) (s : State) : (s.dinPop b bs).xcs = s.xcs := rfl
@[simp] theorem State.dinPop_xdcs (b : Byte) (bs : List Byte) (s : State) : (s.dinPop b bs).xdcs = s.xdcs := rfl
@[simp] theorem State.dinPop_xreset (b : Byte) (bs : List Byte) (s : State) : (s.dinPop b bs).xreset = s.xreset := rfl
@[simp] theorem State.dinPop_din (b : Byte) (bs : List Byte) (s : State) : (s.dinPop b bs).din = bs := rfl
@[simp] theorem State.dinPop_dout (b : Byte) (bs : List Byte) (s : State) : (s.dinPop b bs).dout = s.dout := rfl
@[simp] theorem State.dinPop_tp (b : Byte) (bs : List Byte) (s : State) : (s.dinPop b bs).tp = s.tp := rfl
@[simp] theorem State.dinPop_trace (b : Byte) (bs : List Byte) (s : State) : (s.dinPop b bs).trace = s.trace ++ [.din b] := rfl
@[simp] theorem State.dinPop_sched (b : Byte) (bs : List Byte) (s : State) : (s.dinPop b bs).sched = s.sched := rfl
@[simp] theorem State.dinPop_dreqIn (b : Byte) (bs : List Byte) (s : State) : (s.dinPop b bs).dreqIn = s.dreqIn := rfl
@[simp] theorem State.dinPop_misoIn (b : Byte) (bs : List Byte) (s : State) : (s.dinPop b bs).misoIn = s.misoIn := rfl
@[simp] theorem State.dinPop_draws (b : Byte) (bs : List Byte) (s : State) : (s.dinPop b bs).draws = s.draws := rfl
@[simp] theorem State.doutPush_cfg (w : Word) (s : State) : (s.doutPush w).cfg = s.cfg := rfl
@[simp] theorem State.doutPush_phase (w : Word) (s : State) : (s.doutPush w).phase = s.phase := rfl
@[simp] theorem State.doutPush_init (w : Word) (s : State) : (s.doutPush w).init = s.init := rfl
@[simp] theorem State.doutPush_session (w : Word) (s : State) : (s.doutPush w).session = s.session := rfl
@[simp] theorem State.doutPush_midi (w : Word) (s : State) : (s.doutPush w).midi = s.midi := rfl
@[simp] theorem State.doutPush_err (w : Word) (s : State) : (s.doutPush w).err = s.err := rfl
@[simp] theorem State.doutPush_fault (w : Word) (s : State) : (s.doutPush w).fault = s.fault := rfl
@[simp] theorem State.doutPush_drvTp (w : Word) (s : State) : (s.doutPush w).drvTp = s.drvTp := rfl
@[simp] theorem State.doutPush_tpSave (w : Word) (s : State) : (s.doutPush w).tpSave = s.tpSave := rfl
@[simp] theorem State.doutPush_xcs (w : Word) (s : State) : (s.doutPush w).xcs = s.xcs := rfl
@[simp] theorem State.doutPush_xdcs (w : Word) (s : State) : (s.doutPush w).xdcs = s.xdcs := rfl
@[simp] theorem State.doutPush_xreset (w : Word) (s : State) : (s.doutPush w).xreset = s.xreset := rfl
@[simp] theorem State.doutPush_din (w : Word) (s : State) : (s.doutPush w).din = s.din := rfl
@[simp] theorem State.doutPush_dout (w : Word) (s : State) : (s.doutPush w).dout = s.dout ++ [w] := rfl
@[simp] theorem State.doutPush_tp (w : Word) (s : State) : (s.doutPush w).tp = s.tp := rfl
@[simp] theorem State.doutPush_trace (w : Word) (s : State) : (s.doutPush w).trace = s.trace ++ [.dout w] := rfl
@[simp] theorem State.doutPush_sched (w : Word) (s : State) : (s.doutPush w).sched = s.sched := rfl
@[simp] theorem State.doutPush_dreqIn (w : Word) (s : State) : (s.doutPush w).dreqIn = s.dreqIn := rfl
@[simp] theorem State.doutPush_misoIn (w : Word) (s : State) : (s.doutPush w).misoIn = s.misoIn := rfl
@[simp] theorem State.doutPush_draws (w : Word) (s : State) : (s.doutPush w).draws = s.draws := rfl

/-! ## The views -/

theorem State.busMode_idle_iff (s : State) : s.busMode = .idle ↔ s.xcs = true ∧ s.xdcs = true := by
  unfold State.busMode; split <;> simp_all

theorem State.busMode_data_iff (s : State) : s.busMode = .data ↔ s.xcs = true ∧ s.xdcs = false := by
  unfold State.busMode; split <;> simp_all

theorem State.busMode_control_iff (s : State) : s.busMode = .control ↔ s.xcs = false ∧ s.xdcs = true := by
  unfold State.busMode; split <;> simp_all

theorem State.busMode_forbidden_iff (s : State) : s.busMode = .forbidden ↔ s.xcs = false ∧ s.xdcs = false := by
  unfold State.busMode; split <;> simp_all

theorem State.tpHeld_eq_false_iff (s : State) : s.tpHeld = false ↔ s.tpSave = none := by
  simp [State.tpHeld]

theorem State.cmdReady_iff (s : State) : s.cmdReady = true ↔ s.phase = .ready := by
  simp [State.cmdReady]

/-! ## The rejection of a word that spells no command -/

@[simp] theorem State.rejectWord_eq (c : ResultCode) (s : State) : s.rejectWord c = s.finish c := rfl

end Sys2Proof.Machine
end

