-- ==== Sys2Proof/Laws/Ops.lean ====
section
/-!
SUPPORT. What each shared operation can do, said once: `settle`, `microStep`, `runCommand`, `exec`,
`controllerStep`, `step`. Later proofs cite these instead of unfolding.
-/

namespace Sys2Proof.Machine

open Sys2Proof

/-- `s` with `PHASE` at the given rest of a micro-program. -/
def State.at (s : State) (w : CmdWord) (loc : Locals) (ops : List Op) : State :=
  { s with phase := .exec w (.run loc ops) }

/-! ## `settle` -/

theorem settle_nil (w : CmdWord) (loc : Locals) (s : State) : settle w [] loc s = s.finish .ok := rfl

theorem settle_primitive {op : Op} (h : op.isPrimitive = true) (w : CmdWord) (rest : List Op) (loc : Locals)
    (s : State) : settle w (op :: rest) loc s = s.at w loc (op :: rest) := by
  simp [settle, h, State.at]

theorem settle_finish (w : CmdWord) (c : ResultCode) (rest : List Op) (loc : Locals) (s : State) :
    settle w (.finish c :: rest) loc s = s.finish c := rfl

theorem settle_assign (w : CmdWord) (a : Assign) (rest : List Op) (loc : Locals) (s : State) :
    settle w (.assign a :: rest) loc s = settle w rest loc (s.assign a) := rfl

/-- An item that `settle` replaces by its expansion. -/
def Op.isExpanded (op : Op) : Bool :=
  !op.isPrimitive && (match op with | .finish _ => false | .assign _ => false | _ => true)

theorem settle_expanded {op : Op} (h : op.isExpanded = true) (w : CmdWord) (rest : List Op) (loc : Locals)
    (s : State) :
    settle w (op :: rest) loc s =
      match op.expand s.cfg loc with
      | none => s.raiseFault .errImage
      | some (loc', []) => settle w rest loc' s
      | some (loc', op' :: ops) => s.at w loc' (op' :: ops ++ rest) := by
  cases op <;> simp_all [Op.isExpanded, Op.isPrimitive] <;> rfl

theorem settle_gone {op : Op} (h : op.isExpanded = true) {s : State} {loc loc' : Locals}
    (he : op.expand s.cfg loc = some (loc', [])) (w : CmdWord) (rest : List Op) :
    settle w (op :: rest) loc s = settle w rest loc' s := by
  rw [settle_expanded h, he]

theorem settle_opens {op : Op} (h : op.isExpanded = true) {s : State} {loc loc' : Locals} {op' : Op}
    {ops : List Op} (he : op.expand s.cfg loc = some (loc', op' :: ops)) (w : CmdWord) (rest : List Op) :
    settle w (op :: rest) loc s = s.at w loc' (op' :: ops ++ rest) := by
  rw [settle_expanded h, he]

theorem settle_faults {op : Op} (h : op.isExpanded = true) {s : State} {loc : Locals}
    (he : op.expand s.cfg loc = none) (w : CmdWord) (rest : List Op) :
    settle w (op :: rest) loc s = s.raiseFault .errImage := by
  rw [settle_expanded h, he]

/-- Every silent item is an end, an assignment or expanded. -/
theorem Op.silent_cases (op : Op) (h : op.isPrimitive = false) :
    (∃ c, op = .finish c) ∨ (∃ a, op = .assign a) ∨ op.isExpanded = true := by
  cases op <;> simp_all [Op.isPrimitive, Op.isExpanded]

/-- A loop that turns into something opens with a primitive (00_scope.md R15). -/
theorem Op.expand_opens {op : Op} {c : Config} {loc loc' : Locals} {op' : Op} {ops : List Op}
    (h : op.isExpanded = true) (he : op.expand c loc = some (loc', op' :: ops)) : op'.isPrimitive = true := by
  cases op <;> simp_all [Op.isExpanded, Op.isPrimitive, Op.expand]
  case sendGroups src n =>
    split at he <;> simp_all
    obtain ⟨_, rfl, _⟩ := he; rfl
  case sendBytes src g =>
    split at he <;> simp_all
    cases src <;> simp [DataSrc.sendNext] at he <;> (obtain ⟨_, rfl, _⟩ := he; rfl)
  case regWrites l =>
    cases l with
    | nil => simp at he
    | cons p l =>
      simp [regWrite, txnBegin] at he
      obtain ⟨_, rfl, _⟩ := he; rfl
  case readRegs a n =>
    split at he <;> simp_all [regRead, txnBegin]
    obtain ⟨_, rfl, _⟩ := he; rfl
  case imageLoop len =>
    split at he
    · simp at he
    · split at he <;> simp [nextWordDin] at he
      obtain ⟨_, rfl, _⟩ := he; rfl
  case imageSelect =>
    split at he <;> simp [regWrite, txnBegin] at he
    obtain ⟨_, rfl, _⟩ := he; rfl
  case imagePayload =>
    split at he
    · simp [nextWordDin] at he; obtain ⟨_, rfl, _⟩ := he; rfl
    · split at he <;> simp [nextWordDin] at he
      obtain ⟨_, rfl, _⟩ := he; rfl
  case imageCopy n =>
    split at he <;> simp [nextWordDin] at he
    obtain ⟨_, rfl, _⟩ := he; rfl
  case imageStore => simp [regWrite, txnBegin] at he; obtain ⟨_, rfl, _⟩ := he; rfl
  case imageRepeat =>
    split at he <;> simp [regWrite, txnBegin] at he
    obtain ⟨_, rfl, _⟩ := he; rfl
  case discard n =>
    split at he <;> simp at he
    obtain ⟨_, rfl, _⟩ := he; rfl

/-- The phase `settle` starts from does not matter. -/
theorem settle_phase (w : CmdWord) (ops : List Op) (loc : Locals) (s : State) (p : Phase) :
    settle w ops loc { s with phase := p } = settle w ops loc s := by
  induction ops generalizing loc s with
  | nil => rfl
  | cons op rest ih =>
    by_cases hp : op.isPrimitive = true
    · rw [settle_primitive hp, settle_primitive hp]; rfl
    · rcases Op.silent_cases op (by simpa using hp) with ⟨c, rfl⟩ | ⟨a, rfl⟩ | he
      · rfl
      · refine Eq.trans ?_ (ih loc (s.assign a))
        rw [settle_assign]
        cases a <;> rfl
      · rw [settle_expanded he, settle_expanded he]
        show (match op.expand s.cfg loc with | none => _ | some (loc', []) => _ | some (loc', op' :: ops) => _) = _
        split
        · rfl
        · exact ih _ _
        · rfl

theorem settle_at (w : CmdWord) (ops : List Op) (loc : Locals) (s : State) (w' : CmdWord) (loc' : Locals)
    (ops' : List Op) : settle w ops loc (s.at w' loc' ops') = settle w ops loc s := settle_phase ..

/-- All that `settle` can do: it applies assignments and then rests on a primitive, ends the command, or
raises the fault of a malformed image. -/
theorem settle_cases (w : CmdWord) (ops : List Op) (loc : Locals) (s : State) :
    ∃ as : List Assign, let s' := as.foldl (fun x a => x.assign a) s
      (∃ loc' ops', restsOnPrimitive ops' = true ∧ settle w ops loc s = s'.at w loc' ops')
      ∨ (∃ c, settle w ops loc s = s'.finish c)
      ∨ settle w ops loc s = s'.raiseFault .errImage := by
  induction ops generalizing loc s with
  | nil => exact ⟨[], .inr (.inl ⟨.ok, rfl⟩)⟩
  | cons op rest ih =>
    by_cases hp : op.isPrimitive = true
    · exact ⟨[], .inl ⟨loc, op :: rest, hp, settle_primitive hp ..⟩⟩
    · rcases Op.silent_cases op (by simpa using hp) with ⟨c, rfl⟩ | ⟨a, rfl⟩ | he
      · exact ⟨[], .inr (.inl ⟨c, rfl⟩)⟩
      · obtain ⟨as, h⟩ := ih loc (s.assign a)
        exact ⟨a :: as, by simpa [settle_assign] using h⟩
      · rw [settle_expanded he]
        split
        · exact ⟨[], .inr (.inr rfl)⟩
        · exact ih _ _
        · rename_i loc' op' ops' hx
          exact ⟨[], .inl ⟨loc', op' :: ops' ++ rest, Op.expand_opens he hx, rfl⟩⟩

/-- What `settle` leaves alone, one field at a time. -/
theorem settle_frame (w : CmdWord) (ops : List Op) (loc : Locals) (s : State) :
    (settle w ops loc s).cfg = s.cfg ∧ (settle w ops loc s).tpSave = s.tpSave
      ∧ (settle w ops loc s).xcs = s.xcs ∧ (settle w ops loc s).xdcs = s.xdcs
      ∧ (settle w ops loc s).xreset = s.xreset ∧ (settle w ops loc s).din = s.din
      ∧ (settle w ops loc s).dout = s.dout ∧ (settle w ops loc s).tp = s.tp
      ∧ (settle w ops loc s).sched = s.sched ∧ (settle w ops loc s).dreqIn = s.dreqIn
      ∧ (settle w ops loc s).misoIn = s.misoIn ∧ (settle w ops loc s).draws = s.draws := by
  induction ops generalizing loc s with
  | nil => simp [settle_nil]
  | cons op rest ih =>
    by_cases hp : op.isPrimitive = true
    · simp [settle_primitive hp, State.at]
    · rcases Op.silent_cases op (by simpa using hp) with ⟨c, rfl⟩ | ⟨a, rfl⟩ | he
      · simp [settle_finish]
      · rw [settle_assign]; simpa using ih loc (s.assign a)
      · rw [settle_expanded he]
        split
        · simp
        · exact ih _ _
        · simp [State.at]

@[simp] theorem settle_cfg (w : CmdWord) (ops : List Op) (loc : Locals) (s : State) :
    (settle w ops loc s).cfg = s.cfg := (settle_frame w ops loc s).1
@[simp] theorem settle_tpSave (w : CmdWord) (ops : List Op) (loc : Locals) (s : State) :
    (settle w ops loc s).tpSave = s.tpSave := (settle_frame w ops loc s).2.1
@[simp] theorem settle_xcs (w : CmdWord) (ops : List Op) (loc : Locals) (s : State) :
    (settle w ops loc s).xcs = s.xcs := (settle_frame w ops loc s).2.2.1
@[simp] theorem settle_xdcs (w : CmdWord) (ops : List Op) (loc : Locals) (s : State) :
    (settle w ops loc s).xdcs = s.xdcs := (settle_frame w ops loc s).2.2.2.1
@[simp] theorem settle_xreset (w : CmdWord) (ops : List Op) (loc : Locals) (s : State) :
    (settle w ops loc s).xreset = s.xreset := (settle_frame w ops loc s).2.2.2.2.1
@[simp] theorem settle_din (w : CmdWord) (ops : List Op) (loc : Locals) (s : State) :
    (settle w ops loc s).din = s.din := (settle_frame w ops loc s).2.2.2.2.2.1
@[simp] theorem settle_dout (w : CmdWord) (ops : List Op) (loc : Locals) (s : State) :
    (settle w ops loc s).dout = s.dout := (settle_frame w ops loc s).2.2.2.2.2.2.1
@[simp] theorem settle_tp (w : CmdWord) (ops : List Op) (loc : Locals) (s : State) :
    (settle w ops loc s).tp = s.tp := (settle_frame w ops loc s).2.2.2.2.2.2.2.1
@[simp] theorem settle_sched (w : CmdWord) (ops : List Op) (loc : Locals) (s : State) :
    (settle w ops loc s).sched = s.sched := (settle_frame w ops loc s).2.2.2.2.2.2.2.2.1
@[simp] theorem settle_dreqIn (w : CmdWord) (ops : List Op) (loc : Locals) (s : State) :
    (settle w ops loc s).dreqIn = s.dreqIn := (settle_frame w ops loc s).2.2.2.2.2.2.2.2.2.1
@[simp] theorem settle_misoIn (w : CmdWord) (ops : List Op) (loc : Locals) (s : State) :
    (settle w ops loc s).misoIn = s.misoIn := (settle_frame w ops loc s).2.2.2.2.2.2.2.2.2.2.1
@[simp] theorem settle_draws (w : CmdWord) (ops : List Op) (loc : Locals) (s : State) :
    (settle w ops loc s).draws = s.draws := (settle_frame w ops loc s).2.2.2.2.2.2.2.2.2.2.2

/-- `settle` records nothing, but for the `End` of a command that it ends. -/
theorem settle_trace (w : CmdWord) (ops : List Op) (loc : Locals) (s : State) :
    (settle w ops loc s).trace = s.trace ∨ ∃ c, (settle w ops loc s).trace = s.trace ++ [.done c] := by
  have fold : ∀ (as : List Assign) (x : State), (as.foldl (fun x a => x.assign a) x).trace = x.trace := by
    intro as
    induction as with
    | nil => intro x; rfl
    | cons a as ih => intro x; simp [ih]
  obtain ⟨as, ⟨loc', ops', -, h⟩ | ⟨c, h⟩ | h⟩ := settle_cases w ops loc s
  · left; rw [h]; exact fold as s
  · right; exact ⟨c, by simp [h, fold]⟩
  · right; exact ⟨.errImage, by simp [h, fold]⟩

/-! ## `exec` -/

/-- The acceptance check of a command (60_exceptions.md R302). -/
def guardOf (i : Instr) (s : State) : Option ResultCode :=
  match i with
  | .begin => none
  | .readReg _ => acceptance .any s
  | .writeReg _ _ => acceptance .any s
  | .sendBuffer _ => acceptance .any s
  | .sendZeroes _ => acceptance .any s
  | .startSong => acceptance .idle s
  | .playChunk _ => acceptance .streaming s
  | .stopSong => acceptance .streaming s
  | .loadImage _ => acceptance .any s
  | .setVolume _ => acceptance .any s
  | .beginMidi => acceptance .any s
  | .sendMidi _ _ _ => acceptance .any s
  | .printDetails => acceptance .any s

/-- The DIN payload of a command, in bytes (60_exceptions.md R305). -/
def payloadOf : Instr → Nat
  | .begin => 0
  | .readReg _ => 0
  | .writeReg _ _ => 0
  | .sendBuffer len => len.toNat
  | .sendZeroes _ => 0
  | .startSong => 0
  | .playChunk len => len.toNat
  | .stopSong => 0
  | .loadImage len => 2 * len.toNat
  | .setVolume _ => 0
  | .beginMidi => 0
  | .sendMidi _ _ _ => 0
  | .printDetails => 0

/-- The micro-program of a command (30_encoding.md R100). -/
def programOf (c : Config) : Instr → List Op
  | .begin => beginProgram c
  | .readReg addr => readRegProgram c addr
  | .writeReg addr value => writeRegProgram c addr value
  | .sendBuffer len => sendBufferProgram len
  | .sendZeroes len => sendZeroesProgram len
  | .startSong => startSongProgram c
  | .playChunk len => playChunkProgram len
  | .stopSong => stopSongProgram c
  | .loadImage len => loadImageProgram len
  | .setVolume level => setVolumeProgram c level
  | .beginMidi => beginMidiProgram c
  | .sendMidi mcmd d1 d2 => sendMidiProgram c mcmd d1 d2
  | .printDetails => printDetailsProgram c

theorem exec_eq_runCommand (i : Instr) (s : State) :
    exec i s = runCommand (guardOf i s) (payloadOf i) (programOf s.cfg i) s := by
  cases i <;> rfl

/-- Past BEGIN, with no demand on `SESSION`, a command is accepted (60_exceptions.md R302). -/
theorem acceptance_any {s : State} (hi : s.init = true) : acceptance .any s = none := by
  simp [acceptance, hi, SessionNeed.met]

/-- Past BEGIN and in session `Idle`, START_SONG is accepted (R302). -/
theorem acceptance_idle {s : State} (hi : s.init = true) (h : s.session = .idle) :
    acceptance .idle s = none := by simp [acceptance, hi, h, SessionNeed.met]

/-- Past BEGIN and in session `Streaming`, PLAY_CHUNK and STOP_SONG are accepted (R302). -/
theorem acceptance_streaming {s : State} (hi : s.init = true) (h : s.session = .streaming) :
    acceptance .streaming s = none := by simp [acceptance, hi, h, SessionNeed.met]

theorem exec_ready (i : Instr) {s : State} (h : s.phase = .ready) : exec i s = .next s := by
  rw [exec_eq_runCommand]; simp [runCommand, h]

theorem exec_halted (i : Instr) {s : State} (h : s.phase = .halted) : exec i s = .next s := by
  rw [exec_eq_runCommand]; simp [runCommand, h]

theorem exec_run (i : Instr) {s : State} {w : CmdWord} {loc : Locals} {ops : List Op}
    (h : s.phase = .exec w (.run loc ops)) : exec i s = microStep w loc ops s := by
  rw [exec_eq_runCommand]; simp [runCommand, h]

theorem exec_at (i : Instr) (s : State) (w : CmdWord) (loc : Locals) (ops : List Op) :
    exec i (s.at w loc ops) = microStep w loc ops (s.at w loc ops) := exec_run i rfl

/-- An accepted command starts its micro-program (60_exceptions.md R302). -/
theorem exec_accepts {i : Instr} {s : State} {w : CmdWord} (h : s.phase = .exec w .start)
    (hg : guardOf i s = none) : exec i s = .next (settle w (programOf s.cfg i) .blank s) := by
  rw [exec_eq_runCommand]; simp [runCommand, h, hg]

/-- A command turned away runs the rejection (60_exceptions.md R304, R305). -/
theorem exec_rejects {i : Instr} {s : State} {w : CmdWord} {c : ResultCode} (h : s.phase = .exec w .start)
    (hg : guardOf i s = some c) :
    exec i s = .next (settle w (rejectProgram c (payloadOf i)) .blank s) := by
  rw [exec_eq_runCommand]; simp [runCommand, h, hg]

/-- All that one step of a command can do. -/
theorem exec_cases (i : Instr) (s : State) :
    (s.phase = .ready ∧ exec i s = .next s) ∨ (s.phase = .halted ∧ exec i s = .next s)
      ∨ (∃ w, s.phase = .exec w .start ∧
          ((guardOf i s = none ∧ exec i s = .next (settle w (programOf s.cfg i) .blank s))
          ∨ ∃ c, guardOf i s = some c ∧
              exec i s = .next (settle w (rejectProgram c (payloadOf i)) .blank s)))
      ∨ (∃ w loc ops, s.phase = .exec w (.run loc ops) ∧ exec i s = microStep w loc ops s) := by
  rcases hp : s.phase with _ | ⟨w, _ | ⟨loc, ops⟩⟩ | _
  · exact .inl ⟨rfl, exec_ready i hp⟩
  · refine .inr (.inr (.inl ⟨w, rfl, ?_⟩))
    rcases hg : guardOf i s with _ | c
    · exact .inl ⟨rfl, exec_accepts hp hg⟩
    · exact .inr ⟨c, rfl, exec_rejects hp hg⟩
  · exact .inr (.inr (.inr ⟨w, loc, ops, rfl, exec_run i hp⟩))
  · exact .inr (.inl ⟨rfl, exec_halted i hp⟩)

/-! ## One primitive: `microStep` on each item -/

section
variable (w : CmdWord) (loc : Locals) (rest : List Op) (s : State)

theorem microStep_setLine (l : Line) (v : Level) :
    microStep w loc (.setLine l v :: rest) s = .next (settle w rest loc (s.setLine l v)) := rfl

theorem microStep_enter (l : Line) (h : s.busMode = .idle) :
    microStep w loc (.enter l :: rest) s = .next (settle w rest loc (s.setLine l true)) := by
  simp [microStep, h]

theorem microStep_await_ready (h : s.sampleReady = true) :
    microStep w loc (.awaitReady :: rest) s = .next (settle w rest loc s.afterSample) := by
  simp [microStep, h]

theorem microStep_await_busy (h : s.sampleReady = false) :
    microStep w loc (.awaitReady :: rest) s = .next s.afterSample := by
  simp [microStep, h]

theorem microStep_xfer (o : Byte) (d : ByteDst) :
    microStep w loc (.xfer o d :: rest) s =
      .next (settle w rest (loc.keep d s.misoByte) (s.afterXfer o)) := rfl

theorem microStep_tpCapture (h : s.tpSave = none) :
    microStep w loc (.tpCapture :: rest) s =
      .next (settle w rest loc s.tpCapture) := by
  simp [microStep, State.tpHeld, h]

theorem microStep_tpApply :
    microStep w loc (.tpApply :: rest) s =
      .next (settle w rest loc (s.tpWrite s.drvTp)) := rfl

theorem microStep_tpRestore {p : Profile} (h : s.tpSave = some p) :
    microStep w loc (.tpRestore :: rest) s =
      .next (settle w rest loc (s.tpRestore p)) := by
  simp [microStep, h]

theorem microStep_dinPop {b : Byte} {bs : List Byte} (d : ByteDst) (h : s.din = b :: bs) :
    microStep w loc (.dinPop d :: rest) s =
      .next (settle w rest (loc.keep d b) (s.dinPop b bs)) := by
  simp [microStep, h]

theorem microStep_dinPop_hold (d : ByteDst) (h : s.din = []) :
    microStep w loc (.dinPop d :: rest) s = .next s := by
  simp [microStep, h]

theorem microStep_dinSend {b : Byte} {bs : List Byte} (h : s.din = b :: bs) :
    microStep w loc (.dinSend :: rest) s =
      .next (settle w (.xfer b .drop :: rest) loc (s.dinPop b bs)) := by
  simp [microStep, h]

theorem microStep_dinSend_hold (h : s.din = []) : microStep w loc (.dinSend :: rest) s = .next s := by
  simp [microStep, h]

theorem microStep_doutPush (h : s.dout.length < s.cfg.doutDepth) :
    microStep w loc (.doutPush :: rest) s =
      .next (settle w rest loc (s.doutPush loc.word)) := by
  simp [microStep, Nat.not_le.mpr h]

theorem microStep_doutPush_hold (h : s.cfg.doutDepth ≤ s.dout.length) :
    microStep w loc (.doutPush :: rest) s = .next s := by
  simp [microStep, h]

end

/-- All that one primitive can do when it answers a next state: it holds, it records a busy sample and
stays where it is, or it has its effect and the micro-program goes on. -/
theorem microStep_next {w : CmdWord} {loc : Locals} {ops : List Op} {s t : State}
    (h : microStep w loc ops s = .next t) :
    t = s
    ∨ (∃ rest, ops = .awaitReady :: rest ∧ s.sampleReady = false ∧ t = s.afterSample)
    ∨ (ops = [] ∧ t = s.finish .ok)
    ∨ (∃ op rest, ops = op :: rest ∧ op.isPrimitive = false ∧ t = settle w ops loc s)
    ∨ (∃ l v rest, ops = .setLine l v :: rest ∧ t = settle w rest loc (s.setLine l v))
    ∨ (∃ l rest, ops = .enter l :: rest ∧ s.busMode = .idle ∧ t = settle w rest loc (s.setLine l true))
    ∨ (∃ rest, ops = .awaitReady :: rest ∧ s.sampleReady = true ∧ t = settle w rest loc s.afterSample)
    ∨ (∃ o d rest, ops = .xfer o d :: rest
        ∧ t = settle w rest (loc.keep d s.misoByte) (s.afterXfer o))
    ∨ (∃ rest, ops = .tpCapture :: rest ∧ s.tpSave = none
        ∧ t = settle w rest loc s.tpCapture)
    ∨ (∃ rest, ops = .tpApply :: rest
        ∧ t = settle w rest loc (s.tpWrite s.drvTp))
    ∨ (∃ p rest, ops = .tpRestore :: rest ∧ s.tpSave = some p
        ∧ t = settle w rest loc (s.tpRestore p))
    ∨ (∃ d b bs rest, ops = .dinPop d :: rest ∧ s.din = b :: bs
        ∧ t = settle w rest (loc.keep d b) (s.dinPop b bs))
    ∨ (∃ b bs rest, ops = .dinSend :: rest ∧ s.din = b :: bs
        ∧ t = settle w (.xfer b .drop :: rest) loc (s.dinPop b bs))
    ∨ (∃ rest, ops = .doutPush :: rest ∧ s.dout.length < s.cfg.doutDepth
        ∧ t = settle w rest loc (s.doutPush loc.word)) := by
  rcases ops with _ | ⟨op, rest⟩
  · cases h; exact .inr (.inr (.inl ⟨rfl, rfl⟩))
  · cases op
    case setLine l v =>
      cases h; exact .inr (.inr (.inr (.inr (.inl ⟨_, _, _, rfl, rfl⟩))))
    case enter l =>
      simp only [microStep] at h
      split at h
      · rename_i hb
        cases h; exact .inr (.inr (.inr (.inr (.inr (.inl ⟨_, _, rfl, hb, rfl⟩)))))
      · cases h
    case awaitReady =>
      simp only [microStep] at h
      split at h
      · rename_i hr
        cases h; exact .inr (.inr (.inr (.inr (.inr (.inr (.inl ⟨_, rfl, hr, rfl⟩))))))
      · rename_i hr
        cases h; exact .inr (.inl ⟨_, rfl, by simpa using hr, rfl⟩)
    case xfer o d =>
      cases h; exact .inr (.inr (.inr (.inr (.inr (.inr (.inr (.inl ⟨_, _, _, rfl, rfl⟩)))))))
    case tpCapture =>
      simp only [microStep] at h
      split at h
      · cases h
      · rename_i hh
        cases h
        exact .inr (.inr (.inr (.inr (.inr (.inr (.inr (.inr (.inl
          ⟨_, rfl, s.tpHeld_eq_false_iff.mp (by simpa using hh), rfl⟩))))))))
    case tpApply =>
      cases h
      exact .inr (.inr (.inr (.inr (.inr (.inr (.inr (.inr (.inr (.inl ⟨_, rfl, rfl⟩)))))))))
    case tpRestore =>
      simp only [microStep] at h
      split at h
      · cases h
      · rename_i p hp
        cases h
        exact .inr (.inr (.inr (.inr (.inr (.inr (.inr (.inr (.inr (.inr (.inl
          ⟨p, _, rfl, hp, rfl⟩))))))))))
    case dinPop d =>
      simp only [microStep] at h
      split at h
      · cases h; exact .inl rfl
      · rename_i b bs hd
        cases h
        exact .inr (.inr (.inr (.inr (.inr (.inr (.inr (.inr (.inr (.inr (.inr (.inl
          ⟨d, b, bs, _, rfl, hd, rfl⟩)))))))))))
    case dinSend =>
      simp only [microStep] at h
      split at h
      · cases h; exact .inl rfl
      · rename_i b bs hd
        cases h
        exact .inr (.inr (.inr (.inr (.inr (.inr (.inr (.inr (.inr (.inr (.inr (.inr (.inl
          ⟨b, bs, _, rfl, hd, rfl⟩))))))))))))
    case doutPush =>
      simp only [microStep] at h
      split at h
      · cases h; exact .inl rfl
      · rename_i hd
        cases h
        exact .inr (.inr (.inr (.inr (.inr (.inr (.inr (.inr (.inr (.inr (.inr (.inr (.inr
          ⟨_, rfl, Nat.not_le.mp hd, rfl⟩))))))))))))
    all_goals (cases h; exact .inr (.inr (.inr (.inl ⟨_, _, rfl, rfl, rfl⟩))))

/-! ## `controllerStep` and `step` -/

theorem controllerStep_exec {s : State} {w : CmdWord} {k : Pos} {i : Instr} (hp : s.phase = .exec w k)
    (hd : decode w = .ok i) : controllerStep s = exec i s := by
  simp [controllerStep, hp, hd]

theorem controllerStep_illegal {s : State} {w : CmdWord} {k : Pos} {c : ResultCode}
    (hp : s.phase = .exec w k) (hd : decode w = .error c) : controllerStep s = .next (s.rejectWord c) := by
  simp [controllerStep, hp, hd]

/-- All that the controller's step can do. -/
theorem controllerStep_cases (s : State) :
    (s.phase = .ready ∧ controllerStep s = .next s) ∨ (s.phase = .halted ∧ controllerStep s = .next s)
      ∨ (∃ w k c, s.phase = .exec w k ∧ decode w = .error c ∧ controllerStep s = .next (s.rejectWord c))
      ∨ (∃ w k i, s.phase = .exec w k ∧ decode w = .ok i ∧ controllerStep s = exec i s) := by
  rcases hp : s.phase with _ | ⟨w, k⟩ | _
  · exact .inl ⟨rfl, by simp [controllerStep, hp]⟩
  · rcases hd : decode w with c | i
    · exact .inr (.inr (.inl ⟨w, k, c, rfl, hd, controllerStep_illegal hp hd⟩))
    · exact .inr (.inr (.inr ⟨w, k, i, rfl, hd, controllerStep_exec hp hd⟩))
  · exact .inr (.inl ⟨rfl, by simp [controllerStep, hp]⟩)

/-- All that a step of the machine can do: the controller's step, with the schedule as it is or less a
turn of its own, or an enabled move of another agent. -/
theorem step_cases (s : State) :
    (step s = controllerStep s)
      ∨ (∃ rest, s.sched = .controller :: rest ∧ step s = controllerStep { s with sched := rest })
      ∨ (∃ m rest, s.sched = m :: rest ∧ m ≠ .controller ∧ m.enabled s = true
          ∧ step s = .next (m.apply { s with sched := rest })) := by
  unfold step
  split
  · exact .inl rfl
  · rename_i rest h; exact .inr (.inl ⟨rest, h, rfl⟩)
  · rename_i m rest hne h
    by_cases he : m.enabled s = true
    · refine .inr (.inr ⟨m, rest, h, ?_, he, by simp [he]⟩)
      rintro rfl; exact hne rfl
    · left; simp [he]

theorem step_alone {s : State} (h : s.sched = []) : step s = controllerStep s := by
  simp [step, h]

/-! ## The parameter `Profile` -/

/-- `value` gives values of the type. -/
theorem profile_has_value (t : ProfileType) (n : Nat) : t.has (t.value n) = true := by
  cases t with
  | upTo last => exact decide_eq_true (Nat.lt_succ_iff.mp (Nat.mod_lt n last.succ_pos))
  | unbounded => rfl

/-- Every value of the type is some number's. -/
theorem profile_value_of_has {t : ProfileType} {p : Profile} (h : t.has p = true) : t.value p.code = p := by
  cases t with
  | upTo last =>
    have : p.code < last + 1 := Nat.lt_succ_of_le (by simpa [ProfileType.has] using h)
    simp [ProfileType.value, Nat.mod_eq_of_lt this]
  | unbounded => rfl

end Sys2Proof.Machine
end

