-- ==== Sys2Proof/Laws/Words.lean ====
section
/-!
SUPPORT. The fields of a command word written as a concatenation, and every word as the concatenation of its
fields (30_encoding.md R102, R103).
-/

namespace Sys2Proof.Laws

open Sys2Proof

/-! ## A field of a concatenation -/

theorem fieldOpcode_append (o : Byte) (x : Len) : fieldOpcode (o ++ x) = o := by
  apply BitVec.eq_of_getLsbD_eq
  intro i hi
  unfold fieldOpcode
  rw [BitVec.getLsbD_extractLsb']
  erw [BitVec.getLsbD_append]
  simp [hi]

theorem fieldLen_append (o : Byte) (x : Len) : fieldLen (o ++ x) = x := by
  apply BitVec.eq_of_getLsbD_eq
  intro i hi
  unfold fieldLen
  rw [BitVec.getLsbD_extractLsb']
  erw [BitVec.getLsbD_append]
  simp [hi]

theorem fieldAddr_append (o a : Byte) (v : Word) : fieldAddr (o ++ (a ++ v : Len)) = a := by
  apply BitVec.eq_of_getLsbD_eq
  intro i hi
  unfold fieldAddr
  rw [BitVec.getLsbD_extractLsb']
  erw [BitVec.getLsbD_append, BitVec.getLsbD_append]
  simp [hi]; omega

theorem fieldValue_append (o a : Byte) (v : Word) : fieldValue (o ++ (a ++ v : Len)) = v := by
  apply BitVec.eq_of_getLsbD_eq
  intro i hi
  unfold fieldValue
  rw [BitVec.getLsbD_extractLsb']
  erw [BitVec.getLsbD_append, BitVec.getLsbD_append]
  simp [hi]; omega

theorem fieldD1_append (o a b c : Byte) : fieldD1 (o ++ (a ++ (b ++ c : Word) : Len)) = b := by
  apply BitVec.eq_of_getLsbD_eq
  intro i hi
  unfold fieldD1
  rw [BitVec.getLsbD_extractLsb']
  erw [BitVec.getLsbD_append, BitVec.getLsbD_append, BitVec.getLsbD_append]
  simp only [hi, decide_true, Bool.true_and, show 8 + i < 24 by omega, show 8 + i < 16 by omega, if_true,
    show ¬ 8 + i < 8 by omega, if_false, Nat.add_sub_cancel_left]

theorem fieldLevel_append (o : Byte) (v : Word) (c : Byte) :
    fieldLevel (o ++ (v ++ c : BitVec (16 + 8))) = c := by
  apply BitVec.eq_of_getLsbD_eq
  intro i hi
  unfold fieldLevel
  rw [BitVec.getLsbD_extractLsb']
  erw [BitVec.getLsbD_append, BitVec.getLsbD_append]
  simp only [hi, decide_true, Bool.true_and, Nat.zero_add, show i < 24 by omega, if_true]

theorem fieldLow_append (o a b c : Byte) : fieldLevel (o ++ (a ++ (b ++ c : Word) : Len)) = c := by
  apply BitVec.eq_of_getLsbD_eq
  intro i hi
  unfold fieldLevel
  rw [BitVec.getLsbD_extractLsb']
  erw [BitVec.getLsbD_append, BitVec.getLsbD_append, BitVec.getLsbD_append]
  simp only [hi, decide_true, Bool.true_and, Nat.zero_add, show i < 24 by omega, show i < 16 by omega, if_true]

theorem fieldHigh16_append (o : Byte) (v : Word) (c : Byte) :
    fieldHigh16 (o ++ (v ++ c : BitVec (16 + 8))) = v := by
  apply BitVec.eq_of_getLsbD_eq
  intro i hi
  unfold fieldHigh16
  rw [BitVec.getLsbD_extractLsb']
  erw [BitVec.getLsbD_append, BitVec.getLsbD_append]
  simp only [hi, decide_true, Bool.true_and, show 8 + i < 24 by omega, if_true, show ¬ 8 + i < 8 by omega,
    if_false, Nat.add_sub_cancel_left]

/-! ## A word as the concatenation of its fields -/

/-- Two words with the same bits are equal; the bits of a concatenation, one cut at a time. -/
theorem word_split (w : CmdWord) : (fieldOpcode w ++ fieldLen w : BitVec (8 + 24)) = w := by
  apply BitVec.eq_of_getLsbD_eq
  intro i hi
  rw [BitVec.getLsbD_append]
  unfold fieldOpcode fieldLen
  rw [BitVec.getLsbD_extractLsb', BitVec.getLsbD_extractLsb']
  by_cases h : i < 24
  · simp [h]
  · simp [h, show i - 24 < 8 by omega, show 24 + (i - 24) = i by omega]

theorem len_split (w : CmdWord) : (fieldAddr w ++ fieldValue w : BitVec (8 + 16)) = fieldLen w := by
  apply BitVec.eq_of_getLsbD_eq
  intro i hi
  rw [BitVec.getLsbD_append]
  unfold fieldAddr fieldValue fieldLen
  rw [BitVec.getLsbD_extractLsb', BitVec.getLsbD_extractLsb', BitVec.getLsbD_extractLsb']
  by_cases h : i < 16
  · simp [h, show i < 24 by omega]
  · simp [h, show i - 16 < 8 by omega, show 16 + (i - 16) = i by omega, show i < 24 by omega]

theorem value_split (w : CmdWord) : (fieldD1 w ++ fieldLevel w : BitVec (8 + 8)) = fieldValue w := by
  apply BitVec.eq_of_getLsbD_eq
  intro i hi
  rw [BitVec.getLsbD_append]
  unfold fieldD1 fieldLevel fieldValue
  rw [BitVec.getLsbD_extractLsb', BitVec.getLsbD_extractLsb', BitVec.getLsbD_extractLsb']
  by_cases h : i < 8
  · simp [h, show i < 16 by omega]
  · simp [h, show i - 8 < 8 by omega, show 8 + (i - 8) = i by omega, show i < 16 by omega]

theorem level_split (w : CmdWord) : (fieldHigh16 w ++ fieldLevel w : BitVec (16 + 8)) = fieldLen w := by
  apply BitVec.eq_of_getLsbD_eq
  intro i hi
  rw [BitVec.getLsbD_append]
  unfold fieldHigh16 fieldLevel fieldLen
  rw [BitVec.getLsbD_extractLsb', BitVec.getLsbD_extractLsb', BitVec.getLsbD_extractLsb']
  by_cases h : i < 8
  · simp [h, show i < 24 by omega]
  · simp [h, show i - 8 < 16 by omega, show 8 + (i - 8) = i by omega, show i < 24 by omega]

end Sys2Proof.Laws
end

