-- ==== Sys2Proof/Laws/PerInstr.lean ====
section
/-!
SUPPORT. Lemmas about every command, one per constructor of `Instr`: the encoding of a command is spelled by
its own row of the opcode map (30_encoding.md R105) and by no other.
-/

namespace Sys2Proof.Laws.SpelledByOwnRow

open Sys2Proof

/-- Of the rows of the opcode map, exactly the command's own spells its word (R105). -/
def Statement (i : Instr) : Prop :=
  (opcodeMap.filter fun r => r.spells (encode i)).map (fun r => r.mnemonic) = [i.mnemonic]

/-- A row that fixes the opcode byte to `op` and masks the other bits with `m` spells a word with opcode
`o` and rest `x` iff the opcodes agree and the masked rest is zero. -/
theorem spells_iff (name : String) (op o : Byte) (m x : Len) :
    OpcodeRow.spells ⟨name, op ++ (0 : Len), (0xFF : Byte) ++ m⟩ (o ++ x)
      = (decide (o = op) && decide (x &&& m = 0)) := by
  have h : (o ++ x) &&& ((0xFF : Byte) ++ m) = o ++ (x &&& m) := by
    rw [BitVec.and_append]
    congr 1
    exact BitVec.and_allOnes
  simp only [OpcodeRow.spells, h]
  rw [Bool.eq_iff_iff]
  simp only [beq_iff_eq, Bool.and_eq_true, decide_eq_true_eq]
  constructor
  · intro e
    constructor
    · simpa only [fieldOpcode_append] using congrArg fieldOpcode e
    · simpa only [fieldLen_append] using congrArg fieldLen e
  · rintro ⟨rfl, hx⟩; rw [hx]

/-- The opcode map cut into mnemonic, opcode byte and the mask of the other 24 bits. -/
def splitMap : List (String × Byte × Len) :=
  [ ("BEGIN", 0x01, 0xFFFFFF)
  , ("READ_REG", 0x02, 0x00FFFF)
  , ("WRITE_REG", 0x03, 0)
  , ("SEND_BUFFER", 0x04, 0)
  , ("SEND_ZEROES", 0x05, 0)
  , ("START_SONG", 0x06, 0xFFFFFF)
  , ("PLAY_CHUNK", 0x07, 0)
  , ("STOP_SONG", 0x08, 0xFFFFFF)
  , ("LOAD_IMAGE", 0x09, 0)
  , ("SET_VOLUME", 0x0A, 0xFFFF00)
  , ("BEGIN_MIDI", 0x0B, 0xFFFFFF)
  , ("SEND_MIDI", 0x0C, 0)
  , ("PRINT_DETAILS", 0x0D, 0xFFFFFF) ]

theorem opcodeMap_split :
    opcodeMap = splitMap.map fun r => ⟨r.1, r.2.1 ++ (0 : Len), (0xFF : Byte) ++ r.2.2⟩ := by decide

/-- Which rows spell a word, read off its opcode byte and its other bits. -/
theorem spelled (o : Byte) (x : Len) :
    (opcodeMap.filter fun r => r.spells (o ++ x)).map (fun r => r.mnemonic)
      = (splitMap.filter fun r => decide (o = r.2.1) && decide (x &&& r.2.2 = 0)).map fun r => r.1 := by
  rw [opcodeMap_split, List.filter_map, List.map_map]
  have h : ((fun r : OpcodeRow => r.spells (o ++ x))
      ∘ fun r : String × Byte × Len => OpcodeRow.mk r.1 (r.2.1 ++ (0 : Len)) ((0xFF : Byte) ++ r.2.2))
      = fun r => decide (o = r.2.1) && decide (x &&& r.2.2 = 0) := by
    funext r
    exact spells_iff ..
  rw [h]
  rfl

theorem of_rest {i : Instr} {o : Byte} {x : Len} (he : encode i = o ++ x)
    (h : ((splitMap.filter fun r => decide (o = r.2.1) && decide (x &&& r.2.2 = 0)).map fun r => r.1)
      = [i.mnemonic]) : Statement i := by
  rw [Statement, he, ← h]; exact spelled o x

theorem addr_rest (addr : Byte) : ((addr ++ 0#16 : BitVec (8 + 16)) &&& 65535#24) = 0#24 := by
  have h : 65535#24 = (0 : Byte) ++ (0xFFFF : Word) := by decide
  rw [h, BitVec.and_append]; simp
theorem level_rest (level : Byte) : ((0#16 ++ level : BitVec (16 + 8)) &&& 16776960#24) = 0#24 := by
  have h : 16776960#24 = (0xFFFF : Word) ++ (0 : Byte) := by decide
  rw [h, BitVec.and_append]; simp

theorem begin : Statement (.begin) :=
  of_rest rfl (by simp [splitMap, Instr.mnemonic])
theorem readReg (addr : Byte) : Statement (.readReg addr) :=
  of_rest rfl (by simp [splitMap, Instr.mnemonic, addr_rest])
theorem writeReg (addr : Byte) (value : Word) : Statement (.writeReg addr value) :=
  of_rest rfl (by simp [splitMap, Instr.mnemonic])
theorem sendBuffer (len : Len) : Statement (.sendBuffer len) :=
  of_rest rfl (by simp [splitMap, Instr.mnemonic])
theorem sendZeroes (len : Len) : Statement (.sendZeroes len) :=
  of_rest rfl (by simp [splitMap, Instr.mnemonic])
theorem startSong : Statement (.startSong) :=
  of_rest rfl (by simp [splitMap, Instr.mnemonic])
theorem playChunk (len : Len) : Statement (.playChunk len) :=
  of_rest rfl (by simp [splitMap, Instr.mnemonic])
theorem stopSong : Statement (.stopSong) :=
  of_rest rfl (by simp [splitMap, Instr.mnemonic])
theorem loadImage (len : Len) : Statement (.loadImage len) :=
  of_rest rfl (by simp [splitMap, Instr.mnemonic])
theorem setVolume (level : Byte) : Statement (.setVolume level) :=
  of_rest rfl (by simp [splitMap, Instr.mnemonic, level_rest])
theorem beginMidi : Statement (.beginMidi) :=
  of_rest rfl (by simp [splitMap, Instr.mnemonic])
theorem sendMidi (mcmd : Byte) (d1 : Byte) (d2 : Byte) : Statement (.sendMidi mcmd d1 d2) :=
  of_rest rfl (by simp [splitMap, Instr.mnemonic])
theorem printDetails : Statement (.printDetails) :=
  of_rest rfl (by simp [splitMap, Instr.mnemonic])

end Sys2Proof.Laws.SpelledByOwnRow
end

