-- ==== Sys2Proof/Laws/Runs.lean ====
section
/-!
SUPPORT. Runs of a command through the composite actions: the waits, the register transactions, the data
transactions and the loops, each said once, for every answer of the peripheral.
-/

namespace Sys2Proof.Machine

open Sys2Proof

/-- Command `i` takes the machine from `s` to `t` in some number of its own steps. -/
def Reach (i : Instr) (s t : State) : Prop := ∃ n, execN i n s = .next t

theorem Reach.refl (i : Instr) (s : State) : Reach i s s := ⟨0, rfl⟩

theorem execN_succ {i : Instr} {s t : State} (h : exec i s = .next t) (n : Nat) :
    execN i (n + 1) s = execN i n t := by
  simp [execN, h]

theorem Reach.step {i : Instr} {s t u : State} (h : exec i s = .next t) (r : Reach i t u) : Reach i s u := by
  obtain ⟨n, hn⟩ := r
  exact ⟨n + 1, by rw [execN_succ h, hn]⟩

theorem execN_add {i : Instr} {s t : State} {n : Nat} (h : execN i n s = .next t) (m : Nat) :
    execN i (n + m) s = execN i m t := by
  induction n generalizing s with
  | zero => cases h; simp
  | succ n ih =>
    rw [Nat.succ_add]
    simp only [execN] at h ⊢
    split at h
    · rename_i x hx; exact ih h
    · cases h
    · cases h

theorem Reach.trans {i : Instr} {s t u : State} (h : Reach i s t) (r : Reach i t u) : Reach i s u := by
  obtain ⟨n, hn⟩ := h
  obtain ⟨m, hm⟩ := r
  exact ⟨n + m, by rw [execN_add hn, hm]⟩

/-- One primitive of a run. -/
theorem Reach.micro {i : Instr} {s t u : State} {w : CmdWord} {loc : Locals} {ops : List Op}
    (h : microStep w loc ops (s.at w loc ops) = .next t) (r : Reach i t u) :
    Reach i (s.at w loc ops) u :=
  Reach.step (by rw [exec_at, h]) r

theorem settle_congr {w : CmdWord} {ops : List Op} {loc : Locals} {x y : State}
    (h : x = { y with phase := x.phase }) : settle w ops loc x = settle w ops loc y := by
  rw [h]; exact settle_phase ..

/-- `s` after the peripheral's answers were taken down to `d` and `m` and `evs` recorded. -/
def State.adv (s : State) (d : List Level) (m : List Byte) (evs : List Event) : State :=
  { s with dreqIn := d, misoIn := m, trace := s.trace ++ evs }

theorem State.adv_adv (s : State) (d d' : List Level) (m m' : List Byte) (e e' : List Event) :
    (s.adv d m e).adv d' m' e' = s.adv d' m' (e ++ e') := by
  simp [State.adv]

theorem State.adv_self (s : State) : s.adv s.dreqIn s.misoIn [] = s := by simp [State.adv]

/-! ## AwaitReady (40_line_control.md R147) -/

theorem sampleReady_of {s : State} {l : Level} {d : List Level} (h : s.dreqIn = l :: d) :
    s.sampleReady = (l == s.cfg.readyLevel) := by
  simp [State.sampleReady, State.dreqLevel, h]

theorem afterSample_of {s : State} {l : Level} {d : List Level} (h : s.dreqIn = l :: d) :
    s.afterSample = { s with dreqIn := d, trace := s.trace ++ [.ready (l == s.cfg.readyLevel)] } := by
  simp [State.afterSample, State.dreqTaken, sampleReady_of h, h, State.record]

theorem await_run (i : Instr) (w : CmdWord) (loc : Locals) (rest : List Op) (k : Nat) (d : List Level)
    (s : State) (h : s.dreqIn = samples s.cfg.readyLevel k ++ d) :
    Reach i (s.at w loc (.awaitReady :: rest)) (settle w rest loc (s.adv d s.misoIn (pollEvents k))) := by
  induction k generalizing s with
  | zero =>
    have h' : (s.at w loc (.awaitReady :: rest)).dreqIn = s.cfg.readyLevel :: d := by
      simpa [samples, State.at] using h
    refine Reach.micro (microStep_await_ready w loc rest _ ?_) ?_
    · rw [sampleReady_of h']; simp [State.at]
    · rw [afterSample_of h', settle_congr (y := s.adv d s.misoIn (pollEvents 0))]
      · exact Reach.refl ..
      · simp [State.adv, State.at, pollEvents]
  | succ k ih =>
    have h' : (s.at w loc (.awaitReady :: rest)).dreqIn
        = (!s.cfg.readyLevel) :: (samples s.cfg.readyLevel k ++ d) := by
      simpa [samples, State.at, List.replicate_succ] using h
    refine Reach.micro (microStep_await_busy w loc rest _ ?_) ?_
    · rw [sampleReady_of h']; simp [State.at]
    · rw [afterSample_of h']
      have r := ih (s.adv (samples s.cfg.readyLevel k ++ d) s.misoIn [.ready false]) rfl
      rw [State.adv_adv] at r
      simpa [State.at, State.adv, pollEvents, List.replicate_succ] using r

/-! ## One exchange -/

theorem afterXfer_of {s : State} {b : Byte} {m : List Byte} (o : Byte) (h : s.misoIn = b :: m) :
    s.afterXfer o = { s with misoIn := m, trace := s.trace ++ [.xfer o b] } := by
  simp [State.afterXfer, State.misoTaken, State.misoByte, h, State.record]

theorem misoByte_of {s : State} {b : Byte} {m : List Byte} (h : s.misoIn = b :: m) : s.misoByte = b := by
  simp [State.misoByte, h]

theorem xfer_run (i : Instr) (w : CmdWord) (loc : Locals) (rest : List Op) (o : Byte) (dst : ByteDst)
    (s : State) {b : Byte} {m : List Byte} (h : s.misoIn = b :: m) :
    Reach i (s.at w loc (.xfer o dst :: rest))
      (settle w rest (loc.keep dst b) (s.adv s.dreqIn m [.xfer o b])) := by
  have h' : (s.at w loc (.xfer o dst :: rest)).misoIn = b :: m := h
  refine Reach.micro (microStep_xfer w loc rest _ o dst) ?_
  rw [misoByte_of h', afterXfer_of o h', settle_congr (y := s.adv s.dreqIn m [.xfer o b])]
  · exact Reach.refl ..
  · simp [State.adv, State.at]

/-! ## Register transactions (41_register_access.md R170, R172) -/

/-- The four exchanges of a register frame and what is kept of the last two. -/
def regFrame (o0 o1 o2 o3 : Byte) (d2 d3 : ByteDst) : List Op :=
  [.xfer o0 .drop, .xfer o1 .drop, .xfer o2 d2, .xfer o3 d3]

/-- A register transaction on any frame. -/
def regTxn (o0 o1 o2 o3 : Byte) (d2 d3 : ByteDst) : List Op :=
  txnBegin ++ [.awaitReady] ++ enterControl ++ regFrame o0 o1 o2 o3 d2 d3 ++ exitControl ++ txnEnd

theorem regTxn_cons (o0 o1 o2 o3 : Byte) (d2 d3 : ByteDst) (rest : List Op) :
    regTxn o0 o1 o2 o3 d2 d3 ++ rest =
      .tpCapture :: .tpApply :: .awaitReady :: .enter .xdcs :: .setLine .xcs false :: .xfer o0 .drop
        :: .xfer o1 .drop :: .xfer o2 d2 :: .xfer o3 d3 :: .setLine .xcs true :: .tpRestore :: rest := rfl

theorem regWrite_eq (c : Config) (a : Byte) (v : Word) :
    regWrite c a v = regTxn c.sciOpWrite a (byteHi v) (byteLo v) .drop .drop := rfl

theorem regRead_eq (c : Config) (a : Byte) :
    regRead c a = regTxn c.sciOpRead a c.dummyByte c.dummyByte .hi .lo := rfl

theorem regTxn_run (i : Instr) (w : CmdWord) (loc : Locals) (rest : List Op) (o0 o1 o2 o3 : Byte)
    (d2 d3 : ByteDst) (s : State) (r : Reply) (d : List Level) (m : List Byte)
    (hx : s.xcs = true) (hd : s.xdcs = true) (ht : s.tpSave = none)
    (hdr : s.dreqIn = samples s.cfg.readyLevel r.busy ++ d)
    (hm : s.misoIn = [r.b0, r.b1, r.b2, r.b3] ++ m) :
    Reach i (s.at w loc (regTxn o0 o1 o2 o3 d2 d3 ++ rest))
      (settle w rest ((loc.keep d2 r.b2).keep d3 r.b3)
        (s.adv d m (regTxnEvents s.tp s.drvTp o0 o1 o2 o3 r))) := by
  obtain ⟨cfg, phase, init, session, midi, err, fault, drvTp, tpSave, xcs, xdcs, xreset, din, dout, tp,
    trace, sched, dreqIn, misoIn, draws⟩ := s
  simp only at hx hd ht hdr hm
  subst hx hd ht hdr hm
  rw [regTxn_cons]
  refine Reach.micro (microStep_tpCapture w loc _ _ rfl) ?_
  rw [settle_primitive rfl]
  refine Reach.micro (microStep_tpApply w loc _ _) ?_
  rw [settle_primitive rfl]
  refine (await_run i w loc _ r.busy d _ rfl).trans ?_
  rw [settle_primitive rfl]
  refine Reach.micro (microStep_enter w loc _ _ _ rfl) ?_
  rw [settle_primitive rfl]
  refine Reach.micro (microStep_setLine w loc _ _ _ _) ?_
  rw [settle_primitive rfl]
  refine (xfer_run i w _ _ _ _ _ rfl).trans ?_
  rw [settle_primitive rfl]
  refine (xfer_run i w _ _ _ _ _ rfl).trans ?_
  rw [settle_primitive rfl]
  refine (xfer_run i w _ _ _ _ _ rfl).trans ?_
  rw [settle_primitive rfl]
  refine (xfer_run i w _ _ _ _ _ rfl).trans ?_
  rw [settle_primitive rfl]
  refine Reach.micro (microStep_setLine w _ _ _ _ _) ?_
  rw [settle_primitive rfl]
  refine Reach.micro (microStep_tpRestore w _ _ _ rfl) ?_
  rw [settle_congr]
  · exact Reach.refl ..
  · simp [State.at, State.adv, State.record, State.setLine, State.tpCapture, State.tpWrite,
      State.tpRestore, regTxnEvents]

/-! ## The loops of register transactions -/

/-- Outside every transaction: both selects high, no profile held. -/
def State.outside (s : State) : Prop := s.xcs = true ∧ s.xdcs = true ∧ s.tpSave = none

theorem State.outside_of_start {s : State} (h : s.atStart) : s.outside := by
  obtain ⟨-, hb, ht⟩ := h
  exact ⟨(s.busMode_idle_iff.mp hb).1, (s.busMode_idle_iff.mp hb).2, ht⟩

theorem regTxn_opens (o0 o1 o2 o3 : Byte) (d2 d3 : ByteDst) (w : CmdWord) (rest : List Op) (loc : Locals)
    (s : State) :
    settle w (regTxn o0 o1 o2 o3 d2 d3 ++ rest) loc s = s.at w loc (regTxn o0 o1 o2 o3 d2 d3 ++ rest) := by
  rw [regTxn_cons]; exact settle_primitive rfl ..

/-- One register write of a micro-program, whatever comes before `PHASE` rests on it. -/
theorem regWrite_run (i : Instr) (w : CmdWord) (loc : Locals) (rest : List Op) (a : Byte) (v : Word)
    (s : State) (r : Reply) (d : List Level) (m : List Byte) (ho : s.outside)
    (hdr : s.dreqIn = samples s.cfg.readyLevel r.busy ++ d)
    (hm : s.misoIn = [r.b0, r.b1, r.b2, r.b3] ++ m) :
    Reach i (settle w (regWrite s.cfg a v ++ rest) loc s)
      (settle w rest loc (s.adv d m (writeEvents s.cfg s.tp s.drvTp a v r))) := by
  rw [regWrite_eq, regTxn_opens]
  exact regTxn_run i w loc rest _ _ _ _ _ _ s r d m ho.1 ho.2.1 ho.2.2 hdr hm

theorem regRead_run (i : Instr) (w : CmdWord) (loc : Locals) (rest : List Op) (a : Byte)
    (s : State) (r : Reply) (d : List Level) (m : List Byte) (ho : s.outside)
    (hdr : s.dreqIn = samples s.cfg.readyLevel r.busy ++ d)
    (hm : s.misoIn = [r.b0, r.b1, r.b2, r.b3] ++ m) :
    Reach i (settle w (regRead s.cfg a ++ rest) loc s)
      (settle w rest { loc with hi := r.b2, lo := r.b3 }
        (s.adv d m (readEvents s.cfg s.tp s.drvTp a r))) := by
  rw [regRead_eq, regTxn_opens]
  exact regTxn_run i w loc rest _ _ _ _ _ _ s r d m ho.1 ho.2.1 ho.2.2 hdr hm

theorem settle_regWrites_nil (w : CmdWord) (rest : List Op) (loc : Locals) (s : State) :
    settle w (.regWrites [] :: rest) loc s = settle w rest loc s := settle_gone rfl rfl ..

theorem settle_regWrites_cons (w : CmdWord) (rest : List Op) (loc : Locals) (s : State) (a : Byte) (v : Word)
    (l : List (Byte × Word)) :
    settle w (.regWrites ((a, v) :: l) :: rest) loc s
      = settle w (regWrite s.cfg a v ++ .regWrites l :: rest) loc s := by
  rw [settle_opens (s := s) rfl rfl, regWrite_eq, regTxn_opens]
  simp; rfl

theorem replyLevels_cons (l : Level) (r : Reply) (rs : List Reply) :
    replyLevels l (r :: rs) = samples l r.busy ++ replyLevels l rs := rfl

theorem replyBytes_cons (r : Reply) (rs : List Reply) :
    replyBytes (r :: rs) = [r.b0, r.b1, r.b2, r.b3] ++ replyBytes rs := rfl

theorem regWrites_run (i : Instr) (w : CmdWord) (loc : Locals) (rest : List Op) (l : List (Byte × Word))
    (s : State) (rs : List Reply) (d : List Level) (m : List Byte) (ho : s.outside)
    (hl : rs.length = l.length) (ha : s.answersRegs rs d m) :
    Reach i (settle w (.regWrites l :: rest) loc s)
      (settle w rest loc (s.adv d m (writesEvents s.cfg s.tp s.drvTp l rs))) := by
  induction l generalizing s rs with
  | nil =>
    obtain rfl : rs = [] := List.length_eq_zero_iff.mp hl
    obtain ⟨hd, hm⟩ := ha
    simp only [replyLevels, replyBytes, List.flatMap_nil, List.nil_append] at hd hm
    subst hd hm
    rw [settle_regWrites_nil, writesEvents, State.adv_self]
    · exact Reach.refl ..
    · simp
  | cons p l ih =>
    obtain ⟨a, v⟩ := p
    rcases rs with _ | ⟨r, rs⟩
    · simp at hl
    · obtain ⟨hd, hm⟩ := ha
      rw [replyLevels_cons, List.append_assoc] at hd
      rw [replyBytes_cons, List.append_assoc] at hm
      rw [settle_regWrites_cons]
      refine (regWrite_run i w loc _ a v s r _ _ ho hd hm).trans ?_
      have r' := ih (s.adv (replyLevels s.cfg.readyLevel rs ++ d) (replyBytes rs ++ m)
        (writeEvents s.cfg s.tp s.drvTp a v r)) rs ho (by simpa using hl) ⟨rfl, rfl⟩
      rw [State.adv_adv] at r'
      exact r'

/-- A read and the push of its value on DOUT (41_register_access.md R171, R175). -/
theorem readPush_run (i : Instr) (w : CmdWord) (loc : Locals) (rest : List Op) (a : Byte)
    (s : State) (r : Reply) (d : List Level) (m : List Byte) (ho : s.outside)
    (hdr : s.dreqIn = samples s.cfg.readyLevel r.busy ++ d)
    (hm : s.misoIn = [r.b0, r.b1, r.b2, r.b3] ++ m) (hc : s.dout.length < s.cfg.doutDepth) :
    Reach i (settle w (regRead s.cfg a ++ .doutPush :: rest) loc s)
      (settle w rest { loc with hi := r.b2, lo := r.b3 }
        { s.adv d m (readEvents s.cfg s.tp s.drvTp a r ++ [.dout (joinBytes r.b2 r.b3)]) with
          dout := s.dout ++ [joinBytes r.b2 r.b3] }) := by
  refine (regRead_run i w loc _ a s r d m ho hdr hm).trans ?_
  rw [settle_primitive rfl]
  refine Reach.micro (microStep_doutPush w _ _ _ hc) ?_
  rw [settle_congr]
  · exact Reach.refl ..
  · simp [State.at, State.adv, State.doutPush, State.record, Locals.word]

theorem readRegs_run (i : Instr) (w : CmdWord) (loc : Locals) (rest : List Op) (a : Nat)
    (s : State) (rs : List Reply) (d : List Level) (m : List Byte) (ho : s.outside)
    (ha : s.answersRegs rs d m) (hc : s.dout.length + rs.length ≤ s.cfg.doutDepth) :
    ∃ loc', Reach i (settle w (.readRegs a rs.length :: rest) loc s)
      (settle w rest loc' { s.adv d m (dumpEvents s.cfg s.tp s.drvTp a rs) with
        dout := s.dout ++ rs.map (fun r => joinBytes r.b2 r.b3) }) := by
  induction rs generalizing a s loc with
  | nil =>
    obtain ⟨hd, hm⟩ := ha
    simp only [replyLevels, replyBytes, List.flatMap_nil, List.nil_append] at hd hm
    refine ⟨loc, ?_⟩
    rw [settle_gone (s := s) (loc' := loc) rfl (by simp [Op.expand]), settle_congr]
    · exact Reach.refl ..
    · simp [State.adv, dumpEvents, ← hd, ← hm]
  | cons r rs ih =>
    obtain ⟨hd, hm⟩ := ha
    rw [replyLevels_cons, List.append_assoc] at hd
    rw [replyBytes_cons, List.append_assoc] at hm
    have hc' : s.dout.length < s.cfg.doutDepth := by simp at hc; omega
    have h1 := readPush_run i w loc (.readRegs (a + 1) rs.length :: rest) (BitVec.ofNat 8 a) s r _ _ ho hd hm hc'
    obtain ⟨loc', h2⟩ := ih { loc with hi := r.b2, lo := r.b3 } (a + 1)
      { s.adv (replyLevels s.cfg.readyLevel rs ++ d) (replyBytes rs ++ m)
          (readEvents s.cfg s.tp s.drvTp (BitVec.ofNat 8 a) r ++ [.dout (joinBytes r.b2 r.b3)]) with
        dout := s.dout ++ [joinBytes r.b2 r.b3] } ho ⟨rfl, rfl⟩ (by simp [State.adv] at hc ⊢; omega)
    refine ⟨loc', ?_⟩
    have h3 := h1.trans h2
    have e1 : settle w (.readRegs a (r :: rs).length :: rest) loc s
        = settle w (regRead s.cfg (BitVec.ofNat 8 a) ++ .doutPush :: .readRegs (a + 1) rs.length :: rest) loc s := by
      rw [settle_opens (s := s) (loc' := loc) (op' := .tpCapture) rfl (by simp [Op.expand]; rfl), regRead_eq,
        regTxn_opens]
      rfl
    rw [e1]
    exact (congrArg (Reach i _) (settle_congr (by simp [State.adv, dumpEvents]))).mp h3

/-! ## Data transactions (42_streaming.md R190) -/

/-- A byte source gives the bytes `bs` and takes DIN from `din` to `din'`. -/
def DataSrc.gives (src : DataSrc) (bs din din' : List Byte) : Prop :=
  match src with
  | .din => din = bs ++ din'
  | .zero => (∀ b ∈ bs, b = 0) ∧ din = din'
  | .frame l => bs <+: l ∧ din = din'

/-- The source is DIN. -/
def DataSrc.isDin : DataSrc → Bool
  | .din => true
  | .zero => false
  | .frame _ => false

theorem DataSrc.gives_drop {src : DataSrc} {b1 b2 din din' : List Byte} (h : src.gives (b1 ++ b2) din din') :
    ∃ mid, src.gives b1 din mid ∧ (src.drop b1.length).gives b2 mid din' := by
  cases src with
  | din => exact ⟨b2 ++ din', by simpa [gives] using h, rfl⟩
  | zero =>
    obtain ⟨hz, rfl⟩ := h
    exact ⟨din, ⟨fun b hb => hz b (by simp [hb]), rfl⟩, fun b hb => hz b (by simp [hb]), rfl⟩
  | frame l =>
    obtain ⟨⟨t, rfl⟩, rfl⟩ := h
    exact ⟨din, ⟨⟨b2 ++ t, by simp⟩, rfl⟩, ⟨t, by simp⟩, rfl⟩

theorem sendByte_run (i : Instr) (w : CmdWord) (loc : Locals) (rest : List Op) (src : DataSrc) (o b : Byte)
    (s : State) (din' : List Byte) (m : List Byte) (hg : src.gives [o] s.din din') (hm : s.misoIn = b :: m) :
    Reach i (s.at w loc (src.sendNext ++ rest))
      (settle w rest loc { s.adv s.dreqIn m (byteEvents src.isDin [(o, b)]) with din := din' }) := by
  cases src with
  | din =>
    have hd : (s.at w loc (.dinSend :: rest)).din = o :: din' := hg
    refine Reach.micro (microStep_dinSend w loc _ _ hd) ?_
    rw [settle_primitive rfl]
    refine Reach.trans (xfer_run i w loc rest o .drop _ (b := b) (m := m) ?_) ?_
    · exact hm
    rw [settle_congr]
    · exact Reach.refl ..
    · simp [State.adv, State.at, State.dinPop, State.record, byteEvents, DataSrc.isDin]
  | zero =>
    obtain ⟨hz, rfl⟩ := hg
    obtain rfl := hz o (by simp)
    exact xfer_run i w loc rest 0 .drop s hm
  | frame l =>
    obtain ⟨⟨t, rfl⟩, rfl⟩ := hg
    exact xfer_run i w loc rest o .drop s hm

theorem sendBytes_run (i : Instr) (w : CmdWord) (loc : Locals) (rest : List Op) (src : DataSrc)
    (bs : List (Byte × Byte)) (s : State) (din' : List Byte) (m : List Byte)
    (hg : src.gives (bs.map Prod.fst) s.din din') (hm : s.misoIn = bs.map Prod.snd ++ m) :
    Reach i (settle w (.sendBytes src bs.length :: rest) loc s)
      (settle w rest loc { s.adv s.dreqIn m (byteEvents src.isDin bs) with din := din' }) := by
  induction bs generalizing src s with
  | nil =>
    have hd : s.din = din' := by cases src <;> simp [DataSrc.gives] at hg <;> simp [hg]
    rw [settle_gone (s := s) (loc' := loc) rfl (by simp [Op.expand]), settle_congr]
    · exact Reach.refl ..
    · simp at hm
      simp [State.adv, byteEvents, ← hd, ← hm]
  | cons p bs ih =>
    obtain ⟨o, b⟩ := p
    obtain ⟨mid, h1, h2⟩ := DataSrc.gives_drop (b1 := [o]) (by simpa using hg)
    have e1 : settle w (.sendBytes src ((o, b) :: bs).length :: rest) loc s
        = s.at w loc (src.sendNext ++ .sendBytes (src.drop 1) bs.length :: rest) := by
      cases src <;>
        (rw [settle_opens (s := s) (loc' := loc) rfl (by simp [Op.expand, DataSrc.sendNext]; exact ⟨rfl, rfl⟩)]
         simp [DataSrc.sendNext])
    rw [e1]
    refine (sendByte_run i w loc _ src o b s mid _ h1 hm).trans ?_
    have r := ih (src.drop 1) { s.adv s.dreqIn (bs.map Prod.snd ++ m) (byteEvents src.isDin [(o, b)]) with
      din := mid } h2 rfl
    refine (congrArg (Reach i _) (settle_congr ?_)).mp r
    cases src <;> simp [State.adv, byteEvents, DataSrc.isDin, DataSrc.drop]

theorem groupCount_zero {g n : Nat} (hg : 1 ≤ g) (h : groupCount g n = 0) : n = 0 := by
  unfold groupCount at h
  rw [Nat.div_eq_zero_iff] at h
  omega

theorem groupCount_succ {g n k : Nat} (hg : 1 ≤ g) (h : groupCount g n = k + 1) :
    n ≠ 0 ∧ groupCount g (n - min g n) = k := by
  have hn : n ≠ 0 := by
    rintro rfl
    have : groupCount g 0 = 0 := Nat.div_eq_zero_iff.mpr (by omega)
    omega
  refine ⟨hn, ?_⟩
  unfold groupCount at *
  by_cases hle : g ≤ n
  · rw [Nat.min_eq_left hle]
    have : n + g - 1 = (n - g + g - 1) + g := by omega
    rw [this, Nat.add_div_right _ (by omega)] at h
    omega
  · have h1 : (n + g - 1) / g = 1 := by
      rw [Nat.div_eq_iff (by omega)]; omega
    have : k = 0 := by omega
    subst this
    rw [Nat.min_eq_right (by omega), Nat.div_eq_zero_iff]; omega

theorem sendGroups_run (i : Instr) (w : CmdWord) (loc : Locals) (rest : List Op) (src : DataSrc)
    (ks : List Nat) (bs : List (Byte × Byte)) (s : State) (din' : List Byte) (d : List Level) (m : List Byte)
    (ha : s.answersData ks bs d m) (hg : src.gives (bs.map Prod.fst) s.din din') :
    Reach i (settle w (.sendGroups src bs.length :: rest) loc s)
      (settle w rest loc { s.adv d m (groupEvents src.isDin s.cfg.readyGrain ks bs) with din := din' }) := by
  induction ks generalizing src bs s with
  | nil =>
    obtain ⟨hr, hk, hd, hm⟩ := ha
    obtain rfl : bs = [] := List.length_eq_zero_iff.mp (groupCount_zero hr hk.symm)
    have hd' : s.din = din' := by cases src <;> simp [DataSrc.gives] at hg <;> simp [hg]
    rw [settle_gone (s := s) (loc' := loc) rfl (by simp [Op.expand]), settle_congr]
    · exact Reach.refl ..
    · simp at hm hd
      simp [State.adv, groupEvents, ← hd, ← hm, ← hd']
  | cons k ks ih =>
    obtain ⟨hr, hk, hd, hm⟩ := ha
    obtain ⟨hn, hk'⟩ := groupCount_succ hr hk.symm
    have e1 : settle w (.sendGroups src bs.length :: rest) loc s
        = s.at w loc (.awaitReady :: .sendBytes src (bs.take s.cfg.readyGrain).length
            :: .sendGroups (src.drop (bs.take s.cfg.readyGrain).length) (bs.drop s.cfg.readyGrain).length
            :: rest) := by
      rw [settle_opens (s := s) (loc' := loc) (op' := .awaitReady) rfl (by simp [Op.expand, hn]; rfl)]
      have hlen : (bs.drop s.cfg.readyGrain).length = bs.length - min s.cfg.readyGrain bs.length := by
        rw [List.length_drop]; omega
      rw [hlen, List.length_take]
      rfl
    rw [e1]
    rw [List.flatMap_cons, List.append_assoc] at hd
    refine (await_run i w loc _ k _ s hd).trans ?_
    have hsplit : bs.map Prod.fst = (bs.take s.cfg.readyGrain).map Prod.fst
        ++ (bs.drop s.cfg.readyGrain).map Prod.fst := by
      rw [← List.map_append, List.take_append_drop]
    have hsplit2 : bs.map Prod.snd = (bs.take s.cfg.readyGrain).map Prod.snd
        ++ (bs.drop s.cfg.readyGrain).map Prod.snd := by
      rw [← List.map_append, List.take_append_drop]
    rw [hsplit] at hg
    obtain ⟨mid, h1, h2⟩ := DataSrc.gives_drop hg
    rw [List.length_map] at h2
    refine Reach.trans (sendBytes_run i w loc _ src (bs.take s.cfg.readyGrain) _ mid
      ((bs.drop s.cfg.readyGrain).map Prod.snd ++ m) ?_ ?_) ?_
    · exact h1
    · rw [← List.append_assoc, ← hsplit2]; exact hm
    have r := ih (src.drop (bs.take s.cfg.readyGrain).length) (bs.drop s.cfg.readyGrain)
      { (s.adv (ks.flatMap (fun k => samples s.cfg.readyLevel k) ++ d) s.misoIn (pollEvents k)).adv
          (ks.flatMap (fun k => samples s.cfg.readyLevel k) ++ d)
          ((bs.drop s.cfg.readyGrain).map Prod.snd ++ m)
          (byteEvents src.isDin (bs.take s.cfg.readyGrain)) with din := mid }
      ⟨hr, by
        rw [List.length_drop, ← hk']
        simp only [State.adv]
        congr 1; omega, rfl, rfl⟩ h2
    refine (congrArg (Reach i _) (settle_congr ?_)).mp r
    cases src <;> simp [State.adv, groupEvents, DataSrc.isDin, DataSrc.drop]

/-- A whole data transaction (R190). -/
theorem dataSend_run (i : Instr) (w : CmdWord) (loc : Locals) (rest : List Op) (src : DataSrc)
    (ks : List Nat) (bs : List (Byte × Byte)) (s : State) (din' : List Byte) (d : List Level) (m : List Byte)
    (ho : s.outside) (ha : s.answersData ks bs d m) (hg : src.gives (bs.map Prod.fst) s.din din') :
    Reach i (settle w (dataSend src bs.length ++ rest) loc s)
      (settle w rest loc
        { s.adv d m (dataEvents src.isDin s.cfg.readyGrain s.tp s.drvTp ks bs) with din := din' }) := by
  obtain ⟨cfg, phase, init, session, midi, err, fault, drvTp, tpSave, xcs, xdcs, xreset, din, dout, tp,
    trace, sched, dreqIn, misoIn, draws⟩ := s
  obtain ⟨hx, hd, ht⟩ := ho
  simp only at hx hd ht hg
  subst hx hd ht
  have e : dataSend src bs.length ++ rest = .tpCapture :: .tpApply :: .enter .xcs :: .setLine .xdcs false
      :: .sendGroups src bs.length :: .setLine .xdcs true :: .tpRestore :: rest := rfl
  rw [e, settle_primitive rfl]
  refine Reach.micro (microStep_tpCapture w loc _ _ rfl) ?_
  rw [settle_primitive rfl]
  refine Reach.micro (microStep_tpApply w loc _ _) ?_
  rw [settle_primitive rfl]
  refine Reach.micro (microStep_enter w loc _ _ _ rfl) ?_
  rw [settle_primitive rfl]
  refine Reach.micro (microStep_setLine w loc _ _ _ _) ?_
  refine Reach.trans (sendGroups_run i w loc _ src ks bs _ din' d m ?_ ?_) ?_
  · exact ha
  · exact hg
  rw [settle_primitive rfl]
  refine Reach.micro (microStep_setLine w _ _ _ _ _) ?_
  rw [settle_primitive rfl]
  refine Reach.micro (microStep_tpRestore w _ _ _ rfl) ?_
  rw [settle_congr]
  · exact Reach.refl ..
  · simp [State.at, State.adv, State.record, State.setLine, State.tpCapture, State.tpWrite,
      State.tpRestore, dataEvents]

/-! ## The discard of a rejected payload (60_exceptions.md R305) -/

theorem discard_run (i : Instr) (w : CmdWord) (loc : Locals) (rest : List Op) (bs : List Byte) (s : State)
    (din' : List Byte) (h : s.din = bs ++ din') :
    Reach i (settle w (.discard bs.length :: rest) loc s)
      (settle w rest loc { s with din := din', trace := s.trace ++ bs.map Event.din }) := by
  induction bs generalizing s with
  | nil =>
    rw [settle_gone (s := s) (loc' := loc) rfl (by simp [Op.expand]), settle_congr]
    · exact Reach.refl ..
    · simp at h
      simp [← h]
  | cons b bs ih =>
    rw [settle_opens (s := s) (loc' := loc) (op' := .dinPop .drop) (ops := [.discard bs.length]) rfl
      (by simp [Op.expand])]
    refine Reach.micro (microStep_dinPop w loc _ _ .drop (b := b) (bs := bs ++ din') h) ?_
    have r := ih (s.dinPop b (bs ++ din')) rfl
    have e : settle w (.discard bs.length :: rest) (loc.keep .drop b)
        ((s.at w loc (.dinPop .drop :: [.discard bs.length] ++ rest)).dinPop b (bs ++ din'))
        = settle w (.discard bs.length :: rest) loc (s.dinPop b (bs ++ din')) :=
      settle_congr (by simp [State.at, State.dinPop, State.record])
    have e2 : settle w rest loc { s.dinPop b (bs ++ din') with
          din := din', trace := (s.dinPop b (bs ++ din')).trace ++ bs.map Event.din }
        = settle w rest loc { s with din := din', trace := s.trace ++ (b :: bs).map Event.din } :=
      settle_congr (by simp [State.dinPop, State.record])
    rw [← e2]
    exact (congrArg (fun x => Reach i x _) e).mpr r

/-! ## The firmware loader (44_firmware_loader.md R232) -/

/-- Two pops: a word from DIN, high byte first (20_memory.md R73). -/
theorem nextWord_run (i : Instr) (w : CmdWord) (loc : Locals) (rest : List Op) (v : Word) (s : State)
    (din' : List Byte) (h : s.din = wordBytes v ++ din') :
    Reach i (s.at w loc (nextWordDin ++ rest))
      (settle w rest { loc with hi := byteHi v, lo := byteLo v }
        { s with din := din', trace := s.trace ++ [.din (byteHi v), .din (byteLo v)] }) := by
  have e : nextWordDin ++ rest = .dinPop .hi :: .dinPop .lo :: rest := rfl
  rw [e]
  refine Reach.micro (microStep_dinPop w loc _ _ .hi (b := byteHi v) (bs := byteLo v :: din') h) ?_
  rw [settle_primitive rfl]
  refine Reach.micro (microStep_dinPop w _ _ _ .lo (b := byteLo v) (bs := din') rfl) ?_
  rw [settle_congr]
  · exact Reach.refl ..
  · simp [State.at, State.dinPop, State.record]

theorem joinBytes_hi_lo (v : Word) : joinBytes (byteHi v) (byteLo v) = v := by
  apply BitVec.eq_of_getLsbD_eq
  intro i hi
  simp only [joinBytes, byteHi, byteLo, BitVec.getLsbD_append, BitVec.getLsbD_extractLsb']
  by_cases h : i < 8
  · simp [h]
  · simp [h, show i - 8 < 8 by omega, show 8 + (i - 8) = i by omega]

/-- The record target of the loader's current record, on the configuration alone. -/
theorem settle_imagePayload (w : CmdWord) (loc : Locals) (rest : List Op) (s : State)
    (hr : headerRepeat loc.h = false) :
    settle w (.imagePayload :: rest) loc s = settle w (.imageCopy (headerCount loc.h) :: rest) loc s := by
  rcases hn : headerCount loc.h with _ | n
  · rw [settle_gone (s := s) (loc' := loc) rfl (by simp [Op.expand, hr, hn]),
      settle_gone (s := s) (loc' := loc) rfl (by simp [Op.expand])]
  · rw [settle_opens (s := s) (loc' := loc) (op' := .dinPop .hi) rfl (by simp [Op.expand, hr, hn]; rfl),
      settle_opens (s := s) (loc' := loc) (op' := .dinPop .hi) rfl (by simp [Op.expand]; rfl)]

theorem settle_imageStore (w : CmdWord) (loc : Locals) (rest : List Op) (s : State) :
    settle w (.imageStore :: rest) loc s
      = settle w (regWrite s.cfg (recordTarget s.cfg loc.a) loc.word ++ rest)
          { loc with cur := loc.cur + 1 } s := by
  rw [settle_opens (s := s) (loc' := { loc with cur := loc.cur + 1 }) (op' := .tpCapture) rfl
    (by simp [Op.expand]; rfl), regWrite_eq, regTxn_opens]
  rfl

theorem settle_imageRepeat (w : CmdWord) (loc : Locals) (rest : List Op) (s : State) :
    settle w (.imageRepeat :: rest) loc s
      = settle w (.regWrites (List.replicate (headerCount loc.h) (recordTarget s.cfg loc.a, loc.word)) :: rest)
          { loc with cur := loc.cur + 1 } s := by
  rcases hn : headerCount loc.h with _ | n
  · rw [settle_gone (s := s) (loc' := { loc with cur := loc.cur + 1 }) rfl (by simp [Op.expand, hn])]
    exact (settle_regWrites_nil ..).symm
  · rw [settle_opens (s := s) (loc' := { loc with cur := loc.cur + 1 }) (op' := .tpCapture) rfl
      (by simp [Op.expand, hn]; rfl), List.replicate_succ, settle_regWrites_cons, regWrite_eq, regTxn_opens]
    rfl

/-- The acts of a copy-run's payload (R232). -/
def copyActs (tgt : Byte) (vs : List Word) : List LoadAct :=
  vs.flatMap fun v => [LoadAct.word v, LoadAct.write tgt v]

theorem loadEvents_append (c : Config) (tp drv : Profile) (l1 l2 : List LoadAct) (rs : List Reply) :
    (loadWrites l1).length ≤ rs.length →
    loadEvents c tp drv (l1 ++ l2) rs
      = loadEvents c tp drv l1 (rs.take (loadWrites l1).length)
        ++ loadEvents c tp drv l2 (rs.drop (loadWrites l1).length) := by
  intro h
  induction l1 generalizing rs with
  | nil => simp [loadWrites, loadEvents]
  | cons a l1 ih =>
    cases a with
    | word v =>
      simp only [loadWrites] at h ⊢
      simp only [List.cons_append, loadEvents, ih rs h]
    | write a v =>
      rcases rs with _ | ⟨r, rs⟩
      · simp [loadWrites] at h
      · simp only [loadWrites, List.length_cons, Nat.add_le_add_iff_right] at h ⊢
        simp only [List.cons_append, loadEvents, ih rs h, List.take_succ_cons, List.drop_succ_cons,
          List.append_assoc]

theorem loadWrites_append (l1 l2 : List LoadAct) : loadWrites (l1 ++ l2) = loadWrites l1 ++ loadWrites l2 := by
  induction l1 with
  | nil => rfl
  | cons a l1 ih => cases a <;> simp [loadWrites, ih]

theorem loadWords_append (l1 l2 : List LoadAct) : loadWords (l1 ++ l2) = loadWords l1 ++ loadWords l2 := by
  induction l1 with
  | nil => rfl
  | cons a l1 ih => cases a <;> simp [loadWords, ih]

theorem replyLevels_append (l : Level) (r1 r2 : List Reply) :
    replyLevels l (r1 ++ r2) = replyLevels l r1 ++ replyLevels l r2 := by simp [replyLevels]

theorem replyBytes_append (r1 r2 : List Reply) : replyBytes (r1 ++ r2) = replyBytes r1 ++ replyBytes r2 := by
  simp [replyBytes]

/-- One answered list of transactions splits where its replies do. -/
theorem answersRegs_split {s : State} {r1 r2 : List Reply} {d : List Level} {m : List Byte}
    (h : s.answersRegs (r1 ++ r2) d m) :
    s.answersRegs r1 (replyLevels s.cfg.readyLevel r2 ++ d) (replyBytes r2 ++ m) := by
  obtain ⟨h1, h2⟩ := h
  exact ⟨by rw [h1, replyLevels_append, List.append_assoc], by rw [h2, replyBytes_append, List.append_assoc]⟩

/-- The loader's cursor moved to `n` and its address word kept. -/
theorem copy_run (i : Instr) (w : CmdWord) (loc : Locals) (rest : List Op) (vs : List Word) (rs : List Reply)
    (s : State) (din' : List Byte) (d : List Level) (m : List Byte) (ho : s.outside)
    (hd : s.din = vs.flatMap wordBytes ++ din') (hl : rs.length = vs.length) (ha : s.answersRegs rs d m) :
    ∃ loc', loc'.cur = loc.cur + vs.length ∧
      Reach i (settle w (.imageCopy vs.length :: rest) loc s)
        (settle w rest loc'
          { s.adv d m (loadEvents s.cfg s.tp s.drvTp (copyActs (recordTarget s.cfg loc.a) vs) rs) with
            din := din' }) := by
  induction vs generalizing loc s rs with
  | nil =>
    obtain rfl : rs = [] := List.length_eq_zero_iff.mp hl
    obtain ⟨h1, h2⟩ := ha
    refine ⟨loc, rfl, ?_⟩
    rw [settle_gone (s := s) (loc' := loc) rfl (by simp [Op.expand]), settle_congr]
    · exact Reach.refl ..
    · simp [replyLevels, replyBytes] at h1 h2 hd
      simp [State.adv, copyActs, loadEvents, ← h1, ← h2, ← hd]
  | cons v vs ih =>
    rcases rs with _ | ⟨r, rs⟩
    · simp at hl
    obtain ⟨h1, h2⟩ := ha
    rw [replyLevels_cons, List.append_assoc] at h1
    rw [replyBytes_cons, List.append_assoc] at h2
    have e1 : settle w (.imageCopy (v :: vs).length :: rest) loc s
        = s.at w loc (nextWordDin ++ .imageStore :: .imageCopy vs.length :: rest) := by
      rw [settle_opens (s := s) (loc' := loc) (op' := .dinPop .hi) rfl (by simp [Op.expand]; rfl)]
      rfl
    rw [e1]
    have r1 := nextWord_run i w loc (.imageStore :: .imageCopy vs.length :: rest) v s
      (vs.flatMap wordBytes ++ din') (by simpa using hd)
    rw [settle_imageStore] at r1
    have r2 := regWrite_run i w { loc with hi := byteHi v, lo := byteLo v, cur := loc.cur + 1 }
      (.imageCopy vs.length :: rest) (recordTarget s.cfg loc.a) v
      { s with din := vs.flatMap wordBytes ++ din', trace := s.trace ++ [.din (byteHi v), .din (byteLo v)] }
      r _ _ ho h1 h2
    obtain ⟨loc', hc, r3⟩ := ih { loc with hi := byteHi v, lo := byteLo v, cur := loc.cur + 1 } rs
      (State.adv { s with din := vs.flatMap wordBytes ++ din', trace := s.trace ++ [.din (byteHi v), .din (byteLo v)] }
        (replyLevels s.cfg.readyLevel rs ++ d) (replyBytes rs ++ m)
        (writeEvents s.cfg s.tp s.drvTp (recordTarget s.cfg loc.a) v r)) ho rfl (by simpa using hl) ⟨rfl, rfl⟩
    refine ⟨loc', by simp at hc ⊢; omega, ?_⟩
    have hv : Locals.word { loc with hi := byteHi v, lo := byteLo v } = v := joinBytes_hi_lo v
    simp only [hv] at r1
    refine (congrArg (Reach i _) (settle_congr ?_)).mp (r1.trans (r2.trans r3))
    simp [State.adv, copyActs, loadEvents]

/-- The address-select write (44_firmware_loader.md R234). -/
theorem select_run (i : Instr) (w : CmdWord) (loc : Locals) (rest : List Op) (rs : List Reply) (s : State)
    (d : List Level) (m : List Byte) (ho : s.outside) (hl : rs.length = (recordSelect s.cfg loc.a).length)
    (ha : s.answersRegs rs d m) :
    Reach i (settle w (.imageSelect :: rest) loc s)
      (settle w rest loc (s.adv d m (loadEvents s.cfg s.tp s.drvTp
        ((recordSelect s.cfg loc.a).map fun p => LoadAct.write p.1 p.2) rs))) := by
  obtain ⟨h1, h2⟩ := ha
  cases hc : s.cfg.loaderTarget with
  | fixedPair =>
    simp only [recordSelect, hc, List.length_cons, List.length_nil] at hl
    obtain ⟨r, rfl⟩ := List.length_eq_one_iff.mp hl
    have e1 : settle w (.imageSelect :: rest) loc s
        = settle w (regWrite s.cfg s.cfg.regAddrSel loc.a ++ rest) loc s := by
      rw [settle_opens (s := s) (loc' := loc) (op' := .tpCapture) rfl (by simp [Op.expand, hc]; rfl),
        regWrite_eq, regTxn_opens]
      rfl
    rw [e1]
    have r := regWrite_run i w loc rest s.cfg.regAddrSel loc.a s r d m ho
      (by simpa [replyLevels] using h1) (by simpa [replyBytes] using h2)
    simpa [recordSelect, hc, loadEvents] using r
  | direct =>
    simp only [recordSelect, hc, List.length_nil] at hl
    obtain rfl := List.length_eq_zero_iff.mp hl
    simp [replyLevels, replyBytes] at h1 h2
    rw [settle_gone (s := s) (loc' := loc) rfl (by simp [Op.expand, hc]), settle_congr]
    · exact Reach.refl ..
    · simp [State.adv, loadEvents, recordSelect, hc, ← h1, ← h2]

/-- What a record's payload is (R232), without its select write. -/
def payloadActs (c : Config) (a h : Word) (payload : List Word) : List LoadAct :=
  if headerRepeat h then
    (payload.take 1).flatMap (fun v =>
      LoadAct.word v :: List.replicate (headerCount h) (LoadAct.write (recordTarget c a) v))
  else copyActs (recordTarget c a) (payload.take (headerCount h))

theorem recordActs_eq (c : Config) (a h : Word) (payload : List Word) :
    recordActs c a h payload
      = (recordSelect c a).map (fun p => LoadAct.write p.1 p.2) ++ payloadActs c a h payload := rfl

theorem loadWrites_copy (tgt : Byte) (vs : List Word) : (loadWrites (copyActs tgt vs)).length = vs.length := by
  induction vs with
  | nil => rfl
  | cons v vs ih => simpa [copyActs, loadWrites] using ih

theorem loadWrites_repeat (tgt : Byte) (v : Word) (n : Nat) :
    (loadWrites (List.replicate n (LoadAct.write tgt v))).length = n := by
  induction n with
  | zero => rfl
  | succ n ih => simpa [List.replicate_succ, loadWrites] using ih

theorem loadEvents_repeat (c : Config) (tp drv : Profile) (tgt : Byte) (v : Word) (n : Nat) (rs : List Reply) :
    loadEvents c tp drv (List.replicate n (LoadAct.write tgt v)) rs
      = writesEvents c tp drv (List.replicate n (tgt, v)) rs := by
  induction n generalizing rs with
  | zero => simp [loadEvents, writesEvents]
  | succ n ih =>
    rcases rs with _ | ⟨r, rs⟩
    · simp [List.replicate_succ, loadEvents, writesEvents]
    · simp [List.replicate_succ, loadEvents, writesEvents, ih]

/-- A record's payload, from its header on (R232). -/
theorem payload_run (i : Instr) (w : CmdWord) (loc : Locals) (rest : List Op) (ws : List Word) (rs : List Reply)
    (s : State) (din' : List Byte) (d : List Level) (m : List Byte) (ho : s.outside)
    (hn : headerNeed loc.h ≤ ws.length)
    (hd : s.din = (ws.take (headerNeed loc.h)).flatMap wordBytes ++ din')
    (hl : rs.length = (loadWrites (payloadActs s.cfg loc.a loc.h ws)).length) (ha : s.answersRegs rs d m) :
    ∃ loc', loc'.cur = loc.cur + headerNeed loc.h ∧
      Reach i (settle w (.imagePayload :: rest) loc s)
        (settle w rest loc'
          { s.adv d m (loadEvents s.cfg s.tp s.drvTp (payloadActs s.cfg loc.a loc.h ws) rs) with
            din := din' }) := by
  cases hr : headerRepeat loc.h with
  | false =>
    have hneed : headerNeed loc.h = headerCount loc.h := by simp [headerNeed, hr]
    rw [hneed] at hn hd ⊢
    simp only [payloadActs, hr, loadWrites_copy, Bool.false_eq_true, if_false] at hl ⊢
    rw [settle_imagePayload w loc rest s hr]
    have hlen : (ws.take (headerCount loc.h)).length = headerCount loc.h := by simp; omega
    have r := copy_run i w loc rest (ws.take (headerCount loc.h)) rs s din' d m ho hd hl ha
    rwa [hlen] at r
  | true =>
    have hneed : headerNeed loc.h = 1 := by simp [headerNeed, hr]
    rw [hneed] at hn hd ⊢
    rcases ws with _ | ⟨v, ws⟩
    · simp at hn
    simp only [List.take_succ_cons, List.take_zero, List.flatMap_cons, List.flatMap_nil, List.append_nil] at hd
    simp only [payloadActs, hr, if_true, List.take_succ_cons, List.take_zero, List.flatMap_cons,
      List.flatMap_nil, List.append_nil, loadWrites, loadWrites_repeat] at hl ⊢
    have e1 : settle w (.imagePayload :: rest) loc s
        = s.at w loc (nextWordDin ++ .imageRepeat :: rest) := by
      rw [settle_opens (s := s) (loc' := loc) (op' := .dinPop .hi) rfl (by simp [Op.expand, hr]; rfl)]
      rfl
    have r1 := nextWord_run i w loc (.imageRepeat :: rest) v s din' hd
    rw [settle_imageRepeat] at r1
    have hv : Locals.word { loc with hi := byteHi v, lo := byteLo v } = v := joinBytes_hi_lo v
    simp only [hv] at r1
    have r2 := regWrites_run i w { loc with hi := byteHi v, lo := byteLo v, cur := loc.cur + 1 } rest
      (List.replicate (headerCount loc.h) (recordTarget s.cfg loc.a, v))
      { s with din := din', trace := s.trace ++ [.din (byteHi v), .din (byteLo v)] } rs d m ho
      (by simpa using hl) ha
    refine ⟨{ loc with hi := byteHi v, lo := byteLo v, cur := loc.cur + 1 }, rfl, ?_⟩
    rw [e1]
    refine (congrArg (Reach i _) (settle_congr ?_)).mp (r1.trans r2)
    simp [State.adv, loadEvents, loadEvents_repeat]

/-- One record, from its header on (R232). -/
theorem record_run (i : Instr) (w : CmdWord) (loc : Locals) (rest : List Op) (ws : List Word) (rs : List Reply)
    (s : State) (din' : List Byte) (d : List Level) (m : List Byte) (ho : s.outside)
    (hn : headerNeed loc.h ≤ ws.length)
    (hd : s.din = (ws.take (headerNeed loc.h)).flatMap wordBytes ++ din')
    (hl : rs.length = (loadWrites (recordActs s.cfg loc.a loc.h ws)).length) (ha : s.answersRegs rs d m) :
    ∃ loc', loc'.cur = loc.cur + headerNeed loc.h ∧
      Reach i (settle w (.imageSelect :: .imagePayload :: rest) loc s)
        (settle w rest loc'
          { s.adv d m (loadEvents s.cfg s.tp s.drvTp (recordActs s.cfg loc.a loc.h ws) rs) with
            din := din' }) := by
  have hsel : (loadWrites ((recordSelect s.cfg loc.a).map fun p => LoadAct.write p.1 p.2)).length
      = (recordSelect s.cfg loc.a).length := by
    unfold recordSelect; split <;> rfl
  rw [recordActs_eq, loadWrites_append, List.length_append, hsel] at hl
  have hsplit := List.take_append_drop (recordSelect s.cfg loc.a).length rs
  rw [← hsplit] at ha
  have r1 := select_run i w loc (.imagePayload :: rest) (rs.take (recordSelect s.cfg loc.a).length) s _ _ ho
    (by simp; omega) (answersRegs_split ha)
  obtain ⟨loc', hc, r2⟩ := payload_run i w loc rest ws (rs.drop (recordSelect s.cfg loc.a).length)
    (s.adv (replyLevels s.cfg.readyLevel (rs.drop (recordSelect s.cfg loc.a).length) ++ d)
      (replyBytes (rs.drop (recordSelect s.cfg loc.a).length) ++ m)
      (loadEvents s.cfg s.tp s.drvTp ((recordSelect s.cfg loc.a).map fun p => LoadAct.write p.1 p.2)
        (rs.take (recordSelect s.cfg loc.a).length))) din' d m ho hn hd
    (by simp [State.adv]; omega) ⟨rfl, rfl⟩
  refine ⟨loc', hc, ?_⟩
  refine (congrArg (Reach i _) (settle_congr ?_)).mp (r1.trans r2)
  rw [recordActs_eq, loadEvents_append _ _ _ _ _ _ (by rw [hsel]; omega), hsel]
  simp [State.adv]

theorem loadWords_select (c : Config) (a : Word) :
    loadWords ((recordSelect c a).map fun p => LoadAct.write p.1 p.2) = [] := by
  unfold recordSelect; split <;> rfl

theorem loadWords_copy (tgt : Byte) (vs : List Word) : loadWords (copyActs tgt vs) = vs := by
  induction vs with
  | nil => rfl
  | cons v vs ih => simpa [copyActs, loadWords] using ih

theorem loadWords_repeat (tgt : Byte) (v : Word) (n : Nat) :
    loadWords (List.replicate n (LoadAct.write tgt v)) = [] := by
  induction n with
  | zero => rfl
  | succ n ih => simpa [List.replicate_succ, loadWords] using ih

/-- A record's payload takes as many words as its header says (30_encoding.md R118). -/
theorem loadWords_recordActs (c : Config) (a h : Word) (ws : List Word) (hn : headerNeed h ≤ ws.length) :
    (loadWords (recordActs c a h ws)).length = headerNeed h := by
  rw [recordActs_eq, loadWords_append, loadWords_select, List.nil_append]
  unfold payloadActs headerNeed at *
  cases hr : headerRepeat h
  · simp [hr] at hn
    simp [loadWords_copy]; omega
  · simp only [hr, if_true] at hn ⊢
    rcases ws with _ | ⟨v, ws⟩
    · simp at hn
    · simp [loadWords, loadWords_repeat]

theorem no_acts {s : State} {rs : List Reply} {d : List Level} {m : List Byte} {din' : List Byte}
    (hl : rs.length = 0) (ha : s.answersRegs rs d m) (hd : s.din = din') :
    { s.adv d m [] with din := din' } = s := by
  obtain rfl := List.length_eq_zero_iff.mp hl
  obtain ⟨h1, h2⟩ := ha
  simp [replyLevels, replyBytes] at h1 h2
  simp [State.adv, ← h1, ← h2, ← hd]

/-- `ImageLoad(DIN, len)` from the cursor on, with `ws` the words it has yet to read: it takes the words it
reads from DIN, performs the writes, and goes on or raises the fault (R232, R235). -/
theorem imageLoop_run (i : Instr) (w : CmdWord) (fuel : Nat) (loc : Locals) (rest : List Op) (ws : List Word)
    (len : Nat) (rs : List Reply) (s : State) (din' : List Byte) (d : List Level) (m : List Byte)
    (ho : s.outside) (hf : ws.length ≤ fuel) (hlen : len = loc.cur + ws.length)
    (hd : s.din = ws.flatMap wordBytes ++ din')
    (hl : rs.length = (loadWrites (imageActsFuel s.cfg fuel ws).1).length) (ha : s.answersRegs rs d m) :
    ∃ loc', let acts := (imageActsFuel s.cfg fuel ws).1
      let s' := { s.adv d m (loadEvents s.cfg s.tp s.drvTp acts rs) with
        din := (ws.drop (loadWords acts).length).flatMap wordBytes ++ din' }
      Reach i (settle w (.imageLoop len :: rest) loc s)
        (if (imageActsFuel s.cfg fuel ws).2 then settle w rest loc' s' else s'.raiseFault .errImage) := by
  induction fuel generalizing loc ws rs s with
  | zero =>
    obtain rfl : ws = [] := List.length_eq_zero_iff.mp (by omega)
    refine ⟨loc, ?_⟩
    have e := no_acts (by simpa [imageActsFuel, loadWrites] using hl) ha (by simpa using hd)
    simp only [imageActsFuel, if_true, loadEvents, List.drop_nil, List.flatMap_nil, List.nil_append]
    rw [e, settle_gone (s := s) (loc' := loc) rfl (by simp [Op.expand]; simp at hlen; omega)]
    exact Reach.refl ..
  | succ fuel ih =>
    match ws, hf, hlen, hd, hl with
    | [], _, hlen, hd, hl =>
      refine ⟨loc, ?_⟩
      have e := no_acts (by simpa [imageActsFuel, loadWrites] using hl) ha (by simpa using hd)
      simp only [imageActsFuel, if_true, loadEvents, List.drop_nil, List.flatMap_nil, List.nil_append]
      rw [e, settle_gone (s := s) (loc' := loc) rfl (by simp [Op.expand]; simp at hlen; omega)]
      exact Reach.refl ..
    | [x], _, hlen, hd, hl =>
      refine ⟨loc, ?_⟩
      have e := no_acts (by simpa [imageActsFuel, loadWrites] using hl) ha hd
      simp only [imageActsFuel, Bool.false_eq_true, if_false, loadEvents, loadWords, List.length_nil,
        List.drop_zero]
      rw [e, settle_faults (s := s) rfl (by simp [Op.expand, hlen])]
      exact Reach.refl ..
    | a :: h :: ws, hf, hlen, hd, hl =>
      simp only [List.length_cons] at hlen hf
      have e1 : settle w (.imageLoop len :: rest) loc s
          = s.at w loc (nextWordDin ++ .imageAddr :: (nextWordDin ++ .imageHeader len :: .imageSelect
              :: .imagePayload :: .imageLoop len :: rest)) := by
        rw [settle_opens (s := s) (loc' := loc) (op' := .dinPop .hi) rfl
          (by simp [Op.expand, show ¬ len ≤ loc.cur by omega, show ¬ len - loc.cur < 2 by omega]; rfl)]
        rfl
      rw [e1]
      have r1 := nextWord_run i w loc (.imageAddr :: (nextWordDin ++ .imageHeader len :: .imageSelect
              :: .imagePayload :: .imageLoop len :: rest)) a s
        (wordBytes h ++ (ws.flatMap wordBytes ++ din')) (by simpa using hd)
      have hv : Locals.word { loc with hi := byteHi a, lo := byteLo a } = a := joinBytes_hi_lo a
      rw [settle_gone (op := .imageAddr) (loc' := { loc with hi := byteHi a, lo := byteLo a, a := a }) rfl
        (by simp [Op.expand, hv])] at r1
      have e2 : ∀ (l : Locals) (x : State) (R : List Op), settle w (nextWordDin ++ R) l x
          = x.at w l (nextWordDin ++ R) := fun l x R => settle_primitive rfl ..
      rw [e2] at r1
      have r2 := nextWord_run i w { loc with hi := byteHi a, lo := byteLo a, a := a }
        (.imageHeader len :: .imageSelect :: .imagePayload :: .imageLoop len :: rest) h
        { s with din := wordBytes h ++ (ws.flatMap wordBytes ++ din'), trace := s.trace ++ [.din (byteHi a), .din (byteLo a)] }
        (ws.flatMap wordBytes ++ din') rfl
      have hv' : Locals.word { loc with hi := byteHi h, lo := byteLo h, a := a } = h := joinBytes_hi_lo h
      by_cases hn : ws.length < headerNeed h
      · refine ⟨loc, ?_⟩
        simp only [imageActsFuel, if_pos hn, loadWrites] at hl ⊢
        obtain rfl : rs = [] := List.length_eq_zero_iff.mp (by simpa using hl)
        rw [settle_faults rfl (by simp [Op.expand, hv']; omega)] at r2
        simp only [Bool.false_eq_true, if_false]
        obtain ⟨h1, h2⟩ := ha
        simp [replyLevels, replyBytes] at h1 h2
        have r := r1.trans r2
        simpa [State.adv, loadEvents, loadWords, State.raiseFault, State.record, ← h1, ← h2] using r
      · rw [settle_gone (op := .imageHeader len)
          (loc' := { loc with hi := byteHi h, lo := byteLo h, a := a, h := h, cur := loc.cur + 2 }) rfl
          (by simp [Op.expand, hv']; omega)] at r2
        simp only [imageActsFuel, if_neg hn, loadWrites, loadWords] at hl ⊢
        rw [loadWrites_append, List.length_append] at hl
        have hsplit := List.take_append_drop (loadWrites (recordActs s.cfg a h ws)).length rs
        rw [← hsplit] at ha
        obtain ⟨loc1, hc1, r3⟩ := record_run i w
          { loc with hi := byteHi h, lo := byteLo h, a := a, h := h, cur := loc.cur + 2 }
          (.imageLoop len :: rest) ws (rs.take (loadWrites (recordActs s.cfg a h ws)).length)
          { s with din := ws.flatMap wordBytes ++ din',
                   trace := s.trace ++ [.din (byteHi a), .din (byteLo a)] ++ [.din (byteHi h), .din (byteLo h)] }
          ((ws.drop (headerNeed h)).flatMap wordBytes ++ din') _ _ ho (by simpa using hn)
          (by rw [← List.append_assoc, ← List.flatMap_append, List.take_append_drop])
          (by simp; omega) (answersRegs_split ha)
        obtain ⟨loc2, r4⟩ := ih loc1 (ws.drop (headerNeed h))
          (rs.drop (loadWrites (recordActs s.cfg a h ws)).length)
          { s with din := (ws.drop (headerNeed h)).flatMap wordBytes ++ din',
                   dreqIn := replyLevels s.cfg.readyLevel (rs.drop (loadWrites (recordActs s.cfg a h ws)).length) ++ d,
                   misoIn := replyBytes (rs.drop (loadWrites (recordActs s.cfg a h ws)).length) ++ m,
                   trace := s.trace ++ [.din (byteHi a), .din (byteLo a)] ++ [.din (byteHi h), .din (byteLo h)]
                    ++ loadEvents s.cfg s.tp s.drvTp (recordActs s.cfg a h ws)
                        (rs.take (loadWrites (recordActs s.cfg a h ws)).length) }
          ho (by simp; omega) (by simp at hc1 ⊢; omega) rfl (by simp; omega) ⟨rfl, rfl⟩
        refine ⟨loc2, ?_⟩
        have r := r1.trans (r2.trans (r3.trans r4))
        have hw : (loadWords (recordActs s.cfg a h ws)).length = headerNeed h :=
          loadWords_recordActs s.cfg a h ws (by omega)
        refine (congrArg (Reach i _) ?_).mp r
        have ed : ((a :: h :: ws).drop (loadWords (LoadAct.word a :: LoadAct.word h
            :: (recordActs s.cfg a h ws ++ (imageActsFuel s.cfg fuel (ws.drop (headerNeed h))).1))).length)
            = (ws.drop (headerNeed h)).drop
              (loadWords (imageActsFuel s.cfg fuel (ws.drop (headerNeed h))).1).length := by
          simp [loadWords, loadWords_append, hw, List.drop_drop]
        simp only [loadWords] at ed
        simp only [ed, loadEvents]
        rw [loadEvents_append _ _ _ _ _ _ (by omega)]
        cases hb : (imageActsFuel s.cfg fuel (ws.drop (headerNeed h))).2
        · simp [State.adv, State.raiseFault, State.record]
        · exact settle_congr (by simp [State.adv])

end Sys2Proof.Machine
end

