-- ==== Sys2Proof/Laws/Schedule.lean ====
section
/-!
SUPPORT. The schedule and a command: a step of a command neither reads nor writes it, so that a run of a
command carries over to any schedule; and what a step of a command does to `PHASE`.
-/

namespace Sys2Proof.Machine

open Sys2Proof

/-- `s` with the schedule `ms`. -/
def State.withSched (ms : List Move) (s : State) : State := { s with sched := ms }

@[simp] theorem State.withSched_phase (ms : List Move) (s : State) : (s.withSched ms).phase = s.phase := rfl
@[simp] theorem State.withSched_cfg (ms : List Move) (s : State) : (s.withSched ms).cfg = s.cfg := rfl
@[simp] theorem State.withSched_sched (ms : List Move) (s : State) : (s.withSched ms).sched = ms := rfl
@[simp] theorem State.withSched_withSched (ms ms' : List Move) (s : State) :
    (s.withSched ms).withSched ms' = s.withSched ms' := rfl

/-- What a step answers, with the next state changed by `f`. -/
def mapNext (f : State → State) : Result → Result
  | .next t => .next (f t)
  | .fault r => .fault r
  | .refused r => .refused r

theorem settle_withSched (w : CmdWord) (ops : List Op) (loc : Locals) (s : State) (ms : List Move) :
    settle w ops loc (s.withSched ms) = (settle w ops loc s).withSched ms := by
  induction ops generalizing loc s with
  | nil => rfl
  | cons op rest ih =>
    by_cases hp : op.isPrimitive = true
    · rw [settle_primitive hp, settle_primitive hp]; rfl
    · rcases Op.silent_cases op (by simpa using hp) with ⟨c, rfl⟩ | ⟨a, rfl⟩ | he
      · rfl
      · rw [settle_assign, settle_assign]
        have : (s.withSched ms).assign a = (s.assign a).withSched ms := by cases a <;> rfl
        rw [this]; exact ih _ _
      · rw [settle_expanded he, settle_expanded he, State.withSched_cfg]
        rcases hx : op.expand s.cfg loc with _ | ⟨loc', _ | ⟨op', ops'⟩⟩
        · rfl
        · exact ih _ _
        · rfl

theorem State.withSched_afterSample (ms : List Move) (s : State) :
    (s.withSched ms).afterSample = s.afterSample.withSched ms := by
  obtain ⟨_, _, _, _, _, _, _, _, _, _, _, _, _, _, _, _, _, dreqIn, _, _⟩ := s; cases dreqIn <;> rfl

theorem State.withSched_afterXfer (ms : List Move) (o : Byte) (s : State) :
    (s.withSched ms).afterXfer o = (s.afterXfer o).withSched ms := by
  obtain ⟨_, _, _, _, _, _, _, _, _, _, _, _, _, _, _, _, _, _, misoIn, _⟩ := s; cases misoIn <;> rfl

theorem microStep_withSched (w : CmdWord) (loc : Locals) (ops : List Op) (s : State) (ms : List Move) :
    microStep w loc ops (s.withSched ms) = mapNext (State.withSched ms) (microStep w loc ops s) := by
  rcases ops with _ | ⟨op, rest⟩
  · rfl
  cases op <;> simp only [microStep]
  case setLine l v => simp only [mapNext, ← settle_withSched]; cases l <;> rfl
  case enter l =>
    show (if s.busMode = .idle then _ else _) = _
    split
    · simp only [mapNext, ← settle_withSched]; cases l <;> rfl
    · rfl
  case awaitReady =>
    rw [show (s.withSched ms).sampleReady = s.sampleReady from rfl, State.withSched_afterSample]
    split
    · simp only [mapNext, ← settle_withSched]
    · rfl
  case xfer o d =>
    simp only [mapNext, State.withSched_afterXfer, settle_withSched]; rfl
  case tpCapture =>
    show (if s.tpHeld then _ else _) = _
    split
    · rfl
    · simp only [mapNext, ← settle_withSched]; rfl
  case tpApply => simp only [mapNext, ← settle_withSched]; rfl
  case tpRestore =>
    rcases h : s.tpSave with _ | p
    · rw [show (s.withSched ms).tpSave = none from h]; rfl
    · simp only [show (s.withSched ms).tpSave = some p from h, mapNext, ← settle_withSched]; rfl
  case dinPop d =>
    rcases h : s.din with _ | ⟨b, bs⟩
    · rw [show (s.withSched ms).din = [] from h]; rfl
    · simp only [show (s.withSched ms).din = b :: bs from h, mapNext, ← settle_withSched]; rfl
  case dinSend =>
    rcases h : s.din with _ | ⟨b, bs⟩
    · rw [show (s.withSched ms).din = [] from h]; rfl
    · simp only [show (s.withSched ms).din = b :: bs from h, mapNext, ← settle_withSched]; rfl
  case doutPush =>
    show (if s.cfg.doutDepth ≤ s.dout.length then _ else _) = _
    split
    · rfl
    · simp only [mapNext, ← settle_withSched]; rfl
  all_goals simp only [mapNext, ← settle_withSched]

theorem exec_withSched (i : Instr) (s : State) (ms : List Move) :
    exec i (s.withSched ms) = mapNext (State.withSched ms) (exec i s) := by
  rcases hp : s.phase with _ | ⟨w, _ | ⟨loc, ops⟩⟩ | _
  · rw [exec_ready i hp, exec_ready i (s := s.withSched ms) hp]; rfl
  · have hg' : guardOf i (s.withSched ms) = guardOf i s := by cases i <;> rfl
    rcases hg : guardOf i s with _ | c
    · rw [exec_accepts hp hg, exec_accepts (s := s.withSched ms) hp (hg'.trans hg), settle_withSched]; rfl
    · rw [exec_rejects hp hg, exec_rejects (s := s.withSched ms) hp (hg'.trans hg), settle_withSched]; rfl
  · rw [exec_run i hp, exec_run i (s := s.withSched ms) hp, microStep_withSched]
  · rw [exec_halted i hp, exec_halted i (s := s.withSched ms) hp]; rfl

/-- A step of a command leaves the schedule and the configuration alone. -/
theorem exec_sched_cfg {i : Instr} {s t : State} (h : exec i s = .next t) :
    t.sched = s.sched ∧ t.cfg = s.cfg := by
  rcases exec_cases i s with ⟨_, e⟩ | ⟨_, e⟩ | ⟨w, _, ⟨_, e⟩ | ⟨_, _, e⟩⟩ | ⟨w, loc, ops, _, e⟩
  · rw [e] at h; cases h; simp
  · rw [e] at h; cases h; simp
  · rw [e] at h; cases h; simp
  · rw [e] at h; cases h; simp
  · rw [e] at h
    rcases microStep_next h with rfl | ⟨_, _, _, rfl⟩ | ⟨_, rfl⟩ | h
    · simp
    · simp
    · simp
    · rcases h with ⟨_, _, _, _, rfl⟩ | ⟨_, _, _, _, rfl⟩ | ⟨_, _, _, _, rfl⟩ | ⟨_, _, _, rfl⟩ | ⟨_, _, _, _, rfl⟩
        | ⟨_, _, _, rfl⟩ | ⟨_, _, rfl⟩ | ⟨_, _, _, _, rfl⟩ | ⟨_, _, _, _, _, _, rfl⟩ | ⟨_, _, _, _, _, rfl⟩
        | ⟨_, _, _, rfl⟩ <;> simp

/-- The machine is inside the word `w`, or at a command boundary. -/
def State.within (w : CmdWord) (s : State) : Prop :=
  (∃ k, s.phase = .exec w k) ∨ s.phase = .ready ∨ s.phase = .halted

theorem settle_within (w : CmdWord) (ops : List Op) (loc : Locals) (s : State) :
    (settle w ops loc s).within w := by
  obtain ⟨as, ⟨loc', ops', -, h⟩ | ⟨c, h⟩ | h⟩ := settle_cases w ops loc s <;> rw [h]
  · exact .inl ⟨_, rfl⟩
  · exact .inr (.inl rfl)
  · exact .inr (.inr rfl)

theorem exec_within {i : Instr} {w : CmdWord} {s t : State} (hw : s.within w) (h : exec i s = .next t) :
    t.within w := by
  rcases hw with ⟨k, hp⟩ | hp | hp
  · rcases exec_cases i s with ⟨h1, _⟩ | ⟨h1, _⟩ | ⟨w', h1, h2⟩ | ⟨w', loc, ops, h1, h2⟩
    · rw [hp] at h1; cases h1
    · rw [hp] at h1; cases h1
    · rw [hp] at h1; cases h1
      rcases h2 with ⟨_, h2⟩ | ⟨_, _, h2⟩ <;> (rw [h] at h2; cases h2; exact settle_within ..)
    · rw [hp] at h1; cases h1
      rw [h] at h2
      rcases microStep_next h2.symm with rfl | ⟨_, _, _, rfl⟩ | ⟨_, rfl⟩ | h
      · exact .inl ⟨_, hp⟩
      · exact .inl ⟨_, by simpa using hp⟩
      · exact .inr (.inl rfl)
      · rcases h with ⟨_, _, _, _, rfl⟩ | ⟨_, _, _, _, rfl⟩ | ⟨_, _, _, _, rfl⟩ | ⟨_, _, _, rfl⟩
          | ⟨_, _, _, _, rfl⟩ | ⟨_, _, _, rfl⟩ | ⟨_, _, rfl⟩ | ⟨_, _, _, _, rfl⟩ | ⟨_, _, _, _, _, _, rfl⟩
          | ⟨_, _, _, _, _, rfl⟩ | ⟨_, _, _, rfl⟩ <;> exact settle_within ..
  · rw [exec_ready i hp] at h; cases h; exact .inr (.inl hp)
  · rw [exec_halted i hp] at h; cases h; exact .inr (.inr hp)

/-- Inside the word of `i` and at a command boundary the controller's step is `exec i`. -/
theorem controllerStep_within {i : Instr} {w : CmdWord} {s : State} (hd : decode w = .ok i)
    (hw : s.within w) : controllerStep s = exec i s := by
  rcases hw with ⟨k, hp⟩ | hp | hp
  · exact controllerStep_exec hp hd
  · rw [exec_ready i hp]; simp [controllerStep, hp]
  · rw [exec_halted i hp]; simp [controllerStep, hp]

/-- `settle` under another shared profile, held profile, trace and schedule: it reads none of them, and what it
appends to the trace is the same. -/
theorem settle_profiles (w : CmdWord) (ops : List Op) (loc : Locals) (s : State) (p : Profile)
    (q : Option Profile) (tr : List Event) (ms : List Move) :
    ∃ evs, (settle w ops loc s).trace = s.trace ++ evs
      ∧ settle w ops loc { s with tp := p, tpSave := q, trace := tr, sched := ms }
        = { settle w ops loc s with tp := p, tpSave := q, trace := tr ++ evs, sched := ms } := by
  induction ops generalizing loc s with
  | nil => exact ⟨[.done .ok], rfl, rfl⟩
  | cons op rest ih =>
    by_cases hp : op.isPrimitive = true
    · rw [settle_primitive hp, settle_primitive hp]; exact ⟨[], by simp [State.at], by simp [State.at]⟩
    · rcases Op.silent_cases op (by simpa using hp) with ⟨r, rfl⟩ | ⟨a, rfl⟩ | he
      · exact ⟨[.done r], rfl, rfl⟩
      · rw [settle_assign, settle_assign]
        have h1 : ({ s with tp := p, tpSave := q, trace := tr, sched := ms } : State).assign a
            = { s.assign a with tp := p, tpSave := q, trace := tr, sched := ms } := by cases a <;> rfl
        have h2 : (s.assign a).trace = s.trace := by cases a <;> rfl
        rw [h1]; simpa [h2] using ih loc (s.assign a)
      · rw [settle_expanded he, settle_expanded he]
        dsimp only
        rcases hx : op.expand s.cfg loc with _ | ⟨loc', _ | ⟨op', ops'⟩⟩
        · exact ⟨[.done .errImage], rfl, rfl⟩
        · exact ih _ _
        · exact ⟨[], by simp [State.at], by simp [State.at]⟩

theorem stepN_add {s t : State} {n : Nat} (h : stepN n s = .next t) (m : Nat) :
    stepN (n + m) s = stepN m t := by
  induction n generalizing s with
  | zero => cases h; simp
  | succ n ih =>
    rw [Nat.succ_add]
    simp only [stepN] at h ⊢
    split at h
    · exact ih h
    · cases h
    · cases h

end Sys2Proof.Machine
end

