-- ==== Sys2Proof/Tests/Slice0.lean ====
section
/-!
SUPPORT. The model's own tests: ill-formed terms that the checks refuse, words of the spec decoded, single
steps, and for every obligation with hypotheses a state and operands that meet them together. Expected
values come from 95_test_vectors.md and the rules' own examples.
-/

namespace Sys2Proof.Tests.Slice0

open Sys2Proof Sys2Proof.Machine

/-! ## Helpers -/

/-- A small legal configuration. -/
def cfg : Config where
  readyGrain := 2
  primeLen := 1
  drainLen := 3
  sciOpRead := 0x03
  sciOpWrite := 0x02
  dummyByte := 0xFF
  readyLevel := true
  resetActive := false
  regVol := 0x0B
  regAddrSel := 0x07
  regData := 0x06
  nregs := 2
  loaderTarget := .fixedPair
  initWrites := [(0x00, 0x0804)]
  profile := .upTo 9
  tpInit := ⟨1⟩
  tpRun := ⟨2⟩
  midiImage := [0x0007, 0x8002, 0x0000]
  midiWrites := [(0x0A, 0x0050)]
  midiPad := 0x00
  dinDepth := 4
  doutDepth := 2

/-- After reset, with TP at 9. -/
def base : State := State.resetWith cfg ⟨9⟩

/-- The initialised state of 95_test_vectors.md section 0. -/
def ready : State := { base with init := true, drvTp := ⟨2⟩, xreset := true, trace := [] }

/-- The initialised state with the word `w` just accepted. -/
def started (w : CmdWord) : State := { ready with phase := .exec w .start }

/-- The initialised state inside the command `w`, at the items `ops`. -/
def inside (w : CmdWord) (ops : List Op) : State := { ready with phase := .exec w (.run .blank ops) }

/-- The state a step answers, or `base`. -/
def after : Result → State
  | .next t => t
  | .fault _ => base
  | .refused _ => base

/-- A ready-at-once reply. -/
def reply (hi lo : Byte) : Reply := ⟨0, 0, 0, hi, lo⟩

theorem started_atStart (w : CmdWord) : (started w).atStart := ⟨⟨w, rfl⟩, rfl, rfl⟩

/-! ## Well-formedness: an ill-formed term for each check -/

theorem test_wf_opcode_refused : wordWf 0x0E000000 = false := by decide
theorem test_wf_reserved_bits_refused : wordWf 0x06000001 = false := by decide
theorem test_wf_word_accepted : wordWf 0x0C903C7F = true := by decide
theorem test_wf_image_no_header : imageWf [0x0007] = false := by decide
theorem test_wf_image_short_copy : imageWf [0x0007, 0x0002, 0xAAAA] = false := by decide
theorem test_wf_image_short_repeat : imageWf [0x0007, 0x8003] = false := by decide
theorem test_wf_image_accepted : imageWf [0x0007, 0x0002, 0xAAAA, 0xBBBB] = true := by decide
theorem test_wf_config_accepted : cfg.wf = true := by decide
theorem test_wf_grain : { cfg with readyGrain := 0 }.wf = false := by decide
theorem test_wf_drain : { cfg with drainLen := 1 }.wf = false := by decide
theorem test_wf_opcodes : { cfg with sciOpWrite := 0x03 }.wf = false := by decide
theorem test_wf_registers : { cfg with regData := 0x07 }.wf = false := by decide
theorem test_wf_nregs_low : { cfg with nregs := 0 }.wf = false := by decide
theorem test_wf_nregs_high : { cfg with nregs := 257 }.wf = false := by decide
theorem test_wf_midi_image : { cfg with midiImage := [0x0007, 0x8002] }.wf = false := by decide
theorem test_wf_tp_init : { cfg with tpInit := ⟨10⟩ }.wf = false := by decide
theorem test_wf_tp_run : { cfg with tpRun := ⟨10⟩ }.wf = false := by decide
theorem test_wf_din_depth : { cfg with dinDepth := 0 }.wf = false := by decide
theorem test_wf_dout_depth : { cfg with doutDepth := 0 }.wf = false := by decide

/-! ## Decoding (30_encoding.md R105; the words of 95_test_vectors.md) -/

theorem test_decode_begin : decode 0x01000000 = .ok .begin := rfl
theorem test_decode_readReg : decode 0x020B0000 = .ok (.readReg 0x0B) := rfl
theorem test_decode_writeReg : decode 0x03051234 = .ok (.writeReg 0x05 0x1234) := rfl
theorem test_decode_sendBuffer : decode 0x04000003 = .ok (.sendBuffer 3) := rfl
theorem test_decode_sendZeroes : decode 0x05000028 = .ok (.sendZeroes 40) := rfl
theorem test_decode_startSong : decode 0x06000000 = .ok .startSong := rfl
theorem test_decode_playChunk : decode 0x07010203 = .ok (.playChunk 0x010203) := rfl
theorem test_decode_stopSong : decode 0x08000000 = .ok .stopSong := rfl
theorem test_decode_loadImage : decode 0x09000004 = .ok (.loadImage 4) := rfl
theorem test_decode_setVolume : decode 0x0A0000FF = .ok (.setVolume 0xFF) := rfl
theorem test_decode_beginMidi : decode 0x0B000000 = .ok .beginMidi := rfl
theorem test_decode_sendMidi : decode 0x0C903C7F = .ok (.sendMidi 0x90 0x3C 0x7F) := rfl
theorem test_decode_printDetails : decode 0x0D000000 = .ok .printDetails := rfl
theorem test_decode_zero_word : decode 0x00000000 = .error .errOpcode := rfl
theorem test_decode_last_opcode : decode 0xFF000000 = .error .errOpcode := rfl
theorem test_decode_reserved_low_byte : decode 0x02050001 = .error .errReserved := rfl
theorem test_decode_reserved_volume : decode 0x0A000120 = .error .errReserved := rfl
theorem test_encode_writeReg : encode (.writeReg 0x05 0x1234) = 0x03051234 := by decide
theorem test_encode_sendMidi : encode (.sendMidi 0x90 0x3C 0x7F) = 0x0C903C7F := by decide
theorem test_table_word : decodeTableWord 32 0x0D000000 = some .printDetails := rfl

/-! ## STATUS (10_state.md R44; 95_test_vectors.md section 0) -/

theorem test_status_reset : base.status = 0 := by decide
theorem test_status_initialised : ready.status = 0x0020 := by decide
theorem test_status_rejected_chunk : { ready with err := .errSession }.status = 0x0420 := by decide
theorem test_status_control_in_command :
    { inside 0x03000000 [] with xcs := false, session := .streaming }.status = 0x0033 := by decide
theorem test_status_halted :
    { ready with phase := .halted, err := .errImage, fault := true, midi := true }.status = 0x05E1 := by
  decide

/-! ## Operand forms (95_test_vectors.md 1.6; 30_encoding.md R120, R121; 45_init_and_midi.md R263) -/

theorem test_image_copy_run : imageWrites cfg [0x0007, 0x0002, 0xAAAA, 0xBBBB]
    = [(0x07, 0x0007), (0x06, 0xAAAA), (0x06, 0xBBBB)] := by decide
theorem test_image_repeat_run : imageWrites cfg [0x0007, 0x8003, 0xCCCC]
    = [(0x07, 0x0007), (0x06, 0xCCCC), (0x06, 0xCCCC), (0x06, 0xCCCC)] := by decide
theorem test_image_direct : imageWrites { cfg with loaderTarget := .direct } [0x0007, 0x0002, 0xAAAA, 0xBBBB]
    = [(0x07, 0xAAAA), (0x07, 0xBBBB)] := by decide
theorem test_image_empty_runs : imageWrites cfg [0x0007, 0x0000, 0x0008, 0x8000, 0x1234]
    = [(0x07, 0x0007), (0x07, 0x0008)] := by decide
theorem test_image_second_record_short :
    imageActs cfg [0x0007, 0x0001, 0xAAAA, 0x0008, 0x0001]
      = ([.word 0x0007, .word 0x0001, .write 0x07 0x0007, .word 0xAAAA, .write 0x06 0xAAAA,
          .word 0x0008, .word 0x0001], false) := by decide
theorem test_midi_frame : midiFrame 0x00 0x90 0x3C 0x7F = [0x00, 0x90, 0x00, 0x3C, 0x00, 0x7F] := rfl
theorem test_volume_word : volumeWord 0x20 = 0x2020 := by decide
theorem test_bytes_high_first : wordBytes 0x1234 = [0x12, 0x34] := by decide

/-! ## The event lists that statements are made in, on the rules' own examples -/

/-- 41_register_access.md R170's list of eleven events. -/
theorem test_read_events : readEvents cfg ⟨9⟩ ⟨2⟩ 0x0B (reply 0x20 0x20)
    = [.tpGet ⟨9⟩, .tpSet ⟨2⟩, .ready true, .line .xdcs true, .line .xcs false, .xfer 0x03 0, .xfer 0x0B 0,
        .xfer 0xFF 0x20, .xfer 0xFF 0x20, .line .xcs true, .tpSet ⟨9⟩] := by decide

/-- 42_streaming.md R191's example. -/
theorem test_send_buffer_events : dataEvents true 32 ⟨9⟩ ⟨2⟩ [0] [(0x49, 0), (0x44, 0), (0x33, 0)]
    = [.tpGet ⟨9⟩, .tpSet ⟨2⟩, .line .xcs true, .line .xdcs false, .ready true, .din 0x49, .xfer 0x49 0,
        .din 0x44, .xfer 0x44 0, .din 0x33, .xfer 0x33 0, .line .xdcs true, .tpSet ⟨9⟩] := by decide

/-- 42_streaming.md R191's corner case `len` = 0. -/
theorem test_send_nothing_events : dataEvents true 32 ⟨9⟩ ⟨2⟩ [] []
    = [.tpGet ⟨9⟩, .tpSet ⟨2⟩, .line .xcs true, .line .xdcs false, .line .xdcs true, .tpSet ⟨9⟩] := by decide

/-- The ready pattern of 95_test_vectors.md 1.5, with groups of two. -/
theorem test_group_events : groupEvents false 2 [1, 2] [(0, 5), (0, 6), (0, 7)]
    = [.ready false, .ready true, .xfer 0 5, .xfer 0 6, .ready false, .ready false, .ready true,
        .xfer 0 7] := by decide

theorem test_group_count : groupCount 32 33 = 2 := by decide

/-! ## Single steps -/

/-- R260: the first line write of BEGIN comes after the acceptance step. -/
theorem test_begin_first_item :
    (after (exec .begin (after (exec .begin { base with phase := .exec 0x01000000 .start })))).trace
      = base.trace ++ [.line .xcs true] := by decide

/-- R302: acceptance of WRITE_REG installs the register transaction and records nothing. -/
theorem test_writeReg_accepts : (after (exec (.writeReg 0x0B 0x2020) (started 0x030B2020))).phase
    = .exec 0x030B2020 (.run .blank (writeRegProgram cfg 0x0B 0x2020)) := by decide

/-- R171: the value goes to DOUT after the bus is released, and the command ends. -/
theorem test_readReg_pushes :
    let s := { inside 0x020B0000 [.doutPush, .finish .ok] with
      phase := .exec 0x020B0000 (.run { Locals.blank with hi := 0x12, lo := 0x34 } [.doutPush, .finish .ok]) }
    (after (exec (.readReg 0x0B) s)).dout = [0x1234] ∧ (after (exec (.readReg 0x0B) s)).phase = .ready := by
  decide

/-- R190: with source DIN the byte is popped, and the exchange of it comes next. -/
theorem test_sendBuffer_pops :
    (after (exec (.sendBuffer 1) { inside 0x04000001 [.dinSend] with din := [0x49, 0x44] })).phase
      = .exec 0x04000001 (.run .blank [.xfer 0x49 .drop]) := by decide

/-- R192: every byte of SEND_ZEROES is 0x00. -/
theorem test_sendZeroes_sends_zero :
    (after (exec (.sendZeroes 3) { inside 0x05000003 [.awaitReady, .sendBytes .zero 2] with dreqIn := [true] })).phase
      = .exec 0x05000003 (.run .blank [.xfer 0 .drop, .sendBytes .zero 1]) := by decide

/-- R210: SESSION is `Priming` from acceptance. -/
theorem test_startSong_primes : (after (exec .startSong (started 0x06000000))).session = .priming := by decide

/-- R214: SESSION is `Idle` with the completion. -/
theorem test_stopSong_ends :
    (after (exec .stopSong { inside 0x08000000 [.tpRestore, .assign (.session .idle), .finish .ok] with
      session := .draining, tpSave := some ⟨9⟩, tp := ⟨2⟩ })).status = 0x0020 := by decide

/-- 95_test_vectors.md 1.4: PLAY_CHUNK in session `Idle` starts by discarding its payload. -/
theorem test_playChunk_discards :
    (after (exec (.playChunk 2) { started 0x07000002 with din := [0xAA, 0xBB] })).phase
      = .exec 0x07000002 (.run .blank [.dinPop .drop, .discard 1, .finish .errSession]) := by decide

/-- R233: `len` = 1 faults before anything is read. -/
theorem test_loadImage_one_word : (after (exec (.loadImage 1) { started 0x09000001 with din := [0, 7] })).status
    = 0x05A1 := by decide

/-- R233: `len` = 0 completes at once. -/
theorem test_loadImage_empty : (after (exec (.loadImage 0) (started 0x09000000))).trace = [.done .ok] := by
  decide

/-- R174 through R111: SET_VOLUME's program is WRITE_REG's. -/
theorem test_setVolume_program : setVolumeProgram cfg 0x20 = writeRegProgram cfg 0x0B 0x2020 := by decide

/-- R263: with nothing to write, BEGIN_MIDI completes at once with `MIDI` = 1. -/
theorem test_beginMidi_empty :
    (after (exec .beginMidi { started 0x0B000000 with cfg := { cfg with midiImage := [], midiWrites := [] } })).status
      = 0x0060 := by decide

/-- R264: the second byte of the frame is `mcmd`. -/
theorem test_sendMidi_second_byte :
    (after (exec (.sendMidi 0x90 0x3C 0x7F) { inside 0x0C903C7F
      [.xfer 0 .drop, .sendBytes (.frame [0x90, 0x00]) 1] with misoIn := [0] })).phase
      = .exec 0x0C903C7F (.run .blank [.xfer 0x90 .drop, .sendBytes (.frame [0x00]) 0]) := by decide

/-- R175: after the last register PRINT_DETAILS ends. -/
theorem test_printDetails_ends :
    (after (exec .printDetails (inside 0x0D000000 [.doutPush, .readRegs 2 0, .finish .ok]))).phase = .ready := by
  decide

/-- R340: reset from the middle of a data transaction leaves TP at what was applied. -/
theorem test_reset_mid_transaction :
    let s := { inside 0x04000001 [.dinSend] with xdcs := false, tpSave := some ⟨9⟩, tp := ⟨2⟩, sched := [.reset] }
    (after (step s)).status = 0 ∧ (after (step s)).tp = ⟨2⟩ ∧ (after (step s)).tpSave = none := by decide

/-- Log 13: right after reset, the word placed by `withFetchWord` is the one the next step runs. -/
theorem test_fetch_word : step (base.withFetchWord 32 0x01000000)
    = exec .begin (base.withFetchWord 32 0x01000000) := rfl

/-! ## Witnesses: every obligation's hypotheses are met together -/

theorem witness_WordSpellsItsRow : ∀ r ∈ opcodeMap, r.spells 0x0E000000 = false := by decide

theorem witness_ReservedOpcodeRejected : (started 0xFF000000).sched = []
    ∧ (started 0xFF000000).phase = .exec 0xFF000000 .start ∧ reservedOpcode (fieldOpcode 0xFF000000) = true := by
  decide

theorem witness_ReservedOpcodeRejected_low : (started 0x0E000000).phase = .exec 0x0E000000 .start
    ∧ reservedOpcode (fieldOpcode 0x0E000000) = true := by decide

theorem witness_ReservedBitsRejected : (started 0x0D000001).sched = []
    ∧ (started 0x0D000001).phase = .exec 0x0D000001 .start
    ∧ reservedOpcode (fieldOpcode 0x0D000001) = false
    ∧ ∀ r ∈ opcodeMap, r.spells 0x0D000001 = false := by decide

theorem witness_ReservedBitsRejected_decodes : decode 0x0A000020 = .ok (.setVolume 0x20) := rfl

theorem witness_StepRunsDecodedInstruction : (started 0x06000000).phase = .exec 0x06000000 .start
    ∧ decode 0x06000000 = .ok .startSong ∧ (started 0x06000000).sched = [] := ⟨rfl, rfl, rfl⟩

theorem witness_StepRunsDecodedInstruction_turn :
    { started 0x06000000 with sched := [.controller] }.sched = .controller :: [] := rfl

theorem witness_StepRunsDecodedInstruction_waiting :
    (Move.offer 0).enabled { started 0x06000000 with sched := [.offer 0] } = false := by decide

theorem witness_StepsAreStepsOfTheCommand : (started 0x01000000).sched = []
    ∧ (started 0x01000000).phase = .exec 0x01000000 .start ∧ decode 0x01000000 = .ok .begin := ⟨rfl, rfl, rfl⟩

theorem witness_CommandTransfer : { ready with sched := [.offer 0x01000000] }.sched = .offer 0x01000000 :: []
    ∧ { ready with sched := [.offer 0x01000000] }.phase = .ready := by decide

theorem witness_CommandTransfer_waits : { started 0x01000000 with sched := [.offer 0] }.phase ≠ .ready := by
  decide

theorem witness_HostChannelMoves_push : { ready with sched := [.push 7] }.sched = .push 7 :: []
    ∧ { ready with sched := [.push 7] }.din.length < cfg.dinDepth := by decide

theorem witness_HostChannelMoves_push_full :
    cfg.dinDepth ≤ { ready with sched := [.push 7], din := [1, 2, 3, 4] }.din.length := by decide

theorem witness_HostChannelMoves_take : { ready with sched := [.take], dout := [7] }.sched = .take :: []
    ∧ { ready with sched := [.take], dout := [7] }.dout = 7 :: [] := by decide

theorem witness_HostChannelMoves_take_empty : { ready with sched := [.take] }.dout = [] := by decide

theorem witness_CoUserMove : { ready with sched := [.coUser ⟨5⟩] }.sched = .coUser ⟨5⟩ :: []
    ∧ { ready with sched := [.coUser ⟨5⟩] }.tpHeld = false
    ∧ { ready with sched := [.coUser ⟨5⟩] }.cfg.profile.has ⟨5⟩ = true := by decide

theorem witness_CoUserMove_last_value : cfg.profile.has ⟨9⟩ = true := by decide

theorem witness_CoUserMove_no_value : cfg.profile.has ⟨10⟩ = false := by decide

theorem witness_CoUserMove_held : { ready with sched := [.coUser ⟨5⟩], tpSave := some ⟨9⟩ }.tpHeld = true := by
  decide

theorem witness_ResetMove : { ready with sched := [.reset] }.sched = .reset :: [] := rfl

theorem witness_ResetValues : { started 0x04000001 with sched := [.reset] }.sched = .reset :: [] := rfl

/-- A HALTED state that keeps the discipline. -/
def halted : State := { ready with phase := .halted, err := .errImage, fault := true }

theorem witness_HaltedIsQuiescent : halted.phase = .halted ∧ halted.sched.head? ≠ some .reset
    ∧ Disciplined halted := ⟨rfl, by decide, ⟨rfl, rfl⟩, rfl, rfl⟩

theorem witness_StatusLayout_data : { ready with xdcs := false }.xcs = true
    ∧ { ready with xdcs := false }.xdcs = false ∧ Disciplined ready := ⟨rfl, rfl, ⟨rfl, rfl⟩, rfl⟩

theorem witness_StatusLayout_draining : { ready with session := .draining }.session = .draining := rfl

theorem witness_StatusLayout_image : halted.err = .errImage := rfl

theorem witness_BeginCompletes :
    let s := { base with
      phase := .exec 0x01000000 .start, dreqIn := [false, true, true], misoIn := [1, 2, 3, 4] }
    s.atStart ∧ [Reply.mk 0 1 2 3 4].length = s.cfg.initWrites.length
    ∧ s.dreqIn = samples s.cfg.readyLevel 1 ++ replyLevels s.cfg.readyLevel [⟨0, 1, 2, 3, 4⟩] ++ []
    ∧ s.misoIn = replyBytes [⟨0, 1, 2, 3, 4⟩] ++ [] := ⟨⟨⟨_, rfl⟩, rfl, rfl⟩, rfl, rfl, rfl⟩

/-- The state in which the register commands complete. -/
def answering (w : CmdWord) : State :=
  { started w with dreqIn := [false, true, true], misoIn := [0, 0, 0x20, 0x21, 0, 0, 0x30, 0x31] }

theorem answering_one (w : CmdWord) : (answering w).answersRegs [⟨1, 0, 0, 0x20, 0x21⟩] [true] [0, 0, 0x30, 0x31] :=
  ⟨rfl, rfl⟩

theorem witness_ReadRegCompletes : (answering 0x020B0000).atStart ∧ (answering 0x020B0000).init = true
    ∧ (answering 0x020B0000).answersRegs [⟨1, 0, 0, 0x20, 0x21⟩] [true] [0, 0, 0x30, 0x31]
    ∧ (answering 0x020B0000).dout.length < (answering 0x020B0000).cfg.doutDepth :=
  ⟨⟨⟨_, rfl⟩, rfl, rfl⟩, rfl, answering_one _, by decide⟩

theorem witness_WriteRegCompletes : (answering 0x030B2020).atStart ∧ (answering 0x030B2020).init = true
    ∧ (answering 0x030B2020).answersRegs [⟨1, 0, 0, 0x20, 0x21⟩] [true] [0, 0, 0x30, 0x31] :=
  ⟨⟨⟨_, rfl⟩, rfl, rfl⟩, rfl, answering_one _⟩

theorem witness_SetVolumeCompletes : (answering 0x0A000020).atStart ∧ (answering 0x0A000020).init = true
    ∧ (answering 0x0A000020).answersRegs [⟨1, 0, 0, 0x20, 0x21⟩] [true] [0, 0, 0x30, 0x31] :=
  ⟨⟨⟨_, rfl⟩, rfl, rfl⟩, rfl, answering_one _⟩

theorem witness_PrintDetailsCompletes : (answering 0x0D000000).atStart ∧ (answering 0x0D000000).init = true
    ∧ [Reply.mk 1 0 0 0x20 0x21, ⟨0, 0, 0, 0x30, 0x31⟩].length = (answering 0x0D000000).cfg.nregs
    ∧ (answering 0x0D000000).answersRegs [⟨1, 0, 0, 0x20, 0x21⟩, ⟨0, 0, 0, 0x30, 0x31⟩] [] []
    ∧ (answering 0x0D000000).dout.length + (answering 0x0D000000).cfg.nregs
        ≤ (answering 0x0D000000).cfg.doutDepth :=
  ⟨⟨⟨_, rfl⟩, rfl, rfl⟩, rfl, rfl, ⟨rfl, rfl⟩, by decide⟩

/-- The state in which the data commands complete: three bytes in two groups. -/
def streaming (w : CmdWord) (x : Session) : State :=
  { started w with session := x, din := [1, 2, 3, 4], dreqIn := [false, true, true], misoIn := [7, 8, 9] }

theorem witness_SendBufferCompletes : (streaming 0x04000003 .idle).atStart
    ∧ (streaming 0x04000003 .idle).init = true ∧ [((1 : Byte), (7 : Byte)), (2, 8), (3, 9)].length = (3 : Len).toNat
    ∧ (streaming 0x04000003 .idle).din = [((1 : Byte), (7 : Byte)), (2, 8), (3, 9)].map (fun b => b.1) ++ [4]
    ∧ (streaming 0x04000003 .idle).answersData [1, 0] [(1, 7), (2, 8), (3, 9)] [] [] :=
  ⟨⟨⟨_, rfl⟩, rfl, rfl⟩, rfl, rfl, rfl, by decide, by decide, rfl, rfl⟩

theorem witness_SendZeroesCompletes : (streaming 0x05000003 .idle).atStart
    ∧ (streaming 0x05000003 .idle).init = true ∧ [(7 : Byte), 8, 9].length = (3 : Len).toNat
    ∧ (streaming 0x05000003 .idle).answersData [1, 0] ([7, 8, 9].map fun i => (0, i)) [] [] :=
  ⟨⟨⟨_, rfl⟩, rfl, rfl⟩, rfl, rfl, by decide, by decide, rfl, rfl⟩

theorem witness_StartSongCompletes : (streaming 0x06000000 .idle).atStart
    ∧ (streaming 0x06000000 .idle).init = true ∧ (streaming 0x06000000 .idle).session = .idle
    ∧ [(7 : Byte)].length = (streaming 0x06000000 .idle).cfg.primeLen
    ∧ (streaming 0x06000000 .idle).answersData [1] ([7].map fun i => (0, i)) [true] [8, 9] :=
  ⟨⟨⟨_, rfl⟩, rfl, rfl⟩, rfl, rfl, rfl, by decide, by decide, rfl, rfl⟩

theorem witness_PlayChunkCompletes : (streaming 0x07000003 .streaming).atStart
    ∧ (streaming 0x07000003 .streaming).init = true ∧ (streaming 0x07000003 .streaming).session = .streaming
    ∧ [((1 : Byte), (7 : Byte)), (2, 8), (3, 9)].length = (3 : Len).toNat
    ∧ (streaming 0x07000003 .streaming).din
        = [((1 : Byte), (7 : Byte)), (2, 8), (3, 9)].map (fun b => b.1) ++ [4]
    ∧ (streaming 0x07000003 .streaming).answersData [1, 0] [(1, 7), (2, 8), (3, 9)] [] [] :=
  ⟨⟨⟨_, rfl⟩, rfl, rfl⟩, rfl, rfl, rfl, rfl, by decide, by decide, rfl, rfl⟩

theorem witness_StopSongCompletes : (streaming 0x08000000 .streaming).atStart
    ∧ (streaming 0x08000000 .streaming).init = true ∧ (streaming 0x08000000 .streaming).session = .streaming
    ∧ [(7 : Byte), 8, 9].length = (streaming 0x08000000 .streaming).cfg.drainLen
    ∧ (streaming 0x08000000 .streaming).answersData [1, 0] ([7, 8, 9].map fun i => (0, i)) [] [] :=
  ⟨⟨⟨_, rfl⟩, rfl, rfl⟩, rfl, rfl, rfl, by decide, by decide, rfl, rfl⟩

/-- The state in which LOAD_IMAGE of three words meets its image, with a byte more in DIN. -/
def loading (h : Byte) : State :=
  { started 0x09000003 with
    din := [0x00, 0x07, h, 0x02, 0xCC, 0xCD, 0x55], dreqIn := [true, true, true],
    misoIn := [0, 0, 0, 0, 0, 0, 0, 0, 0, 0, 0, 0] }

theorem witness_LoadImageCompletes : (loading 0x80).atStart ∧ (loading 0x80).init = true
    ∧ [(0x0007 : Word), 0x8002, 0xCCCD].length = (3 : Len).toNat ∧ imageWf [0x0007, 0x8002, 0xCCCD] = true
    ∧ (loading 0x80).din
        = [(0x0007 : Word), 0x8002, 0xCCCD].flatMap (fun v => [v.extractLsb' 8 8, v.extractLsb' 0 8]) ++ [0x55]
    ∧ [reply 0 0, reply 0 0, reply 0 0].length
        = (loadWrites (imageActs (loading 0x80).cfg [0x0007, 0x8002, 0xCCCD]).1).length
    ∧ (loading 0x80).answersRegs [reply 0 0, reply 0 0, reply 0 0] [] [] :=
  ⟨⟨⟨_, rfl⟩, rfl, rfl⟩, rfl, rfl, by decide, by decide, by decide, rfl, rfl⟩

theorem witness_MalformedImageFaults : (loading 0x00).atStart ∧ (loading 0x00).init = true
    ∧ [(0x0007 : Word), 0x0002, 0xCCCD].length = (3 : Len).toNat ∧ imageWf [0x0007, 0x0002, 0xCCCD] = false
    ∧ (loading 0x00).din
        = [(0x0007 : Word), 0x0002, 0xCCCD].flatMap (fun v => [v.extractLsb' 8 8, v.extractLsb' 0 8]) ++ [0x55]
    ∧ ([] : List Reply).length = (loadWrites (imageActs (loading 0x00).cfg [0x0007, 0x0002, 0xCCCD]).1).length
    ∧ (loading 0x00).answersRegs [] [true, true, true] [0, 0, 0, 0, 0, 0, 0, 0, 0, 0, 0, 0] :=
  ⟨⟨⟨_, rfl⟩, rfl, rfl⟩, rfl, rfl, by decide, by decide, by decide, rfl, rfl⟩

theorem witness_BeginMidiCompletes :
    let s := { started 0x0B000000 with
      dreqIn := [true, true, true, true], misoIn := [0, 0, 0, 0, 0, 0, 0, 0, 0, 0, 0, 0, 0, 0, 0, 0] }
    s.atStart ∧ s.init = true ∧ imageWf s.cfg.midiImage = true
    ∧ [reply 0 0, reply 0 0, reply 0 0].length = (imageWrites s.cfg s.cfg.midiImage).length
    ∧ [reply 0 0].length = s.cfg.midiWrites.length
    ∧ s.answersRegs ([reply 0 0, reply 0 0, reply 0 0] ++ [reply 0 0]) [] [] :=
  ⟨⟨⟨_, rfl⟩, rfl, rfl⟩, rfl, by decide, by decide, rfl, rfl, rfl⟩

theorem witness_MalformedMidiImageFaults :
    let s := { started 0x0B000000 with cfg := { cfg with midiImage := [0x0007] } }
    s.atStart ∧ s.init = true ∧ imageWf s.cfg.midiImage = false
    ∧ ([] : List Reply).length = (imageWrites s.cfg s.cfg.midiImage).length ∧ s.answersRegs [] [] [] :=
  ⟨⟨⟨_, rfl⟩, rfl, rfl⟩, rfl, by decide, by decide, rfl, rfl⟩

theorem witness_SendMidiCompletes :
    let s := { started 0x0C903C7F with dreqIn := [true, true, true], misoIn := [1, 2, 3, 4, 5, 6] }
    s.atStart ∧ s.init = true
    ∧ [((0 : Byte), (1 : Byte)), (0x90, 2), (0, 3), (0x3C, 4), (0, 5), (0x7F, 6)].map (fun b => b.1)
        = [s.cfg.midiPad, 0x90, s.cfg.midiPad, 0x3C, s.cfg.midiPad, 0x7F]
    ∧ s.answersData [0, 0, 0] [(0, 1), (0x90, 2), (0, 3), (0x3C, 4), (0, 5), (0x7F, 6)] [] [] :=
  ⟨⟨⟨_, rfl⟩, rfl, rfl⟩, rfl, rfl, by decide, by decide, rfl, rfl⟩

theorem witness_RejectionIsPrecise : (streaming 0x07000002 .idle).phase = .exec 0x07000002 .start
    ∧ rejection (.playChunk 2) (streaming 0x07000002 .idle) = some .errSession
    ∧ (streaming 0x07000002 .idle).din = [1, 2] ++ [3, 4]
    ∧ [(1 : Byte), 2].length = discardBytes (.playChunk 2) := by decide

theorem witness_RejectionIsPrecise_word : (started 0x00000000).phase = .exec 0 .start
    ∧ decode 0 = .error .errOpcode := ⟨rfl, rfl⟩

/-- Two causes apply to this word (R303's own example), and the first wins. -/
theorem witness_FirstCauseIsReported :
    let s := { base with phase := .exec 0x06000001 .start }
    s.sched = [] ∧ rejectionCauses 0x06000001 s = .errReserved :: [.errNotInit] ∧ s.din = [] ++ []
    ∧ ([] : List Byte).length = discardOf 0x06000001 .errReserved := by decide

theorem witness_FirstCauseIsReported_session :
    let s := { base with phase := .exec 0x07000001 .start, din := [5] }
    rejectionCauses 0x07000001 s = .errNotInit :: [.errSession] ∧ s.din = [5] ++ []
    ∧ [(5 : Byte)].length = discardOf 0x07000001 .errNotInit := by decide

theorem witness_FirstCauseIsReported_none : rejectionCauses 0x06000000 ready = [] := by decide

theorem witness_EquivalentCommands : (streaming 0x07000003 .streaming).phase = .exec 0x07000003 .start
    ∧ (streaming 0x07000003 .streaming).session = .streaming := by decide

theorem witness_RecordCounts_copy :
    [(1 : Word), 2].length = (if (0x0002 : Word).getLsbD 15 then 1 else ((0x0002 : Word).extractLsb' 0 15).toNat) := by
  decide

theorem witness_RecordCounts_empty_copy :
    ([] : List Word).length = (if (0 : Word).getLsbD 15 then 1 else ((0 : Word).extractLsb' 0 15).toNat) := by decide

theorem witness_RecordCounts_repeat :
    [(1 : Word)].length = (if (0xFFFF : Word).getLsbD 15 then 1 else ((0xFFFF : Word).extractLsb' 0 15).toNat) := by
  decide

/-- R236 on 95_test_vectors.md 1.6's images, one after the other: 4 + 3 words, 3 + 4 writes. -/
theorem test_record_counts :
    (loadWords (imageActs cfg [0x0007, 0x0002, 0xAAAA, 0xBBBB, 0x0007, 0x8003, 0xCCCC]).1).length = 7
    ∧ (loadWrites (imageActs cfg [0x0007, 0x0002, 0xAAAA, 0xBBBB, 0x0007, 0x8003, 0xCCCC]).1).length = 7 := by
  decide

theorem witness_LoaderEndsIffWellFormed : imageWf [0x0007, 0x8003, 0xCCCC] = true := by decide

theorem witness_WriteThenReadRoundTrip :
    let s := { ready with
      sched := [.offer (encode (.writeReg 0x05 0x1234)), .offer (encode (.readReg 0x05))],
      dreqIn := [true, true], misoIn := [0, 0, 0, 0, 0, 0, 0x12, 0x34] }
    s.phase = .ready ∧ s.busFree ∧ s.init = true ∧ s.dout.length < s.cfg.doutDepth
    ∧ s.answersRegs [reply 0 0, reply 0x12 0x34] [] []
    ∧ (reply 0x12 0x34).b2 = (0x1234 : Word).extractLsb' 8 8
    ∧ (reply 0x12 0x34).b3 = (0x1234 : Word).extractLsb' 0 8 :=
  ⟨rfl, ⟨rfl, rfl⟩, rfl, by decide, ⟨rfl, rfl⟩, by decide, by decide⟩

theorem witness_EventCounts_readReg : (answering 0x020B0000).atStart ∧ (answering 0x020B0000).init = true
    ∧ (answering 0x020B0000).answersRegs [⟨1, 0, 0, 0x20, 0x21⟩] [true] [0, 0, 0x30, 0x31]
    ∧ (answering 0x020B0000).dout.length < (answering 0x020B0000).cfg.doutDepth := witness_ReadRegCompletes

theorem witness_EventCounts_writeReg : (answering 0x030B2020).atStart ∧ (answering 0x030B2020).init = true
    ∧ (answering 0x030B2020).answersRegs [⟨1, 0, 0, 0x20, 0x21⟩] [true] [0, 0, 0x30, 0x31] :=
  witness_WriteRegCompletes

theorem witness_EventCounts_setVolume : (answering 0x0A000020).atStart ∧ (answering 0x0A000020).init = true
    ∧ (answering 0x0A000020).answersRegs [⟨1, 0, 0, 0x20, 0x21⟩] [true] [0, 0, 0x30, 0x31] :=
  witness_SetVolumeCompletes

theorem witness_EventCounts_sendBuffer_playChunk : (streaming 0x07000003 .streaming).atStart
    ∧ (streaming 0x07000003 .streaming).init = true
    ∧ [((1 : Byte), (7 : Byte)), (2, 8), (3, 9)].length = (3 : Len).toNat
    ∧ (streaming 0x07000003 .streaming).din
        = [((1 : Byte), (7 : Byte)), (2, 8), (3, 9)].map (fun b => b.1) ++ [4]
    ∧ (streaming 0x07000003 .streaming).answersData [1, 0] [(1, 7), (2, 8), (3, 9)] [] []
    ∧ (streaming 0x07000003 .streaming).session = .streaming :=
  ⟨⟨⟨_, rfl⟩, rfl, rfl⟩, rfl, rfl, rfl, ⟨by decide, by decide, rfl, rfl⟩, rfl⟩

theorem witness_EventCounts_sendZeroes : (streaming 0x05000003 .idle).atStart
    ∧ (streaming 0x05000003 .idle).init = true ∧ [(7 : Byte), 8, 9].length = (3 : Len).toNat
    ∧ (streaming 0x05000003 .idle).answersData [1, 0] ([7, 8, 9].map fun i => (0, i)) [] [] :=
  witness_SendZeroesCompletes

theorem witness_EventCounts_sendMidi :
    let s := { started 0x0C903C7F with dreqIn := [true, true, true], misoIn := [1, 2, 3, 4, 5, 6] }
    s.atStart ∧ s.init = true
    ∧ [((0 : Byte), (1 : Byte)), (0x90, 2), (0, 3), (0x3C, 4), (0, 5), (0x7F, 6)].map (fun b => b.1)
        = [s.cfg.midiPad, 0x90, s.cfg.midiPad, 0x3C, s.cfg.midiPad, 0x7F]
    ∧ s.answersData [0, 0, 0] [(0, 1), (0x90, 2), (0, 3), (0x3C, 4), (0, 5), (0x7F, 6)] [] [] :=
  witness_SendMidiCompletes

/-- `Cmd` and `End` are no primitive events (R359 counts the others). -/
theorem test_primitive_events : [Event.cmd 0, .din 1, .xfer 1 2, .done .ok].filter Event.ofPrimitive
    = [.din 1, .xfer 1 2] := by decide

theorem witness_AwaitReadyPolls :
    let s := { inside 0x01000000 [.awaitReady] with dreqIn := [false, false] }
    s.phase = .exec 0x01000000 (.run .blank (.awaitReady :: []))
    ∧ s.dreqIn = List.replicate 2 (!s.cfg.readyLevel) ++ [] := by decide

theorem witness_AwaitReadyPolls_ready :
    let s := { inside 0x01000000 [.awaitReady] with dreqIn := [true] }
    s.dreqIn = s.cfg.readyLevel :: [] := by decide

theorem witness_UnqueuedAnswersAreFree_sample :
    (inside 0x01000000 [.awaitReady]).phase = .exec 0x01000000 (.run .blank (.awaitReady :: []))
    ∧ (inside 0x01000000 [.awaitReady]).dreqIn = [] := by decide

theorem witness_UnqueuedAnswersAreFree_exchange :
    (inside 0x03000000 [.xfer 2 .drop]).phase = .exec 0x03000000 (.run .blank (.xfer 2 .drop :: []))
    ∧ (inside 0x03000000 [.xfer 2 .drop]).misoIn = [] := by decide

theorem witness_HoldsChangeNothing_pop : (inside 0x09000002 [.dinPop .hi]).phase = .exec 0x09000002 (.run .blank (.dinPop .hi :: []))
    ∧ (inside 0x09000002 [.dinPop .hi]).din = [] := by decide

theorem witness_HoldsChangeNothing_send : (inside 0x04000002 [.dinSend]).phase = .exec 0x04000002 (.run .blank (.dinSend :: []))
    ∧ (inside 0x04000002 [.dinSend]).din = [] := by decide

theorem witness_HoldsChangeNothing_pop_byte :
    let s := { inside 0x09000002 [.dinPop .hi] with din := [7, 8] }
    s.phase = .exec 0x09000002 (.run .blank (.dinPop .hi :: [])) ∧ s.din = 7 :: [8] := by decide

theorem witness_HoldsChangeNothing_send_byte :
    let s := { inside 0x04000002 [.dinSend] with din := [7, 8] }
    s.phase = .exec 0x04000002 (.run .blank (.dinSend :: [])) ∧ s.din = 7 :: [8] := by decide

theorem witness_HoldsChangeNothing_push :
    let s := { inside 0x02000000 [.doutPush] with dout := [1, 2] }
    s.phase = .exec 0x02000000 (.run .blank (.doutPush :: [])) ∧ s.cfg.doutDepth ≤ s.dout.length := by decide

theorem witness_HoldsChangeNothing_push_room :
    let s := { inside 0x02000000 [.doutPush] with dout := [1] }
    s.dout.length < s.cfg.doutDepth := by decide

theorem witness_HoldsChangeNothing_ready : ready.phase = .ready ∧ ready.sched = [] := by decide

/-- SEND_BUFFER at its one byte, which the host has yet to push. -/
def awaitingByte : State :=
  { inside 0x04000001 [.dinSend, .setLine .xdcs true, .tpRestore, .finish .ok] with
    xdcs := false, tpSave := some ⟨9⟩, tp := ⟨2⟩, misoIn := [7], sched := [.push 5] }

/-- The run takes the byte, exchanges it and leaves data mode. -/
theorem witness_HostMayPushDuringTheCommand :
    1 ≤ awaitingByte.cfg.dinDepth
    ∧ awaitingByte.phase = .exec 0x04000001 (.run .blank [.dinSend, .setLine .xdcs true, .tpRestore, .finish .ok])
    ∧ decode 0x04000001 = .ok (.sendBuffer 1) ∧ awaitingByte.sched = [5].map .push
    ∧ execN (.sendBuffer 1) 3 { awaitingByte with din := awaitingByte.din ++ [5], sched := [] }
        = .next { awaitingByte with
          phase := .exec 0x04000001 (.run .blank [.tpRestore, .finish .ok]), xdcs := true, misoIn := [],
          sched := [], trace := [.din 5, .xfer 5 7, .line .xdcs true] } := ⟨by decide, rfl, rfl, rfl, rfl⟩

/-- READ_REG at its push into a full DOUT, from which the host has yet to take a word. -/
def awaitingRoom : State :=
  { inside 0x020B0000 [.doutPush, .finish .ok] with dout := [1, 2], sched := [.take] }

/-- With one more place the run pushes its word and completes. -/
theorem witness_HostMayTakeDuringTheCommand :
    1 ≤ awaitingRoom.cfg.doutDepth ∧ awaitingRoom.phase = .exec 0x020B0000 (.run .blank [.doutPush, .finish .ok])
    ∧ decode 0x020B0000 = .ok (.readReg 0x0B) ∧ awaitingRoom.sched = List.replicate 1 .take
    ∧ execN (.readReg 0x0B) 1
        { awaitingRoom with cfg := { awaitingRoom.cfg with doutDepth := awaitingRoom.cfg.doutDepth + 1 }, sched := [] }
        = .next { awaitingRoom with
          cfg := { awaitingRoom.cfg with doutDepth := awaitingRoom.cfg.doutDepth + 1 }, sched := [],
          phase := .ready, dout := [1, 2, 0], trace := [.dout 0, .done .ok] } :=
  ⟨by decide, rfl, rfl, rfl, rfl⟩

/-- In the middle of WRITE_REG's frame, about to exchange a byte. -/
def exchanging : State :=
  { inside 0x030B2020 [.xfer 0x0B .drop, .setLine .xcs true, .tpRestore, .finish .ok] with
    xcs := false, tpSave := some ⟨9⟩, tp := ⟨2⟩, trace := [.ready true], misoIn := [0x77] }

theorem exchanging_disciplined : Disciplined exchanging := by
  refine ⟨rfl, ⟨.writeReg 0x0B 0x2020, rfl⟩, rfl, true, fun _ => rfl, by decide⟩

theorem witness_StepKeepsDiscipline : Disciplined exchanging ∧ step exchanging = .next (after (step exchanging)) :=
  ⟨exchanging_disciplined, rfl⟩

theorem witness_SelectsNeverBothLow : Disciplined exchanging ∧ stepN 1 { State.resetWith cfg ⟨9⟩ with
      sched := [.offer 0x01000000], dreqIn := [], misoIn := [] }
    = .next (after (step { State.resetWith cfg ⟨9⟩ with sched := [.offer 0x01000000], dreqIn := [], misoIn := [] })) :=
  ⟨exchanging_disciplined, rfl⟩

theorem witness_StepAlwaysAnswers : Disciplined exchanging := exchanging_disciplined

theorem witness_NoExchangeWhileBusy : Disciplined exchanging
    ∧ step exchanging = .next (after (step exchanging))
    ∧ (after (step exchanging)).trace = exchanging.trace ++ .xfer 0x0B 0x77 :: [] :=
  ⟨exchanging_disciplined, rfl, by decide⟩

theorem exchanging_serves : ServesCommand exchanging := by
  intro i h op hop
  have e : decode 0x030B2020 = .ok (.writeReg 0x0B 0x2020) := rfl
  rw [e] at h
  obtain rfl := Except.ok.inj h
  revert op
  decide

theorem witness_StepKeepsServing : ServesCommand exchanging ∧ step exchanging = .next (after (step exchanging)) :=
  ⟨exchanging_serves, rfl⟩

theorem witness_OnlyNamedWritersWrite :
    exchanging.phase = .exec 0x030B2020
      (.run .blank [.xfer 0x0B .drop, .setLine .xcs true, .tpRestore, .finish .ok])
    ∧ decode 0x030B2020 = .ok (.writeReg 0x0B 0x2020) ∧ ServesCommand exchanging
    ∧ exec (.writeReg 0x0B 0x2020) exchanging = .next (after (exec (.writeReg 0x0B 0x2020) exchanging)) :=
  ⟨rfl, rfl, exchanging_serves, rfl⟩

theorem witness_StepKeepsSessionSettled : SessionSettled (started 0x06000000)
    ∧ step (started 0x06000000) = .next (after (step (started 0x06000000))) := ⟨rfl, rfl⟩

theorem witness_StepKeepsBuffersFit :
    let s := { ready with sched := [.push 7], din := [1, 2, 3] }
    BuffersFit s ∧ step s = .next (after (step s)) := ⟨⟨by decide, by decide⟩, rfl⟩

theorem witness_TraceOnlyGrows : controllerStep exchanging = .next (after (controllerStep exchanging))
    ∧ step exchanging = .next (after (step exchanging)) := ⟨rfl, rfl⟩

theorem witness_CommandStaysLatched : exchanging.sched.head? ≠ some .reset
    ∧ step exchanging = .next (after (step exchanging)) := ⟨by decide, rfl⟩

theorem witness_CommandStaysLatched_ready :
    let s := { ready with sched := [.offer 0x01000000] }
    s.sched.head? ≠ some .reset ∧ step s = .next (after (step s)) ∧ s.phase = .ready := ⟨by decide, rfl, rfl⟩

theorem witness_HeldProfileIsRestored : exchanging.tpSave = some ⟨9⟩ ∧ exchanging.sched.head? ≠ some .reset
    ∧ step exchanging = .next (after (step exchanging)) := ⟨rfl, by decide, rfl⟩

/-- Before a write of BEGIN_MIDI, with one co-user's move before it and one after. -/
theorem witness_CoUserMovesBetweenTransactions_write :
    let s := { inside 0x0B000000 (regWrite cfg 0x0A 0x0050 ++ [.assign (.midi true), .finish .ok]) with
      sched := [.coUser ⟨5⟩, .controller, .coUser ⟨6⟩], dreqIn := [false, true], misoIn := [0, 0, 0, 0] }
    decode 0x0B000000 = .ok .beginMidi ∧ s.busFree
    ∧ s.cfg.profile.has ⟨5⟩ = true ∧ s.cfg.profile.has ⟨6⟩ = true
    ∧ s.sched = .coUser ⟨5⟩ :: .controller :: .coUser ⟨6⟩ :: [] ∧ s.answersRegs [⟨1, 0, 0, 0, 0⟩] [] []
    ∧ s.phase = .exec 0x0B000000 (.run .blank (regWrite s.cfg 0x0A 0x0050 ++ [.assign (.midi true), .finish .ok])) :=
  ⟨rfl, ⟨rfl, rfl⟩, rfl, rfl, rfl, ⟨rfl, rfl⟩, rfl⟩

/-- Before the second read of PRINT_DETAILS. -/
theorem witness_CoUserMovesBetweenTransactions_read :
    let s := { inside 0x0D000000 (regRead cfg 1 ++ [.doutPush, .readRegs 2 0, .finish .ok]) with
      sched := [.coUser ⟨5⟩, .controller, .coUser ⟨6⟩], dreqIn := [true], misoIn := [0, 0, 0x12, 0x34] }
    decode 0x0D000000 = .ok .printDetails ∧ s.busFree
    ∧ s.cfg.profile.has ⟨5⟩ = true ∧ s.cfg.profile.has ⟨6⟩ = true
    ∧ s.sched = .coUser ⟨5⟩ :: .controller :: .coUser ⟨6⟩ :: [] ∧ s.answersRegs [reply 0x12 0x34] [] []
    ∧ s.phase = .exec 0x0D000000 (.run .blank (regRead s.cfg 1 ++ [.doutPush, .readRegs 2 0, .finish .ok])) :=
  ⟨rfl, ⟨rfl, rfl⟩, rfl, rfl, rfl, ⟨rfl, rfl⟩, rfl⟩

/-- PRINT_DETAILS under co-users, up to the apply of its second transaction. -/
theorem witness_CoUsersChangeOnlyProfilesFound :
    let s := { answering 0x0D000000 with sched := [.coUser ⟨5⟩, .controller, .controller, .coUser ⟨6⟩] }
    s.phase = .exec 0x0D000000 .start ∧ s.busFree ∧ decode 0x0D000000 = .ok .printDetails
    ∧ (∀ mv ∈ s.sched, mv = .controller ∨ ∃ p, mv = .coUser p)
    ∧ execN .printDetails 16 { s with sched := [] } = .next (after (execN .printDetails 16 { s with sched := [] })) :=
  ⟨rfl, ⟨rfl, rfl⟩, rfl, by simp, rfl⟩

/-- R350: of two transactions' events only the profiles applied are left in sight. -/
theorem test_hide_found : hideFound false [.tpGet ⟨5⟩, .tpSet ⟨2⟩, .ready true, .tpSet ⟨5⟩, .tpGet ⟨6⟩, .tpSet ⟨2⟩]
    = [.tpGet ⟨0⟩, .tpSet ⟨2⟩, .ready true, .tpSet ⟨0⟩, .tpGet ⟨0⟩, .tpSet ⟨2⟩] := by decide

theorem exchanging_profiles : ProfilesFit exchanging := by
  refine ⟨by decide, by decide, by decide, by decide, ?_, ?_, ?_⟩
  · intro p h; cases h; decide
  · intro p h; simp [exchanging] at h
  · intro w loc ops p h hm; cases h; simp at hm

theorem witness_StepKeepsProfilesFit : ProfilesFit exchanging
    ∧ step exchanging = .next (after (step exchanging)) := ⟨exchanging_profiles, rfl⟩

theorem witness_ResetProfilesFit : cfg.wf = true ∧ cfg.profile.has ⟨9⟩ = true := by decide

end Sys2Proof.Tests.Slice0
end

section
/-!
The profiles and the trace of a step, shared by the statements about 10_state.md R51 and about the parameter
`Profile` (00_scope.md R10). The machine only copies profiles: a step of the controller brings in no profile that
was not in the state before it.
-/

namespace Sys2Proof.Machine

open Sys2Proof

/-! ## The profiles of a state -/

/-- `p` is the shared profile, the driver's, the one held or one in the trace. -/
def State.holds (s : State) (p : Profile) : Prop :=
  p = s.tp ∨ p = s.drvTp ∨ s.tpSave = some p ∨ .tpGet p ∈ s.trace ∨ .tpSet p ∈ s.trace

/-- The running micro-program has yet to assign `p` to `DRV_TP`. -/
def State.willAssign (s : State) (p : Profile) : Prop :=
  ∃ w loc ops, s.phase = .exec w (.run loc ops) ∧ .assign (.drvTp p) ∈ ops

theorem State.holds_tp (s : State) : s.holds s.tp := .inl rfl

theorem State.holds_drvTp (s : State) : s.holds s.drvTp := .inr (.inl rfl)

theorem State.holds_of_tpSave {s : State} {p : Profile} (h : s.tpSave = some p) : s.holds p :=
  .inr (.inr (.inl h))

theorem State.holds_of_trace {s : State} {p : Profile} (h : .tpGet p ∈ s.trace ∨ .tpSet p ∈ s.trace) :
    s.holds p := .inr (.inr (.inr h))

/-- `p` is `TP_INIT` or `TP_RUN`. -/
def IsParameter (c : Config) (p : Profile) : Prop := p = c.tpInit ∨ p = c.tpRun

/-- `p` stands anywhere in the state. -/
def State.mentions (s : State) (p : Profile) : Prop := IsParameter s.cfg p ∨ s.holds p ∨ s.willAssign p

theorem profilesFit_iff (s : State) : ProfilesFit s ↔ ∀ p, s.mentions p → s.cfg.profile.has p = true := by
  constructor
  · rintro ⟨hinit, hrun, htp, hdrv, hsave, htrace, hops⟩ p
      ((rfl | rfl) | (rfl | rfl | h | h | h) | ⟨w, loc, ops, hp, hm⟩)
    exacts [hinit, hrun, htp, hdrv, hsave p h, htrace p (.inl h), htrace p (.inr h), hops w loc ops p hp hm]
  · intro h
    have held : ∀ p, s.holds p → s.cfg.profile.has p = true := fun p hp => h p (.inr (.inl hp))
    exact ⟨h _ (.inl (.inl rfl)), h _ (.inl (.inr rfl)), held _ s.holds_tp, held _ s.holds_drvTp,
      fun p hp => held p (State.holds_of_tpSave hp), fun p hp => held p (State.holds_of_trace hp),
      fun w loc ops p hp hm => h p (.inr (.inr ⟨w, loc, ops, hp, hm⟩))⟩

@[simp] theorem State.not_willAssign_finish (c : ResultCode) (s : State) (p : Profile) :
    ¬ (s.finish c).willAssign p := by simp [State.willAssign]

@[simp] theorem State.not_willAssign_raiseFault (c : ResultCode) (s : State) (p : Profile) :
    ¬ (s.raiseFault c).willAssign p := by simp [State.willAssign]

theorem State.willAssign_at (s : State) (w : CmdWord) (loc : Locals) (ops : List Op) (p : Profile) :
    (s.at w loc ops).willAssign p ↔ .assign (.drvTp p) ∈ ops := by
  constructor
  · rintro ⟨_, _, _, h, hm⟩; cases h; exact hm
  · exact fun hm => ⟨w, loc, ops, rfl, hm⟩

theorem State.holds_at (s : State) (w : CmdWord) (loc : Locals) (ops : List Op) (p : Profile) :
    (s.at w loc ops).holds p ↔ s.holds p := Iff.rfl

@[simp] theorem State.holds_finish (c : ResultCode) (s : State) (p : Profile) :
    (s.finish c).holds p ↔ s.holds p := by simp [State.holds]

@[simp] theorem State.holds_raiseFault (c : ResultCode) (s : State) (p : Profile) :
    (s.raiseFault c).holds p ↔ s.holds p := by simp [State.holds]

theorem State.holds_assign {a : Assign} {s : State} {p : Profile} (h : (s.assign a).holds p) :
    s.holds p ∨ a = .drvTp p := by
  cases a with
  | drvTp q =>
    rcases h with h | rfl | h
    · exact .inl (.inl h)
    · exact .inr rfl
    · exact .inl (.inr (.inr h))
  | init _ => exact .inl h
  | session _ => exact .inl h
  | midi _ => exact .inl h
  | err _ => exact .inl h

/-! ## What one primitive does to the profiles and the trace -/

/-- From `s` to `x` one primitive at most has had its effect: the configuration is the same, every profile held
was held before, and at most one event was recorded, which is no `End` (00_scope.md R15). -/
structure PrimitiveEffect (s x : State) : Prop where
  cfg : x.cfg = s.cfg
  holds : ∀ p, x.holds p → s.holds p
  trace : ∃ evs, x.trace = s.trace ++ evs ∧ evs.length ≤ 1 ∧ ∀ c, .done c ∉ evs

namespace PrimitiveEffect

variable {s x : State}

theorem refl (s : State) : PrimitiveEffect s s := ⟨rfl, fun _ h => h, [], by simp⟩

/-- An effect that records `e` and touches no profile. -/
theorem of_quiet (e : Event) (hcfg : x.cfg = s.cfg) (htp : x.tp = s.tp) (hdrv : x.drvTp = s.drvTp)
    (hsave : x.tpSave = s.tpSave) (htrace : x.trace = s.trace ++ [e]) (hget : ∀ p, e ≠ .tpGet p)
    (hset : ∀ p, e ≠ .tpSet p) (hend : ∀ c, e ≠ .done c) : PrimitiveEffect s x where
  cfg := hcfg
  holds p h := by
    simpa [State.holds, htp, hdrv, hsave, htrace, (hget p).symm, (hset p).symm] using h
  trace := ⟨[e], htrace, le_rfl, fun c => by simpa using (hend c).symm⟩

theorem setLine (l : Line) (v : Level) (s : State) : PrimitiveEffect s (s.setLine l v) :=
  of_quiet (.line l v) (by simp) (by simp) (by simp) (by simp) (by simp) nofun nofun nofun

theorem afterSample (s : State) : PrimitiveEffect s s.afterSample :=
  of_quiet (.ready s.sampleReady) (by simp) (by simp) (by simp) (by simp) (by simp) nofun nofun nofun

theorem afterXfer (o : Byte) (s : State) : PrimitiveEffect s (s.afterXfer o) :=
  of_quiet (.xfer o s.misoByte) (by simp) (by simp) (by simp) (by simp) (by simp) nofun nofun nofun

theorem dinPop (b : Byte) (bs : List Byte) (s : State) : PrimitiveEffect s (s.dinPop b bs) :=
  of_quiet (.din b) rfl rfl rfl rfl rfl nofun nofun nofun

theorem doutPush (v : Word) (s : State) : PrimitiveEffect s (s.doutPush v) :=
  of_quiet (.dout v) rfl rfl rfl rfl rfl nofun nofun nofun

/-- The profile that `TxnBegin` saves and records is the shared one (R152). -/
theorem tpCapture (s : State) : PrimitiveEffect s s.tpCapture where
  cfg := rfl
  holds p h := by
    have h' : p = s.tp ∨ s.holds p := by
      simp only [State.holds, State.tpCapture_tp, State.tpCapture_drvTp, State.tpCapture_tpSave,
        State.tpCapture_trace, List.mem_append, List.mem_singleton, Option.some.injEq, Event.tpGet.injEq,
        reduceCtorEq, or_false] at h ⊢
      tauto
    exact h'.elim (fun e => e ▸ s.holds_tp) id
  trace := ⟨[.tpGet s.tp], rfl, le_rfl, by simp⟩

/-- A profile that is written as the shared one was held before. -/
theorem tpWrite {q : Profile} (hq : s.holds q) : PrimitiveEffect s (s.tpWrite q) where
  cfg := rfl
  holds p h := by
    have h' : p = q ∨ s.holds p := by
      simp only [State.holds, State.tpWrite_tp, State.tpWrite_drvTp, State.tpWrite_tpSave,
        State.tpWrite_trace, List.mem_append, List.mem_singleton, Event.tpSet.injEq, reduceCtorEq,
        or_false] at h ⊢
      tauto
    exact h'.elim (fun e => e ▸ hq) id
  trace := ⟨[.tpSet q], rfl, le_rfl, by simp⟩

/-- `TxnEnd` writes back the profile that was held, and holds none (R153). -/
theorem tpRestore {q : Profile} (hq : s.tpSave = some q) : PrimitiveEffect s (s.tpRestore q) where
  cfg := rfl
  holds p h := by
    refine (tpWrite (State.holds_of_tpSave hq)).holds p ?_
    rcases h with h | h | h | h
    · exact .inl h
    · exact .inr (.inl h)
    · cases h
    · exact .inr (.inr (.inr h))
  trace := ⟨[.tpSet q], rfl, le_rfl, by simp⟩

end PrimitiveEffect

/-! ## What `settle` does to the profiles and the trace -/

@[simp] theorem assign_notMem_regRead (c : Config) (a : Byte) (x : Assign) : .assign x ∉ regRead c a := by
  simp [regRead, txnBegin, enterControl, exitControl, txnEnd]

@[simp] theorem assign_notMem_regWrite (c : Config) (a : Byte) (v : Word) (x : Assign) :
    .assign x ∉ regWrite c a v := by
  simp [regWrite, txnBegin, enterControl, exitControl, txnEnd]

@[simp] theorem assign_notMem_dataSend (src : DataSrc) (n : Nat) (x : Assign) : .assign x ∉ dataSend src n := by
  simp [dataSend, txnBegin, enterData, exitData, txnEnd]

@[simp] theorem assign_notMem_nextWordDin (x : Assign) : .assign x ∉ nextWordDin := by simp [nextWordDin]

@[simp] theorem assign_notMem_sendNext (src : DataSrc) (x : Assign) : .assign x ∉ src.sendNext := by
  cases src <;> simp [DataSrc.sendNext]

/-- No item turns into an assignment: loops turn into primitives and loops. -/
theorem assign_notMem_expand {op : Op} {c : Config} {loc loc' : Locals} {ops : List Op}
    (he : op.expand c loc = some (loc', ops)) (a : Assign) : .assign a ∉ ops := by
  cases op
  case regWrites l => rcases l with _ | ⟨⟨r, v⟩, l⟩ <;> (cases he; simp)
  case raiseImage => cases he
  case sendGroups | sendBytes | readRegs | imageHeader | imageSelect | imageCopy | imageRepeat | discard =>
    simp only [Op.expand] at he
    split at he <;> cases he <;> simp
  case imageLoop | imagePayload =>
    simp only [Op.expand] at he
    split at he
    · cases he; simp
    · split at he <;> cases he <;> simp
  all_goals (cases he; simp)

/-- `settle` brings in no profile but those that the items it runs assign. -/
theorem holds_or_assign_of_settle {w : CmdWord} {ops : List Op} {loc : Locals} {s : State} {p : Profile}
    (h : (settle w ops loc s).holds p ∨ (settle w ops loc s).willAssign p) :
    s.holds p ∨ .assign (.drvTp p) ∈ ops := by
  induction ops generalizing loc s with
  | nil => simpa [settle_nil] using h
  | cons op rest ih =>
    by_cases hp : op.isPrimitive = true
    · simpa only [settle_primitive hp, State.holds_at, State.willAssign_at] using h
    · rcases Op.silent_cases op (by simpa using hp) with ⟨c, rfl⟩ | ⟨a, rfl⟩ | he
      · left; simpa [settle_finish] using h
      · rw [settle_assign] at h
        rcases ih h with h | h
        · exact (State.holds_assign h).imp id (by rintro rfl; exact List.mem_cons_self)
        · exact .inr (List.mem_cons_of_mem _ h)
      · rcases hx : op.expand s.cfg loc with _ | ⟨loc', _ | ⟨op', ops'⟩⟩
        · left; simpa [settle_faults he hx] using h
        · rw [settle_gone he hx] at h
          exact (ih h).imp id (List.mem_cons_of_mem _)
        · rw [settle_opens he hx, State.holds_at, State.willAssign_at, List.mem_append] at h
          have hnew : .assign (.drvTp p) ∉ op' :: ops' := assign_notMem_expand hx _
          exact h.imp id fun hm => List.mem_cons_of_mem _ (hm.resolve_left hnew)

/-- `settle` records nothing but the `End` of a command that it ends, whose code is then in `ERR`. -/
theorem settle_records (w : CmdWord) (ops : List Op) (loc : Locals) (s : State) :
    (settle w ops loc s).trace = s.trace
    ∨ ((settle w ops loc s).trace = s.trace ++ [.done (settle w ops loc s).err]
      ∧ ((settle w ops loc s).phase = .ready ∨ (settle w ops loc s).phase = .halted)) := by
  induction ops generalizing loc s with
  | nil => right; simp [settle_nil]
  | cons op rest ih =>
    by_cases hp : op.isPrimitive = true
    · left; rw [settle_primitive hp]; rfl
    · rcases Op.silent_cases op (by simpa using hp) with ⟨c, rfl⟩ | ⟨a, rfl⟩ | he
      · right; simp [settle_finish]
      · rw [settle_assign]; simpa using ih loc (s.assign a)
      · rcases hx : op.expand s.cfg loc with _ | ⟨loc', _ | ⟨op', ops'⟩⟩
        · right; simp [settle_faults he hx]
        · rw [settle_gone he hx]; exact ih loc' s
        · left; rw [settle_opens he hx]; rfl

/-! ## One step of the controller -/

/-- One primitive has its effect, and then either leaves `PHASE` as it is or goes on to the items after it, which
assign nothing that the micro-program did not. -/
theorem microStep_effect {w : CmdWord} {loc : Locals} {ops : List Op} {s t : State}
    (h : microStep w loc ops s = .next t) :
    (PrimitiveEffect s t ∧ t.phase = s.phase)
    ∨ ∃ x loc' ops', PrimitiveEffect s x ∧ (∀ a, .assign a ∈ ops' → .assign a ∈ ops)
        ∧ t = settle w ops' loc' x := by
  rcases microStep_next h with rfl | ⟨rest, rfl, _, rfl⟩ | ⟨rfl, rfl⟩ | ⟨op, rest, rfl, _, rfl⟩
    | ⟨l, v, rest, rfl, rfl⟩ | ⟨l, rest, rfl, _, rfl⟩ | ⟨rest, rfl, _, rfl⟩ | ⟨o, d, rest, rfl, rfl⟩
    | ⟨rest, rfl, _, rfl⟩ | ⟨rest, rfl, rfl⟩ | ⟨p, rest, rfl, hp, rfl⟩ | ⟨d, b, bs, rest, rfl, _, rfl⟩
    | ⟨b, bs, rest, rfl, _, rfl⟩ | ⟨rest, rfl, _, rfl⟩
  · exact .inl ⟨.refl t, rfl⟩
  · exact .inl ⟨.afterSample s, by simp⟩
  · exact .inr ⟨s, loc, [], .refl s, by simp, rfl⟩
  · exact .inr ⟨s, loc, _, .refl s, fun _ => id, rfl⟩
  · exact .inr ⟨_, _, rest, .setLine l v s, by simp, rfl⟩
  · exact .inr ⟨_, _, rest, .setLine l true s, by simp, rfl⟩
  · exact .inr ⟨_, _, rest, .afterSample s, by simp, rfl⟩
  · exact .inr ⟨_, _, rest, .afterXfer o s, by simp, rfl⟩
  · exact .inr ⟨_, _, rest, .tpCapture s, by simp, rfl⟩
  · exact .inr ⟨_, _, rest, .tpWrite s.holds_drvTp, by simp, rfl⟩
  · exact .inr ⟨_, _, rest, .tpRestore hp, by simp, rfl⟩
  · exact .inr ⟨_, _, rest, .dinPop b bs s, by simp, rfl⟩
  · exact .inr ⟨_, _, _, .dinPop b bs s, by simp, rfl⟩
  · exact .inr ⟨_, _, rest, .doutPush loc.word s, by simp, rfl⟩

/-- BEGIN alone assigns `DRV_TP`, to one of the configuration's two profiles (10_state.md R38). -/
theorem isParameter_of_assign_mem_programOf {c : Config} {i : Instr} {p : Profile}
    (h : .assign (.drvTp p) ∈ programOf c i) : IsParameter c p := by
  cases i with
  | begin => simpa [programOf, beginProgram, IsParameter] using h
  | readReg addr => simp [programOf, readRegProgram] at h
  | writeReg addr value => simp [programOf, writeRegProgram] at h
  | sendBuffer len => simp [programOf, sendBufferProgram] at h
  | sendZeroes len => simp [programOf, sendZeroesProgram] at h
  | startSong => simp [programOf, startSongProgram] at h
  | playChunk len => simp [programOf, playChunkProgram] at h
  | stopSong => simp [programOf, stopSongProgram] at h
  | loadImage len => simp [programOf, loadImageProgram, imageLoadDin] at h
  | setVolume level => simp [programOf, setVolumeProgram] at h
  | beginMidi => simp [programOf, beginMidiProgram, imageLoadRom] at h
  | sendMidi mcmd d1 d2 => simp [programOf, sendMidiProgram] at h
  | printDetails => simp [programOf, printDetailsProgram] at h

/-- All that the controller's step does to the profiles and the trace: at most one primitive has its effect, and
`PHASE` stays or the items after it run; what they assign to `DRV_TP` is the configuration's or was in the
micro-program. -/
theorem controllerStep_effect {s t : State} (h : controllerStep s = .next t) :
    (PrimitiveEffect s t ∧ t.phase = s.phase)
    ∨ ∃ w x loc ops, PrimitiveEffect s x
        ∧ (∀ p, .assign (.drvTp p) ∈ ops → IsParameter s.cfg p ∨ s.willAssign p) ∧ t = settle w ops loc x := by
  rcases controllerStep_cases s with ⟨_, e⟩ | ⟨_, e⟩ | ⟨w, _, c, _, _, e⟩ | ⟨_, _, i, _, _, e⟩ <;> rw [e] at h
  · cases h; exact .inl ⟨.refl s, rfl⟩
  · cases h; exact .inl ⟨.refl s, rfl⟩
  · cases h; exact .inr ⟨w, s, .blank, [.finish c], .refl s, by simp, rfl⟩
  rcases exec_cases i s with ⟨_, e⟩ | ⟨_, e⟩ | ⟨w, _, ⟨_, e⟩ | ⟨c, _, e⟩⟩ | ⟨w, loc, ops, hp, e⟩ <;> rw [e] at h
  · cases h; exact .inl ⟨.refl s, rfl⟩
  · cases h; exact .inl ⟨.refl s, rfl⟩
  · cases h; exact .inr ⟨w, s, _, _, .refl s, fun p hm => .inl (isParameter_of_assign_mem_programOf hm), rfl⟩
  · cases h; exact .inr ⟨w, s, _, _, .refl s, by simp [rejectProgram], rfl⟩
  · rcases microStep_effect h with h | ⟨x, loc', ops', hx, hops, rfl⟩
    · exact .inl h
    · exact .inr ⟨w, x, loc', ops', hx, fun p hm => .inr ⟨w, loc, ops, hp, hops _ hm⟩, rfl⟩

theorem controllerStep_cfg {s t : State} (h : controllerStep s = .next t) : t.cfg = s.cfg := by
  rcases controllerStep_effect h with ⟨he, -⟩ | ⟨w, x, loc, ops, he, -, rfl⟩
  · exact he.cfg
  · rw [settle_cfg, he.cfg]

/-- The controller only copies profiles. -/
theorem controllerStep_mentions {s t : State} (h : controllerStep s = .next t) {p : Profile}
    (hp : t.mentions p) : s.mentions p := by
  rcases hp with hp | hp
  · exact .inl (controllerStep_cfg h ▸ hp)
  rcases controllerStep_effect h with ⟨he, hphase⟩ | ⟨w, x, loc, ops, he, hops, rfl⟩
  · exact .inr (hp.imp (he.holds p) (by simp [State.willAssign, hphase]))
  · rcases holds_or_assign_of_settle hp with hp | hp
    · exact .inr (.inl (he.holds p hp))
    · exact (hops p hp).imp id .inr

/-! ## The moves of the other agents -/

/-- A move of another agent brings in no profile but the one a co-user writes. -/
theorem Move.apply_mentions {m : Move} {s : State} {p : Profile} (h : (m.apply s).mentions p) :
    s.mentions p ∨ m = .coUser p := by
  cases m with
  | controller => exact .inl h
  | push b => exact .inl h
  | take => exact .inl h
  | offer w =>
    left
    rcases h with h | h | ⟨_, _, _, h, _⟩
    · exact .inl h
    · exact .inr (.inl (by simpa [Move.apply, State.holds] using h))
    · cases h
  | coUser q =>
    rcases h with h | (rfl | h) | h
    · exact .inl (.inl h)
    · exact .inr rfl
    · exact .inl (.inr (.inl (.inr h)))
    · exact .inl (.inr (.inr h))
  | reset =>
    left
    rcases h with h | (h | h | h | h) | ⟨_, _, _, h, _⟩
    · exact .inl h
    · exact .inr (.inl (.inl h))
    · exact .inl (.inl h)
    · cases h
    · exact .inr (.inl (.inr (.inr (.inr (by simpa [Move.apply, resetEvents] using h)))))
    · cases h

theorem Move.apply_cfg (m : Move) (s : State) : (m.apply s).cfg = s.cfg := by cases m <;> rfl

/-- A move of another agent takes no event away. -/
theorem Move.apply_trace (m : Move) (s : State) : ∃ evs, (m.apply s).trace = s.trace ++ evs := by
  cases m with
  | controller => exact ⟨[], by simp [Move.apply]⟩
  | offer w => exact ⟨[.cmd w], rfl⟩
  | push b => exact ⟨[], by simp [Move.apply]⟩
  | take => exact ⟨[], by simp [Move.apply]⟩
  | coUser p => exact ⟨[], by simp [Move.apply]⟩
  | reset => exact ⟨resetEvents s.cfg, rfl⟩

/-! ## Steps of the machine -/

/-- All that a step can be, schedule apart: a step of the controller, or an enabled move of another agent. -/
theorem step_next {s t : State} (h : step s = .next t) :
    ∃ ms, controllerStep (s.withSched ms) = .next t
      ∨ ∃ m : Move, m.enabled s = true ∧ t = m.apply (s.withSched ms) := by
  rcases step_cases s with e | ⟨ms, _, e⟩ | ⟨m, ms, _, _, hm, e⟩ <;> rw [e] at h
  · exact ⟨s.sched, .inl h⟩
  · exact ⟨ms, .inl h⟩
  · cases h; exact ⟨ms, .inr ⟨m, hm, rfl⟩⟩

theorem step_cfg {s t : State} (h : step s = .next t) : t.cfg = s.cfg := by
  obtain ⟨ms, h | ⟨m, -, rfl⟩⟩ := step_next h
  · exact (controllerStep_cfg h).trans (s.withSched_cfg ms)
  · exact (m.apply_cfg _).trans (s.withSched_cfg ms)

/-- A step brings in no profile but one that a co-user writes, which is a value of `Profile` (10_state.md R53). -/
theorem step_mentions {s t : State} (h : step s = .next t) {p : Profile} (hp : t.mentions p) :
    s.mentions p ∨ s.cfg.profile.has p = true := by
  obtain ⟨ms, h | ⟨m, hm, rfl⟩⟩ := step_next h
  · exact .inl (controllerStep_mentions h hp)
  · rcases Move.apply_mentions hp with hp | rfl
    · exact .inl hp
    · exact .inr (Bool.and_eq_true_iff.mp hm).2

/-! ## The trace -/

/-- The events of a controller step: at most one that is no `End`, and then perhaps the `End` of the command, with
its code in `ERR`. -/
theorem controllerStep_records {s t : State} (h : controllerStep s = .next t) :
    ∃ evs, evs.length ≤ 1 ∧ (∀ c, .done c ∉ evs)
      ∧ (t.trace = s.trace ++ evs
        ∨ (t.trace = s.trace ++ evs ++ [.done t.err] ∧ (t.phase = .ready ∨ t.phase = .halted))) := by
  rcases controllerStep_effect h with
    ⟨⟨-, -, evs, htr, hlen, hend⟩, -⟩ | ⟨w, x, loc, ops, ⟨-, -, evs, htr, hlen, hend⟩, -, rfl⟩
  · exact ⟨evs, hlen, hend, .inl htr⟩
  · exact ⟨evs, hlen, hend, htr ▸ settle_records w ops loc x⟩

/-- A step of any agent takes no event away. -/
theorem step_trace {s t : State} (h : step s = .next t) : ∃ evs, t.trace = s.trace ++ evs := by
  obtain ⟨ms, h | ⟨m, -, rfl⟩⟩ := step_next h
  · obtain ⟨evs, -, -, htr | ⟨htr, -⟩⟩ := controllerStep_records h
    · exact ⟨evs, htr⟩
    · exact ⟨evs ++ [.done t.err], by rw [htr, List.append_assoc]; rfl⟩
  · exact Move.apply_trace m _

/-! ## The statements -/

/-- Settles O52: a controller step is one primitive and the items after it, of which only the end of the command
records an event. -/
theorem traceOnlyGrows : Obligations.TraceOnlyGrows := by
  refine ⟨fun s t h => ?_, fun s t => step_trace⟩
  obtain ⟨evs, hlen, hend, htr | ⟨htr, hphase⟩⟩ := controllerStep_records h
  · exact ⟨evs, htr, (List.length_filter_le _ _).trans hlen, fun c hc => absurd hc (hend c)⟩
  · refine ⟨evs ++ [.done t.err], by rw [htr, List.append_assoc], ?_, fun c hc => ?_⟩
    · simpa using (List.length_filter_le _ _).trans hlen
    · have hc' : c = t.err := by simpa [hend c] using hc
      exact ⟨hc'.symm, hphase⟩

/-- Settles O57: every profile of the next state was in the state before it or is a co-user's. -/
theorem stepKeepsProfilesFit : Obligations.StepKeepsProfilesFit := by
  intro s t hs h
  rw [profilesFit_iff] at hs ⊢
  intro p hp
  rw [step_cfg h]
  exact (step_mentions h hp).elim (hs p) id

/-- At reset the profiles are the two of the configuration and the shared one (10_state.md R58). -/
theorem profilesFit_resetWith {c : Config} {p : Profile} (hinit : c.profile.has c.tpInit = true)
    (hrun : c.profile.has c.tpRun = true) (hp : c.profile.has p = true) :
    ProfilesFit (State.resetWith c p) := by
  refine ⟨hinit, hrun, hp, hinit, nofun, fun q hq => ?_, nofun⟩
  simp [State.resetWith, resetEvents] at hq

/-- Settles O58: R10 asks it of the configuration's two profiles, and `value` gives values of the free `Profile`. -/
theorem resetProfilesFit : Obligations.ResetProfilesFit := by
  refine ⟨fun c p hwf hp => ?_, ?_⟩
  · simp only [Config.wf, Bool.and_eq_true] at hwf
    obtain ⟨⟨-, hinit⟩, hrun⟩ := hwf
    exact profilesFit_resetWith hinit hrun hp
  · exact profilesFit_resetWith (profile_has_value _ _) (profile_has_value _ _) (profile_has_value _ _)

end Sys2Proof.Machine
end

section
/-!
The bus discipline (40_line_control.md R155) along micro-programs: what the check of a run of items comes to, that an
item turns into items which keep the discipline too, and that every command's micro-program keeps it. From that, one
lemma per agent, and the invariant of every step.
-/

namespace Sys2Proof.Machine

open Sys2Proof

/-! ## The check of a run of items -/

/-- The bus after a run of items, or `none` where one of them breaks a rule. -/
def checkAll (b : Bus) (ops : List Op) : Option Bus := ops.foldlM Op.check b

@[simp] theorem checkAll_nil (b : Bus) : checkAll b [] = some b := rfl

theorem checkAll_cons (b : Bus) (op : Op) (ops : List Op) :
    checkAll b (op :: ops) = (op.check b).bind fun b' => checkAll b' ops := List.foldlM_cons

theorem checkAll_append (b : Bus) (ops ops' : List Op) :
    checkAll b (ops ++ ops') = (checkAll b ops).bind fun b' => checkAll b' ops' := List.foldlM_append

theorem bracketed_cons_iff (b : Bus) (op : Op) (rest : List Op) :
    bracketed b (op :: rest) = true ↔ ∃ b', op.check b = some b' ∧ bracketed b' rest = true := by
  rw [bracketed]
  cases op.check b <;> simp

theorem bracketed_append_iff (b : Bus) (ops rest : List Op) :
    bracketed b (ops ++ rest) = true ↔ ∃ b', checkAll b ops = some b' ∧ bracketed b' rest = true := by
  induction ops generalizing b with
  | nil => simp
  | cons op ops ih =>
    rw [List.cons_append, bracketed_cons_iff, checkAll_cons]
    cases op.check b with
    | none => simp
    | some b' => simpa using ih b'

/-- Outside every transaction the bus is known but for the last sample. -/
theorem Bus.free_iff (b : Bus) : b.free = true ↔ b = ⟨true, true, false, b.ready⟩ := by
  rcases b with ⟨x, d, h, r⟩
  cases x <;> cases d <;> cases h <;> simp [Bus.free, Bus.idle]

/-- In a data transaction the bus is known but for the last sample. -/
theorem Bus.inData_iff (b : Bus) : b.inData = true ↔ b = ⟨true, false, true, b.ready⟩ := by
  rcases b with ⟨x, d, h, r⟩
  cases x <;> cases d <;> cases h <;> simp [Bus.inData]

/-- With both selects low, which R42 forbids, no micro-program keeps the discipline. -/
theorem bracketed_bothLow (held r : Bool) (ops : List Op) : bracketed ⟨false, false, held, r⟩ ops = false := by
  induction ops generalizing r with
  | nil => rfl
  | cons op rest ih =>
    cases op
    case awaitReady => exact ih true
    case setLine l v => cases l <;> rfl
    all_goals rfl

/-! ## The composite actions -/

/-- Sending a byte of a group takes the byte and exchanges it (R190). -/
theorem checkAll_sendNext (src : DataSrc) :
    checkAll ⟨true, false, true, true⟩ src.sendNext = some ⟨true, false, true, true⟩ := by
  cases src <;> rfl

/-- The loader's firmware from a ROM stays outside transactions between its writes (44_firmware_loader.md R232). -/
theorem checkAll_imageLoadRom (r : Bool) (c : Config) (ws : List Word) :
    checkAll ⟨true, true, false, r⟩ (imageLoadRom c ws) = some ⟨true, true, false, false⟩ := by
  unfold imageLoadRom
  split <;> rfl

/-! ## The silent items -/

/-- A silent item that is no loop of a data transaction stands outside transactions. -/
def Op.standsOutside (op : Op) : Bool :=
  !op.isPrimitive && (match op with | .sendGroups _ _ => false | .sendBytes _ _ => false | _ => true)

theorem Op.check_outside {op : Op} (h : op.standsOutside = true) {b b' : Bus} (hc : op.check b = some b') :
    b.free = true ∧ b' = { b with ready := false } := by
  have hcheck : op.check b = if b.free then some { b with ready := false } else none := by
    cases op <;> simp_all [Op.standsOutside, Op.isPrimitive, Op.check]
  obtain ⟨hb, ⟨⟩⟩ := Option.ite_none_right_eq_some.mp (hcheck ▸ hc)
  exact ⟨hb, rfl⟩

theorem Op.standsOutside_of_expanded {op : Op} (h : op.isExpanded = true) :
    op.standsOutside = true ∨ (∃ src n, op = .sendGroups src n) ∨ ∃ src g, op = .sendBytes src g := by
  cases op <;> simp_all [Op.isExpanded, Op.isPrimitive, Op.standsOutside]

theorem Op.check_sendGroups {b b' : Bus} {src : DataSrc} {n : Nat}
    (hc : Op.check b (.sendGroups src n) = some b') : b.inData = true ∧ b' = { b with ready := false } := by
  obtain ⟨hb, ⟨⟩⟩ := Option.ite_none_right_eq_some.mp hc
  exact ⟨hb, rfl⟩

theorem Op.check_sendBytes {b b' : Bus} {src : DataSrc} {g : Nat}
    (hc : Op.check b (.sendBytes src g) = some b') : b = ⟨true, false, true, true⟩ ∧ b' = b := by
  obtain ⟨hb, ⟨⟩⟩ := Option.ite_none_right_eq_some.mp hc
  rw [Bool.and_eq_true, Bus.inData_iff] at hb
  obtain ⟨hd, hr⟩ := hb
  exact ⟨by rw [hd, hr], rfl⟩

/-- A silent item leaves the lines and the profile alone, and at most forgets the last sample. -/
theorem Op.check_expanded {op : Op} (h : op.isExpanded = true) {b b' : Bus} (hc : op.check b = some b') :
    b' = b ∨ b' = { b with ready := false } := by
  rcases Op.standsOutside_of_expanded h with ho | ⟨src, n, rfl⟩ | ⟨src, g, rfl⟩
  · exact .inr (Op.check_outside ho hc).2
  · exact .inr (Op.check_sendGroups hc).2
  · exact .inl (Op.check_sendBytes hc).2

/-- What a silent item outside transactions turns into stays outside, at the ends of its transactions. -/
theorem Op.checkAll_expand_outside {op : Op} (h : op.standsOutside = true) {c : Config} {loc loc' : Locals}
    {ops : List Op} (he : op.expand c loc = some (loc', ops)) (r : Bool) :
    ops = [] ∨ checkAll ⟨true, true, false, r⟩ ops = some ⟨true, true, false, false⟩ := by
  cases op
  case regWrites l =>
    rcases l with _ | ⟨⟨a, v⟩, l⟩ <;> cases he
    · exact .inl rfl
    · exact .inr rfl
  case readRegs | imageCopy | imageRepeat | discard =>
    simp only [Op.expand] at he
    split at he <;> cases he
    · exact .inl rfl
    · exact .inr rfl
  case imageHeader =>
    simp only [Op.expand] at he
    split at he <;> cases he
    exact .inl rfl
  case imageSelect =>
    simp only [Op.expand] at he
    split at he <;> cases he
    · exact .inr rfl
    · exact .inl rfl
  case imageLoop =>
    simp only [Op.expand] at he
    split at he
    · cases he; exact .inl rfl
    · split at he <;> cases he
      exact .inr rfl
  case imagePayload =>
    simp only [Op.expand] at he
    split at he
    · cases he; exact .inr rfl
    · split at he <;> cases he
      · exact .inl rfl
      · exact .inr rfl
  case imageStore => cases he; exact .inr rfl
  case imageAddr => cases he; exact .inl rfl
  case assign | finish => cases he; exact .inl rfl
  case raiseImage => cases he
  all_goals cases h

/-- What a silent item turns into keeps the discipline where the item did. -/
theorem Op.checkAll_expand {op : Op} (h : op.isExpanded = true) {c : Config} {loc loc' : Locals} {op' : Op}
    {ops : List Op} (he : op.expand c loc = some (loc', op' :: ops)) {b b' : Bus} (hc : op.check b = some b') :
    checkAll b (op' :: ops) = some b' := by
  rcases Op.standsOutside_of_expanded h with ho | ⟨src, n, rfl⟩ | ⟨src, g, rfl⟩
  · obtain ⟨hb, rfl⟩ := Op.check_outside ho hc
    rw [Bus.free_iff] at hb
    rw [hb]
    exact (Op.checkAll_expand_outside ho he b.ready).resolve_left (List.cons_ne_nil _ _)
  · obtain ⟨hb, rfl⟩ := Op.check_sendGroups hc
    rw [Bus.inData_iff] at hb
    rw [hb]
    simp only [Op.expand] at he
    split at he <;> cases he
    rfl
  · obtain ⟨rfl, rfl⟩ := Op.check_sendBytes hc
    simp only [Op.expand] at he
    split at he
    · cases he
    · rw [Option.some.injEq, Prod.mk.injEq] at he
      rw [← he.2, checkAll_append, checkAll_sendNext]
      rfl

/-- The fault of a malformed image is raised outside transactions (44_firmware_loader.md R235). -/
theorem Op.free_of_expand_none {op : Op} (h : op.isExpanded = true) {c : Config} {loc : Locals}
    (he : op.expand c loc = none) {b b' : Bus} (hc : op.check b = some b') : b.free = true := by
  rcases Op.standsOutside_of_expanded h with ho | ⟨src, n, rfl⟩ | ⟨src, g, rfl⟩
  · exact (Op.check_outside ho hc).1
  · simp only [Op.expand] at he
    split at he <;> cases he
  · simp only [Op.expand] at he
    split at he <;> cases he

/-! ## The micro-programs of the commands -/

/-- Every command's micro-program keeps the discipline from a free bus on (40_line_control.md R155). -/
theorem bracketed_programOf (r : Bool) (c : Config) (i : Instr) :
    bracketed ⟨true, true, false, r⟩ (programOf c i) = true := by
  cases i with
  | beginMidi =>
    rw [programOf, beginMidiProgram, bracketed_append_iff]
    exact ⟨_, checkAll_imageLoadRom r c c.midiImage, rfl⟩
  | begin => rfl
  | readReg addr => rfl
  | writeReg addr value => rfl
  | sendBuffer len => rfl
  | sendZeroes len => rfl
  | startSong => rfl
  | playChunk len => rfl
  | stopSong => rfl
  | loadImage len => rfl
  | setVolume level => rfl
  | sendMidi mcmd d1 d2 => rfl
  | printDetails => rfl

theorem bracketed_rejectProgram (r : Bool) (c : ResultCode) (n : Nat) :
    bracketed ⟨true, true, false, r⟩ (rejectProgram c n) = true := rfl

/-! ## The last sample in the trace -/

theorem lastReady_append (tr tr' : List Event) :
    lastReady (tr ++ tr') = (lastReady tr').or (lastReady tr) := by
  induction tr with
  | nil => simp [lastReady]
  | cons e tr ih => cases e <;> simp [lastReady, ih]

/-- No other event changes what the last sample was. -/
theorem lastReady_append_other {e : Event} (he : ∀ r, e ≠ .ready r) (tr : List Event) :
    lastReady (tr ++ [e]) = lastReady tr := by
  rw [lastReady_append]
  cases e with
  | ready r => exact absurd rfl (he r)
  | line _ _ | xfer _ _ | tpGet _ | tpSet _ | din _ | dout _ | cmd _ | done _ => rfl

/-! ## The bus of a state -/

/-- The bus as the lines and the profile of `s` are, a ready sample being known to be the last one if `r`. -/
def State.bus (s : State) (r : Bool) : Bus := ⟨s.xcs, s.xdcs, s.tpHeld, r⟩

/-- `ops` keep the discipline from `s` on. -/
def State.keepsBus (s : State) (ops : List Op) : Prop :=
  ∃ r : Bool, (r = true → lastReady s.trace = some true) ∧ bracketed (s.bus r) ops = true

theorem State.busFree_iff (s : State) : s.busFree ↔ s.xcs = true ∧ s.xdcs = true ∧ s.tpSave = none := by
  rw [State.busFree, s.busMode_idle_iff, s.tpHeld_eq_false_iff, and_assoc]

theorem State.free_bus_iff (s : State) (r : Bool) : (s.bus r).free = true ↔ s.busFree := by
  rw [Bus.free_iff, State.busFree, s.busMode_idle_iff]
  simp [State.bus, and_assoc]

theorem State.bus_of_busFree {s : State} (h : s.busFree) (r : Bool) : s.bus r = ⟨true, true, false, r⟩ :=
  (Bus.free_iff _).mp ((s.free_bus_iff r).mpr h)

theorem disciplined_of_phase_ready {s : State} (h : s.phase = .ready) :
    Disciplined s ↔ s.busFree ∧ s.fault = false := by simp [Disciplined, h]

theorem disciplined_of_phase_start {s : State} {w : CmdWord} (h : s.phase = .exec w .start) :
    Disciplined s ↔ s.busFree ∧ s.fault = false := by simp [Disciplined, h]

theorem disciplined_of_phase_halted {s : State} (h : s.phase = .halted) :
    Disciplined s ↔ s.busFree ∧ s.fault = true ∧ s.err = .errImage := by simp [Disciplined, h]

theorem disciplined_of_phase_run {s : State} {w : CmdWord} {loc : Locals} {ops : List Op}
    (h : s.phase = .exec w (.run loc ops)) :
    Disciplined s ↔ s.fault = false ∧ (∃ i, decode w = .ok i) ∧ restsOnPrimitive ops = true ∧ s.keepsBus ops := by
  simp [Disciplined, h, State.keepsBus, State.bus]

theorem disciplined_finish {s : State} (c : ResultCode) (hb : s.busFree) (hf : s.fault = false) :
    Disciplined (s.finish c) := ⟨hb, hf⟩

theorem disciplined_raiseFault {s : State} (hb : s.busFree) : Disciplined (s.raiseFault .errImage) :=
  ⟨hb, rfl, rfl⟩

/-! ## A step of the controller -/

/-- Where the items to come keep the discipline, the silent ones at their head end in a disciplined state. -/
theorem disciplined_settle {w : CmdWord} (hw : ∃ i, decode w = .ok i) {ops : List Op} (loc : Locals) {s : State}
    (hf : s.fault = false) (hops : s.keepsBus ops) : Disciplined (settle w ops loc s) := by
  induction ops generalizing loc s with
  | nil =>
    obtain ⟨r, -, hb⟩ := hops
    exact disciplined_finish .ok ((s.free_bus_iff r).mp hb) hf
  | cons op rest ih =>
    by_cases hp : op.isPrimitive = true
    · rw [settle_primitive hp]
      exact ⟨hf, hw, hp, hops⟩
    obtain ⟨r, hr, hb⟩ := hops
    obtain ⟨b', hc, hrest⟩ := (bracketed_cons_iff ..).mp hb
    rcases Op.silent_cases op (by simpa using hp) with ⟨c, rfl⟩ | ⟨a, rfl⟩ | he
    · rw [settle_finish]
      exact disciplined_finish c ((s.free_bus_iff r).mp (Op.check_outside rfl hc).1) hf
    · rw [settle_assign]
      obtain ⟨-, rfl⟩ := Op.check_outside (op := .assign a) rfl hc
      exact ih loc (by simpa using hf) ⟨false, nofun, by simpa [State.bus, State.tpHeld] using hrest⟩
    · rcases hx : op.expand s.cfg loc with _ | ⟨loc', _ | ⟨op', ops'⟩⟩
      · rw [settle_faults he hx]
        exact disciplined_raiseFault ((s.free_bus_iff r).mp (Op.free_of_expand_none he hx hc))
      · rw [settle_gone he hx]
        refine ih loc' hf ?_
        rcases Op.check_expanded he hc with rfl | rfl
        · exact ⟨r, hr, hrest⟩
        · exact ⟨false, nofun, hrest⟩
      · rw [settle_opens he hx]
        exact ⟨hf, hw, Op.expand_opens he hx, r, hr,
          (bracketed_append_iff ..).mpr ⟨b', Op.checkAll_expand he hx hc, hrest⟩⟩

/-- A primitive that records no sample leaves the bus for the items after it, with the last sample known as before
or forgotten. -/
theorem State.keepsBus_after {s x : State} {r r' : Bool} {e : Event} {rest : List Op}
    (hr : r = true → lastReady s.trace = some true) (htr : x.trace = s.trace ++ [e]) (he : ∀ q, e ≠ .ready q)
    (hr' : r' = true → r = true) (hrest : bracketed (x.bus r') rest = true) : x.keepsBus rest :=
  ⟨r', fun h => by rw [htr, lastReady_append_other he]; exact hr (hr' h), hrest⟩

theorem Op.check_setLine {s : State} {r : Bool} {l : Line} {v : Level} {b' : Bus}
    (hc : Op.check (s.bus r) (.setLine l v) = some b') : b' = (s.setLine l v).bus r := by
  cases l <;> (obtain ⟨-, ⟨⟩⟩ := Option.ite_none_right_eq_some.mp hc; rfl)

/-- Entering a mode from `Idle` drives a line that is high already (40_line_control.md R148, R150). -/
theorem Op.check_enter {s : State} {r : Bool} {l : Line} {b' : Bus} (hidle : s.busMode = .idle)
    (hc : Op.check (s.bus r) (.enter l) = some b') : b' = (s.setLine l true).bus r := by
  obtain ⟨-, ⟨⟩⟩ := Option.ite_none_right_eq_some.mp hc
  obtain ⟨hx, hd⟩ := s.busMode_idle_iff.mp hidle
  cases l <;> simp [State.bus, State.tpHeld, hx, hd]

/-- A byte that leaves DIN goes out by the exchange after it (42_streaming.md R190). -/
theorem Op.check_dinSend {b b' : Bus} (hc : Op.check b .dinSend = some b') (o : Byte) (d : ByteDst) :
    Op.check b (.xfer o d) = some b' := by
  obtain ⟨hb, ⟨⟩⟩ := Option.ite_none_right_eq_some.mp hc
  rw [Bool.and_eq_true] at hb
  simp [Op.check, hb]

theorem State.afterXfer_bus (o : Byte) (s : State) (r : Bool) : (s.afterXfer o).bus r = s.bus r := by
  simp [State.bus, State.tpHeld]

/-- One primitive of a disciplined command, and the silent items after it. -/
theorem disciplined_microStep {w : CmdWord} {loc : Locals} {ops : List Op} {s t : State} (hs : Disciplined s)
    (hp : s.phase = .exec w (.run loc ops)) (h : microStep w loc ops s = .next t) : Disciplined t := by
  obtain ⟨hf, hw, hprim, r, hr, hb⟩ := (disciplined_of_phase_run hp).mp hs
  rcases microStep_next h with rfl | ⟨rest, rfl, hbusy, rfl⟩ | ⟨rfl, rfl⟩ | ⟨op, rest, rfl, hsilent, rfl⟩
    | ⟨l, v, rest, rfl, rfl⟩ | ⟨l, rest, rfl, hidle, rfl⟩ | ⟨rest, rfl, hready, rfl⟩ | ⟨o, d, rest, rfl, rfl⟩
    | ⟨rest, rfl, -, rfl⟩ | ⟨rest, rfl, rfl⟩ | ⟨p, rest, rfl, -, rfl⟩ | ⟨d, b, bs, rest, rfl, -, rfl⟩
    | ⟨b, bs, rest, rfl, -, rfl⟩ | ⟨rest, rfl, -, rfl⟩
  · exact hs
  · refine (disciplined_of_phase_run (by simpa using hp)).mpr ⟨by simpa using hf, hw, rfl, false, nofun, ?_⟩
    simpa [State.bus, State.tpHeld, bracketed_cons_iff, Op.check] using hb
  · cases hprim
  · exact absurd hprim (by simp [restsOnPrimitive, hsilent])
  all_goals
    obtain ⟨b', hc, hrest⟩ := (bracketed_cons_iff ..).mp hb
    refine disciplined_settle hw _ (by simpa using hf) ?_
  · rw [Op.check_setLine hc] at hrest
    exact State.keepsBus_after hr (State.setLine_trace ..) nofun id hrest
  · rw [Op.check_enter hidle hc] at hrest
    exact State.keepsBus_after hr (State.setLine_trace ..) nofun id hrest
  · cases hc
    refine ⟨true, fun _ => by rw [State.afterSample_trace, lastReady_append, hready]; rfl, ?_⟩
    simpa [State.bus, State.tpHeld] using hrest
  · obtain ⟨-, ⟨⟩⟩ := Option.ite_none_right_eq_some.mp hc
    rw [← State.afterXfer_bus] at hrest
    exact State.keepsBus_after hr (State.afterXfer_trace ..) nofun id hrest
  · obtain ⟨-, ⟨⟩⟩ := Option.ite_none_right_eq_some.mp hc
    exact State.keepsBus_after (r' := false) hr (State.tpCapture_trace s) nofun nofun hrest
  · obtain ⟨-, ⟨⟩⟩ := Option.ite_none_right_eq_some.mp hc
    exact State.keepsBus_after hr (State.tpWrite_trace ..) nofun id hrest
  · obtain ⟨-, ⟨⟩⟩ := Option.ite_none_right_eq_some.mp hc
    exact State.keepsBus_after (r' := false) hr (State.tpRestore_trace ..) nofun nofun hrest
  · obtain ⟨-, ⟨⟩⟩ := Option.ite_none_right_eq_some.mp hc
    exact State.keepsBus_after (r' := false) hr (State.dinPop_trace ..) nofun nofun hrest
  · have hsend := (bracketed_cons_iff ..).mpr ⟨b', Op.check_dinSend hc b .drop, hrest⟩
    exact State.keepsBus_after hr (State.dinPop_trace ..) nofun id hsend
  · obtain ⟨-, ⟨⟩⟩ := Option.ite_none_right_eq_some.mp hc
    exact State.keepsBus_after (r' := false) hr (State.doutPush_trace ..) nofun nofun hrest

/-- The acceptance check of a disciplined command, and each of its primitives. -/
theorem disciplined_exec {i : Instr} {w : CmdWord} {k : Pos} {s t : State} (hs : Disciplined s)
    (hp : s.phase = .exec w k) (hd : decode w = .ok i) (h : exec i s = .next t) : Disciplined t := by
  cases k with
  | start =>
    obtain ⟨hfree, hf⟩ := (disciplined_of_phase_start hp).mp hs
    have starts : ∀ ops, bracketed ⟨true, true, false, false⟩ ops = true → Disciplined (settle w ops .blank s) :=
      fun ops hops => disciplined_settle ⟨i, hd⟩ _ hf ⟨false, nofun, by rwa [State.bus_of_busFree hfree]⟩
    rcases hg : guardOf i s with _ | c
    · rw [exec_accepts hp hg] at h
      cases h
      exact starts _ (bracketed_programOf false s.cfg i)
    · rw [exec_rejects hp hg] at h
      cases h
      exact starts _ (bracketed_rejectProgram false c (payloadOf i))
  | run loc ops =>
    rw [exec_run i hp] at h
    exact disciplined_microStep hs hp h

theorem disciplined_controllerStep {s t : State} (hs : Disciplined s) (h : controllerStep s = .next t) :
    Disciplined t := by
  rcases controllerStep_cases s with ⟨-, e⟩ | ⟨-, e⟩ | ⟨w, k, c, hp, hd, e⟩ | ⟨w, k, i, hp, hd, e⟩ <;> rw [e] at h
  · cases h; exact hs
  · cases h; exact hs
  · cases h
    cases k with
    | start =>
      obtain ⟨hfree, hf⟩ := (disciplined_of_phase_start hp).mp hs
      exact disciplined_finish c hfree hf
    | run loc ops =>
      obtain ⟨-, ⟨i, hi⟩, -⟩ := (disciplined_of_phase_run hp).mp hs
      cases hd.symm.trans hi
  · exact disciplined_exec hs hp hd h

/-! ## The moves of the other agents -/

theorem disciplined_controllerReset (s : State) : Disciplined s.controllerReset := ⟨⟨rfl, rfl⟩, rfl⟩

/-- A host or a co-user changes nothing that the discipline is about; an offer is latched at a command boundary
only, and reset leaves the bus free. -/
theorem disciplined_apply {m : Move} {s : State} (hs : Disciplined s) (hm : m.enabled s = true) :
    Disciplined (m.apply s) := by
  cases m with
  | controller | push _ | take | coUser _ => exact hs
  | offer w => exact (disciplined_of_phase_ready (s.cmdReady_iff.mp hm)).mp hs
  | reset => exact disciplined_controllerReset s

/-- Settles O42: the controller's step goes by the check of its micro-program, and no other agent's move breaks it. -/
theorem stepKeepsDiscipline : Obligations.StepKeepsDiscipline := by
  intro s t hs h
  obtain ⟨ms, h | ⟨m, hm, rfl⟩⟩ := step_next h
  · exact disciplined_controllerStep (s := s.withSched ms) hs h
  · exact disciplined_apply (s := s.withSched ms) hs hm

/-! ## The consequences -/

theorem disciplined_resetWith (c : Config) (p : Profile) : Disciplined (State.resetWith c p) := ⟨⟨rfl, rfl⟩, rfl⟩

/-- Settles O43: at reset the bus is free and nothing is at fault. -/
theorem resetIsDisciplined : Obligations.ResetIsDisciplined := disciplined_resetWith

/-- What every step keeps, a run keeps. -/
theorem stepN_induction {P : State → Prop} (hstep : ∀ s t, P s → step s = .next t → P t) {n : Nat} {s t : State}
    (hs : P s) (h : stepN n s = .next t) : P t := by
  induction n generalizing s with
  | zero => cases h; exact hs
  | succ n ih =>
    rw [stepN] at h
    split at h
    · rename_i u hu; exact ih (hstep s u hs hu) h
    · cases h
    · cases h

/-- At a command boundary both selects are high, and inside a command the rest of its micro-program, which ends
outside transactions, has no way up from both low. -/
theorem not_bothLow_of_disciplined {s : State} (hs : Disciplined s) : ¬ (s.xcs = false ∧ s.xdcs = false) := by
  rintro ⟨hx, hd⟩
  have hfree : ¬ s.busFree := fun h => by simp [s.busFree_iff, hx] at h
  rcases hp : s.phase with _ | ⟨w, _ | ⟨loc, ops⟩⟩ | _
  · exact hfree ((disciplined_of_phase_ready hp).mp hs).1
  · exact hfree ((disciplined_of_phase_start hp).mp hs).1
  · obtain ⟨-, -, -, r, -, hb⟩ := (disciplined_of_phase_run hp).mp hs
    rw [State.bus, hx, hd, bracketed_bothLow] at hb
    cases hb
  · exact hfree ((disciplined_of_phase_halted hp).mp hs).1

/-- Settles O44: the state after reset is disciplined, whatever is scheduled and queued, and every step keeps it so. -/
theorem selectsNeverBothLow : Obligations.SelectsNeverBothLow := by
  refine ⟨fun s => not_bothLow_of_disciplined, fun c p ms d m n t h => ?_⟩
  have hstart : Disciplined { State.resetWith c p with sched := ms, dreqIn := d, misoIn := m } :=
    disciplined_resetWith c p
  exact not_bothLow_of_disciplined (stepN_induction stepKeepsDiscipline hstart h)

end Sys2Proof.Machine
end

section
/-!
The agents of 10_state.md R52 and the schedule: which agent a step is, what each move of another agent does, and the
life of a latched command. A move on the schedule is made, or it waits and the controller steps.
-/

namespace Sys2Proof.Machine

open Sys2Proof

/-! ## Which agent a step is -/

theorem step_turn {s : State} {rest : List Move} (h : s.sched = .controller :: rest) :
    step s = controllerStep (s.withSched rest) := by
  rw [step, h]; rfl

/-- A move that is enabled is the whole step. -/
theorem step_moves {s : State} {m : Move} {rest : List Move} (h : s.sched = m :: rest) (hc : m ≠ .controller)
    (hm : m.enabled s = true) : step s = .next (m.apply (s.withSched rest)) := by
  cases m with
  | controller => exact absurd rfl hc
  | offer _ | push _ | take | coUser _ | reset => simp only [step, h, hm]; rfl

/-- A move that is not enabled waits. -/
theorem step_waits {s : State} {m : Move} {rest : List Move} (h : s.sched = m :: rest)
    (hm : m.enabled s = false) : step s = controllerStep s := by
  cases m with
  | controller => cases hm
  | offer _ | push _ | take | coUser _ | reset => simp [step, h, hm]

/-- Settles O6: in `EXEC(w, k)` the controller's step is the decoded command's (R31, R32). -/
theorem stepRunsDecodedInstruction : Obligations.StepRunsDecodedInstruction := by
  intro s w k i hp hd
  refine ⟨fun h => ?_, fun rest h => ?_, fun m rest h hm => ?_⟩
  · rw [step_alone h, controllerStep_exec hp hd]
  · rw [step_turn h, controllerStep_exec (s := s.withSched rest) hp hd]; rfl
  · rw [step_waits h hm, controllerStep_exec hp hd]

/-- The controller leaves the schedule alone. -/
theorem controllerStep_sched {s t : State} (h : controllerStep s = .next t) : t.sched = s.sched := by
  rcases controllerStep_cases s with ⟨-, e⟩ | ⟨-, e⟩ | ⟨w, k, c, -, -, e⟩ | ⟨w, k, i, -, -, e⟩ <;> rw [e] at h
  · cases h; rfl
  · cases h; rfl
  · cases h; simp
  · exact (exec_sched_cfg h).1

/-! ## The moves of the host, of co-users and of the platform -/

/-- Settles O8: `cmd_ready` is what enables an offer (R47). -/
theorem commandTransfer : Obligations.CommandTransfer := by
  intro s w rest h
  refine ⟨s.cmdReady_iff, fun hp => ?_, fun hp => ?_⟩
  · rw [step_moves h nofun (s.cmdReady_iff.mpr hp)]; rfl
  · have hwait : step s = controllerStep s :=
      step_waits h (Bool.eq_false_iff.mpr fun hr => hp (s.cmdReady_iff.mp hr))
    refine ⟨hwait, fun t ht => ?_⟩
    rw [controllerStep_sched (hwait ▸ ht), h]

theorem Move.push_enabled_iff (b : Byte) (s : State) :
    (Move.push b).enabled s = true ↔ s.din.length < s.cfg.dinDepth := by simp [Move.enabled]

theorem Move.take_enabled_iff (s : State) : Move.take.enabled s = true ↔ s.dout ≠ [] := by
  simp [Move.enabled]

theorem Move.coUser_enabled_iff (p : Profile) (s : State) :
    (Move.coUser p).enabled s = true ↔ s.tpHeld = false ∧ s.cfg.profile.has p = true := by
  simp [Move.enabled]

theorem step_push {s : State} {b : Byte} {rest : List Move} (h : s.sched = .push b :: rest)
    (hroom : s.din.length < s.cfg.dinDepth) :
    step s = .next { s with din := s.din ++ [b], sched := rest } :=
  step_moves h nofun ((Move.push_enabled_iff b s).mpr hroom)

theorem step_push_waits {s : State} {b : Byte} {rest : List Move} (h : s.sched = .push b :: rest)
    (hfull : s.cfg.dinDepth ≤ s.din.length) : step s = controllerStep s :=
  step_waits h (Bool.eq_false_iff.mpr fun hm => hfull.not_gt ((Move.push_enabled_iff b s).mp hm))

theorem step_take {s : State} {v : Word} {vs : List Word} {rest : List Move} (h : s.sched = .take :: rest)
    (hv : s.dout = v :: vs) : step s = .next { s with dout := vs, sched := rest } := by
  rw [step_moves h nofun ((Move.take_enabled_iff s).mpr (hv ▸ List.cons_ne_nil v vs))]
  simp [Move.apply, State.withSched, hv]

theorem step_take_waits {s : State} {rest : List Move} (h : s.sched = .take :: rest) (hv : s.dout = []) :
    step s = controllerStep s :=
  step_waits h (Bool.eq_false_iff.mpr fun hm => (Move.take_enabled_iff s).mp hm hv)

/-- Settles O9: room enables a push, a word in DOUT a take (R48, R49). -/
theorem hostChannelMoves : Obligations.HostChannelMoves :=
  ⟨fun _ _ _ h => ⟨step_push h, step_push_waits h⟩, fun _ _ h => ⟨fun _ _ => step_take h, step_take_waits h⟩⟩

/-- Settles O10: a co-user moves while no profile is held, to a value of `Profile` (R53). -/
theorem coUserMove : Obligations.CoUserMove := by
  intro s p rest h
  have waits (hno : ¬ (s.tpHeld = false ∧ s.cfg.profile.has p = true)) : step s = controllerStep s :=
    step_waits h (Bool.eq_false_iff.mpr fun hm => hno ((Move.coUser_enabled_iff p s).mp hm))
  refine ⟨fun hheld hhas => ?_, fun hheld => waits ?_, fun hhas => waits ?_⟩
  · exact step_moves h nofun ((Move.coUser_enabled_iff p s).mpr ⟨hheld, hhas⟩)
  · simp [hheld]
  · simp [hhas]

theorem step_reset {s : State} {rest : List Move} (h : s.sched = .reset :: rest) :
    step s = .next (s.withSched rest).controllerReset := step_moves h nofun rfl

/-- Settles O12: R58's table, row by row; the reset step keeps the shared profile (R342). -/
theorem resetValues : Obligations.ResetValues :=
  ⟨fun _ _ => ⟨rfl, rfl, rfl, rfl, rfl, rfl, rfl, rfl, rfl, rfl, rfl, rfl, rfl, rfl⟩,
    fun _ _ h => ⟨_, step_reset h, rfl⟩⟩

/-- Settles O50: after reset no command runs, `SESSION` is `Idle` and both buffers are empty (R58). -/
theorem resetServesSettledAndFits : Obligations.ResetServesSettledAndFits :=
  fun _ _ => ⟨trivial, rfl, Nat.zero_le _, Nat.zero_le _⟩

/-! ## A run of the command -/

theorem stepN_eq_execN_of_within {i : Instr} {w : CmdWord} (hd : decode w = .ok i) (n : Nat) {s : State}
    (hw : s.within w) (hs : s.sched = []) : stepN n s = execN i n s := by
  induction n generalizing s with
  | zero => rfl
  | succ n ih =>
    rw [stepN, execN, step_alone hs, controllerStep_within hd hw]
    rcases he : exec i s with t | r | r
    · exact ih (exec_within hw he) ((exec_sched_cfg he).1.trans hs)
    · rfl
    · rfl

/-- Settles O7: with an empty schedule every step is the controller's, inside the word and after its end. -/
theorem stepsAreStepsOfTheCommand : Obligations.StepsAreStepsOfTheCommand :=
  fun _ _ k _ n hs hp hd => stepN_eq_execN_of_within hd n (.inl ⟨k, hp⟩) hs

/-! ## Answers that no queue decides (R54) -/

theorem afterSample_of_unqueued {s : State} (h : s.dreqIn = []) :
    s.afterSample = { s with draws := s.draws + 1, trace := s.trace ++ [.ready s.sampleReady] } := by
  simp [State.afterSample, State.dreqTaken, h, State.record]

theorem afterXfer_of_unqueued {s : State} (o : Byte) (h : s.misoIn = []) :
    s.afterXfer o = { s with draws := s.draws + 1, trace := s.trace ++ [.xfer o s.misoByte] } := by
  simp [State.afterXfer, State.misoTaken, h, State.record]

/-- Settles O38: the free answer is the one the sample or the exchange draws. -/
theorem unqueuedAnswersAreFree : Obligations.UnqueuedAnswersAreFree := by
  refine ⟨fun i s w loc rest hp hq => ⟨s.sampleReady, ?_⟩, fun i s w loc o dst rest hp hq => ⟨s.misoByte, ?_⟩⟩
  · rw [exec_run i hp]
    cases hr : s.sampleReady with
    | true => rw [microStep_await_ready w loc rest s hr, afterSample_of_unqueued hq, hr]; rfl
    | false => rw [microStep_await_busy w loc rest s hr, afterSample_of_unqueued hq, hr]; rfl
  · rw [exec_run i hp, microStep_xfer, afterXfer_of_unqueued o hq]

/-! ## The buffers' capacities (R48, R49) -/

theorem buffersFit_settle {w : CmdWord} {ops : List Op} {loc : Locals} {s : State} (hs : BuffersFit s) :
    BuffersFit (settle w ops loc s) := by simpa [BuffersFit] using hs

/-- A pop shortens DIN, and a push goes to a DOUT with room. -/
theorem buffersFit_microStep {w : CmdWord} {loc : Locals} {ops : List Op} {s t : State} (hs : BuffersFit s)
    (h : microStep w loc ops s = .next t) : BuffersFit t := by
  have ⟨hdin, hdout⟩ := hs
  rcases microStep_next h with rfl | ⟨rest, -, -, rfl⟩ | ⟨-, rfl⟩ | ⟨op, rest, -, -, rfl⟩ | ⟨l, v, rest, -, rfl⟩
    | ⟨l, rest, -, -, rfl⟩ | ⟨rest, -, -, rfl⟩ | ⟨o, d, rest, -, rfl⟩ | ⟨rest, -, -, rfl⟩ | ⟨rest, -, rfl⟩
    | ⟨p, rest, -, -, rfl⟩ | ⟨d, b, bs, rest, -, hb, rfl⟩ | ⟨b, bs, rest, -, hb, rfl⟩ | ⟨rest, -, hroom, rfl⟩
  iterate 11 · simpa [BuffersFit] using hs
  · rw [hb] at hdin
    exact buffersFit_settle ⟨(Nat.le_succ _).trans hdin, hdout⟩
  · rw [hb] at hdin
    exact buffersFit_settle ⟨(Nat.le_succ _).trans hdin, hdout⟩
  · exact buffersFit_settle ⟨hdin, by simpa using hroom⟩

theorem buffersFit_controllerStep {s t : State} (hs : BuffersFit s) (h : controllerStep s = .next t) :
    BuffersFit t := by
  rcases controllerStep_cases s with ⟨-, e⟩ | ⟨-, e⟩ | ⟨w, k, c, -, -, e⟩ | ⟨-, -, i, -, -, e⟩ <;> rw [e] at h
  · cases h; exact hs
  · cases h; exact hs
  · cases h; exact hs
  rcases exec_cases i s with ⟨-, e⟩ | ⟨-, e⟩ | ⟨w, -, ⟨-, e⟩ | ⟨c, -, e⟩⟩ | ⟨w, loc, ops, -, e⟩ <;> rw [e] at h
  · cases h; exact hs
  · cases h; exact hs
  · cases h; exact buffersFit_settle hs
  · cases h; exact buffersFit_settle hs
  · exact buffersFit_microStep hs h

theorem buffersFit_apply {m : Move} {s : State} (hs : BuffersFit s) (hm : m.enabled s = true) :
    BuffersFit (m.apply s) := by
  obtain ⟨hdin, hdout⟩ := hs
  cases m with
  | controller | offer _ | coUser _ => exact ⟨hdin, hdout⟩
  | push b => exact ⟨by simpa [Move.apply] using (Move.push_enabled_iff b s).mp hm, hdout⟩
  | take => exact ⟨hdin, (List.drop_sublist 1 s.dout).length_le.trans hdout⟩
  | reset => exact ⟨Nat.zero_le _, Nat.zero_le _⟩

/-- Settles O51: only the host's push and the controller's push lengthen a buffer, and each needs room. -/
theorem stepKeepsBuffersFit : Obligations.StepKeepsBuffersFit := by
  intro s t hs h
  obtain ⟨ms, h | ⟨m, hm, rfl⟩⟩ := step_next h
  · exact buffersFit_controllerStep (s := s.withSched ms) hs h
  · exact buffersFit_apply (s := s.withSched ms) hs hm

/-! ## The latched word (R31, R32) -/

/-- The machine executes the word `w` still, or its command ended last, with its code in `ERR`. -/
def State.latchedOrEnded (w : CmdWord) (s : State) : Prop :=
  (∃ k, s.phase = .exec w k)
  ∨ ((s.phase = .ready ∨ s.phase = .halted) ∧ s.trace.getLast? = some (.done s.err))

theorem latchedOrEnded_settle (w : CmdWord) (ops : List Op) (loc : Locals) (s : State) :
    (settle w ops loc s).latchedOrEnded w := by
  obtain ⟨as, ⟨loc', ops', -, h⟩ | ⟨c, h⟩ | h⟩ := settle_cases w ops loc s <;> rw [h]
  · exact .inl ⟨_, rfl⟩
  · exact .inr ⟨.inl rfl, by simp⟩
  · exact .inr ⟨.inr rfl, by simp⟩

theorem latchedOrEnded_controllerStep {w : CmdWord} {k : Pos} {s t : State} (hp : s.phase = .exec w k)
    (h : controllerStep s = .next t) : t.latchedOrEnded w := by
  rcases hd : decode w with c | i
  · rw [controllerStep_illegal hp hd] at h
    cases h
    exact latchedOrEnded_settle w [.finish c] .blank s
  rw [controllerStep_exec hp hd] at h
  cases k with
  | start =>
    rcases hg : guardOf i s with _ | c
    · rw [exec_accepts hp hg] at h
      cases h
      exact latchedOrEnded_settle ..
    · rw [exec_rejects hp hg] at h
      cases h
      exact latchedOrEnded_settle ..
  | run loc ops =>
    rw [exec_run i hp] at h
    rcases microStep_effect h with ⟨-, hphase⟩ | ⟨x, loc', ops', -, -, rfl⟩
    · exact .inl ⟨_, hphase.trans hp⟩
    · exact latchedOrEnded_settle ..

theorem controllerStep_ready {s : State} (h : s.phase = .ready) : controllerStep s = .next s := by
  simp [controllerStep, h]

/-- The moves of the other agents but an offer and a reset leave `PHASE` alone. -/
theorem Move.apply_phase {m : Move} (hoffer : ∀ w, m ≠ .offer w) (hreset : m ≠ .reset) (s : State) :
    (m.apply s).phase = s.phase := by
  cases m with
  | offer w => exact absurd rfl (hoffer w)
  | reset => exact absurd rfl hreset
  | controller | push _ | take | coUser _ => rfl

/-- A step with no reset next is the controller's, an offer latched in READY, or keeps `PHASE`. -/
theorem step_next_of_no_reset {s t : State} (hr : s.sched.head? ≠ some .reset) (h : step s = .next t) :
    (∃ ms, controllerStep (s.withSched ms) = .next t)
    ∨ (∃ w rest, s.sched = .offer w :: rest ∧ s.phase = .ready ∧ t.phase = .exec w .start)
    ∨ t.phase = s.phase := by
  rcases step_cases s with e | ⟨ms, -, e⟩ | ⟨m, ms, hm, -, hen, e⟩ <;> rw [e] at h
  · exact .inl ⟨s.sched, h⟩
  · exact .inl ⟨ms, h⟩
  cases h
  by_cases ho : ∃ w, m = .offer w
  · obtain ⟨w, rfl⟩ := ho
    exact .inr (.inl ⟨w, ms, hm, s.cmdReady_iff.mp hen, rfl⟩)
  · refine .inr (.inr (Move.apply_phase (fun w hw => ho ⟨w, hw⟩) ?_ _))
    rintro rfl
    exact hr (by rw [hm]; rfl)

/-- Settles O53: a command's word leaves `PHASE` with its `End`, and READY is left by an offer alone. -/
theorem commandStaysLatched : Obligations.CommandStaysLatched := by
  intro s t hr h
  refine ⟨fun w k hp => ?_, fun hp => ?_⟩
  · rcases step_next_of_no_reset hr h with ⟨ms, hc⟩ | ⟨w', rest, -, hready, -⟩ | hkeep
    · exact latchedOrEnded_controllerStep (s := s.withSched ms) hp hc
    · cases hp.symm.trans hready
    · exact .inl ⟨k, hkeep.trans hp⟩
  · rcases step_next_of_no_reset hr h with ⟨ms, hc⟩ | ⟨w, rest, hs, -, ht⟩ | hkeep
    · rw [controllerStep_ready (s := s.withSched ms) hp] at hc
      cases hc
      exact .inl hp
    · exact .inr ⟨w, rest, hs, ht⟩
    · exact .inl (hkeep.trans hp)

end Sys2Proof.Machine
end

section
/-!
Which command may do what (10_state.md R33 to R38, R48, R49): every micro-program holds only items that its command
may use, an item turns into such items, and such items write only what the command is named a writer of.
-/

namespace Sys2Proof.Machine

open Sys2Proof

/-! ## The items of a command -/

/-- `ops` holds only items that command `i` may use. -/
def Serves (i : Instr) (ops : List Op) : Prop := ∀ op ∈ ops, op.mayServe i = true

@[simp] theorem serves_nil (i : Instr) : Serves i [] := nofun

@[simp] theorem serves_cons (i : Instr) (op : Op) (ops : List Op) :
    Serves i (op :: ops) ↔ op.mayServe i = true ∧ Serves i ops := List.forall_mem_cons

@[simp] theorem serves_append (i : Instr) (ops ops' : List Op) :
    Serves i (ops ++ ops') ↔ Serves i ops ∧ Serves i ops' := List.forall_mem_append

@[simp] theorem serves_regTxn (i : Instr) (o0 o1 o2 o3 : Byte) (d2 d3 : ByteDst) :
    Serves i (regTxn o0 o1 o2 o3 d2 d3) := by
  simp [regTxn, regFrame, txnBegin, enterControl, exitControl, txnEnd, Op.mayServe]

@[simp] theorem serves_regWrite (i : Instr) (c : Config) (a : Byte) (v : Word) : Serves i (regWrite c a v) :=
  by simp [regWrite_eq]

@[simp] theorem serves_regRead (i : Instr) (c : Config) (a : Byte) : Serves i (regRead c a) :=
  by simp [regRead_eq]

@[simp] theorem serves_dataSend (i : Instr) (src : DataSrc) (n : Nat) :
    Serves i (dataSend src n) ↔ (Op.sendGroups src n).mayServe i = true := by
  simp [dataSend, txnBegin, enterData, exitData, txnEnd, Op.mayServe]

theorem serves_sendNext {i : Instr} {src : DataSrc} {g : Nat} (h : (Op.sendBytes src g).mayServe i = true) :
    Serves i src.sendNext := by
  cases src with
  | din => simpa [DataSrc.sendNext, Op.mayServe] using h
  | zero | frame _ => simp [DataSrc.sendNext, Op.mayServe]

theorem serves_nextWordDin {i : Instr} (h : loadsDin i = true) : Serves i nextWordDin := by
  simp [nextWordDin, Op.mayServe, h]

theorem mayServe_awaitReady (i : Instr) : Op.awaitReady.mayServe i = true := rfl

/-- A source stays the source it is when bytes of it were sent. -/
theorem mayServe_sendGroups_drop {i : Instr} {src : DataSrc} {n : Nat}
    (h : (Op.sendGroups src n).mayServe i = true) (g n' : Nat) :
    (Op.sendGroups (src.drop g) n').mayServe i = true := by
  cases src <;> exact h

theorem mayServe_sendBytes_drop {i : Instr} {src : DataSrc} {n : Nat}
    (h : (Op.sendBytes src n).mayServe i = true) (g n' : Nat) :
    (Op.sendBytes (src.drop g) n').mayServe i = true := by
  cases src <;> exact h

theorem mayServe_sendBytes_of_sendGroups {i : Instr} {src : DataSrc} {n : Nat}
    (h : (Op.sendGroups src n).mayServe i = true) (g : Nat) : (Op.sendBytes src g).mayServe i = true := by
  cases src <;> exact h

/-- What an item of a command turns into are items of the command. -/
theorem Op.serves_expand {i : Instr} {op : Op} {c : Config} {loc loc' : Locals} {ops : List Op}
    (h : op.mayServe i = true) (he : op.expand c loc = some (loc', ops)) : Serves i ops := by
  cases op
  case sendGroups src n =>
    simp only [Op.expand] at he
    split at he <;> cases he
    · simp
    · simp [mayServe_awaitReady, mayServe_sendBytes_of_sendGroups h, mayServe_sendGroups_drop h]
  case sendBytes src g =>
    simp only [Op.expand] at he
    split at he <;> cases he
    · simp
    · simp [serves_sendNext h, mayServe_sendBytes_drop h]
  case regWrites l =>
    rcases l with _ | ⟨⟨a, v⟩, l⟩ <;> cases he
    · simp
    · simp [Op.mayServe]
  case discard n =>
    simp only [Op.expand] at he
    split at he <;> cases he
    · simp
    · rename_i hn
      have hdin : (streamsDin i || loadsDin i) = true := by simpa [Op.mayServe, hn] using h
      simp [Op.mayServe, hdin]
  case readRegs a n =>
    simp only [Op.expand] at he
    split at he <;> cases he
    · simp
    · simpa [Op.mayServe] using h
  case imageLoop len =>
    simp only [Op.expand] at he
    split at he
    · cases he; simp
    · split at he <;> cases he
      simpa [Op.mayServe, serves_nextWordDin h] using h
  case imageHeader | imageSelect =>
    simp only [Op.expand] at he
    split at he <;> cases he <;> simp
  case imagePayload =>
    simp only [Op.expand] at he
    split at he
    · cases he; simpa [Op.mayServe, serves_nextWordDin h] using h
    · split at he <;> cases he
      · simp
      · simpa [Op.mayServe, serves_nextWordDin h] using h
  case imageCopy n =>
    simp only [Op.expand] at he
    split at he <;> cases he
    · simp
    · simpa [Op.mayServe, serves_nextWordDin h] using h
  case imageRepeat =>
    simp only [Op.expand] at he
    split at he <;> cases he
    · simp
    · simp [Op.mayServe]
  case raiseImage => cases he
  case assign | finish | imageAddr | imageStore => cases he; simp
  all_goals (cases he; simpa using h)

/-! ## The micro-programs of the commands -/

/-- Every command's micro-program holds only items that the command may use. -/
theorem serves_programOf (c : Config) (i : Instr) : Serves i (programOf c i) := by
  cases i with
  | begin => simp [programOf, beginProgram, Op.mayServe, writesSession, writesMidi]
  | readReg addr => simp [programOf, readRegProgram, Op.mayServe, pushesDout]
  | writeReg addr value => simp [programOf, writeRegProgram, Op.mayServe]
  | sendBuffer len => simp [programOf, sendBufferProgram, Op.mayServe, streamsDin]
  | sendZeroes len => simp [programOf, sendZeroesProgram, Op.mayServe]
  | startSong => simp [programOf, startSongProgram, Op.mayServe, writesSession]
  | playChunk len => simp [programOf, playChunkProgram, Op.mayServe, streamsDin]
  | stopSong => simp [programOf, stopSongProgram, Op.mayServe, writesSession]
  | loadImage len => simp [programOf, loadImageProgram, imageLoadDin, Op.mayServe, loadsDin]
  | setVolume level => simp [programOf, setVolumeProgram, Op.mayServe]
  | beginMidi =>
    simp only [programOf, beginMidiProgram, imageLoadRom]
    split <;> simp [Op.mayServe, writesMidi]
  | sendMidi mcmd d1 d2 => simp [programOf, sendMidiProgram, Op.mayServe]
  | printDetails => simp [programOf, printDetailsProgram, Op.mayServe, pushesDout]

/-- Only a command with a DIN payload has bytes to discard (60_exceptions.md R305). -/
theorem serves_rejectProgram (i : Instr) (c : ResultCode) : Serves i (rejectProgram c (payloadOf i)) := by
  cases i <;> simp [rejectProgram, Op.mayServe, payloadOf, streamsDin, loadsDin]

/-! ## Every step keeps it -/

theorem servesCommand_of_phase_run {s : State} {w : CmdWord} {loc : Locals} {ops : List Op} {i : Instr}
    (hp : s.phase = .exec w (.run loc ops)) (hd : decode w = .ok i) : ServesCommand s ↔ Serves i ops := by
  simp [ServesCommand, Serves, hp, hd]

theorem servesCommand_settle {i : Instr} {w : CmdWord} (hd : decode w = .ok i) {ops : List Op}
    (hops : Serves i ops) (loc : Locals) (s : State) : ServesCommand (settle w ops loc s) := by
  induction ops generalizing loc s with
  | nil => trivial
  | cons op rest ih =>
    obtain ⟨hop, hrest⟩ := (serves_cons ..).mp hops
    by_cases hp : op.isPrimitive = true
    · rw [settle_primitive hp]
      exact (servesCommand_of_phase_run rfl hd).mpr hops
    · rcases Op.silent_cases op (by simpa using hp) with ⟨c, rfl⟩ | ⟨a, rfl⟩ | he
      · trivial
      · exact ih hrest loc _
      · rcases hx : op.expand s.cfg loc with _ | ⟨loc', _ | ⟨op', ops'⟩⟩
        · rw [settle_faults he hx]; trivial
        · rw [settle_gone he hx]; exact ih hrest loc' s
        · rw [settle_opens he hx]
          exact (servesCommand_of_phase_run rfl hd).mpr ((serves_append ..).mpr ⟨Op.serves_expand hop hx, hrest⟩)

theorem servesCommand_microStep {i : Instr} {w : CmdWord} (hd : decode w = .ok i) {loc : Locals} {ops : List Op}
    {s t : State} (hp : s.phase = .exec w (.run loc ops)) (hops : Serves i ops)
    (h : microStep w loc ops s = .next t) : ServesCommand t := by
  rcases microStep_next h with rfl | ⟨rest, rfl, -, rfl⟩ | ⟨rfl, rfl⟩ | ⟨op, rest, rfl, -, rfl⟩
    | ⟨l, v, rest, rfl, rfl⟩ | ⟨l, rest, rfl, -, rfl⟩ | ⟨rest, rfl, -, rfl⟩ | ⟨o, d, rest, rfl, rfl⟩
    | ⟨rest, rfl, -, rfl⟩ | ⟨rest, rfl, rfl⟩ | ⟨p, rest, rfl, -, rfl⟩ | ⟨d, b, bs, rest, rfl, -, rfl⟩
    | ⟨b, bs, rest, rfl, -, rfl⟩ | ⟨rest, rfl, -, rfl⟩
  · exact (servesCommand_of_phase_run hp hd).mpr hops
  · exact (servesCommand_of_phase_run (by simpa using hp) hd).mpr hops
  · trivial
  · exact servesCommand_settle hd hops loc s
  all_goals
    obtain ⟨-, hrest⟩ := (serves_cons ..).mp hops
    refine servesCommand_settle hd ?_ _ _
  iterate 8 · exact hrest
  · exact (serves_cons ..).mpr ⟨rfl, hrest⟩
  · exact hrest

theorem servesCommand_exec {i : Instr} {w : CmdWord} {k : Pos} {s t : State} (hs : ServesCommand s)
    (hp : s.phase = .exec w k) (hd : decode w = .ok i) (h : exec i s = .next t) : ServesCommand t := by
  cases k with
  | start =>
    rcases hg : guardOf i s with _ | c
    · rw [exec_accepts hp hg] at h
      cases h
      exact servesCommand_settle hd (serves_programOf s.cfg i) ..
    · rw [exec_rejects hp hg] at h
      cases h
      exact servesCommand_settle hd (serves_rejectProgram i c) ..
  | run loc ops =>
    rw [exec_run i hp] at h
    exact servesCommand_microStep hd hp ((servesCommand_of_phase_run hp hd).mp hs) h

theorem servesCommand_controllerStep {s t : State} (hs : ServesCommand s) (h : controllerStep s = .next t) :
    ServesCommand t := by
  rcases controllerStep_cases s with ⟨-, e⟩ | ⟨-, e⟩ | ⟨w, k, c, -, -, e⟩ | ⟨w, k, i, hp, hd, e⟩ <;> rw [e] at h
  · cases h; exact hs
  · cases h; exact hs
  · cases h; trivial
  · exact servesCommand_exec hs hp hd h

/-- Settles O47: a micro-program starts with items of its command, and they turn into items of the command. -/
theorem stepKeepsServing : Obligations.StepKeepsServing := by
  intro s t hs h
  obtain ⟨ms, h | ⟨m, -, rfl⟩⟩ := step_next h
  · exact servesCommand_controllerStep (s := s.withSched ms) hs h
  · cases m with
    | controller | push _ | take | coUser _ => exact hs
    | offer _ | reset => trivial

/-! ## What an item of a command writes -/

/-- From `s` to `t` command `i` wrote only what it is named a writer of. A field that an effect leaves alone is
given by the lemmas about that effect. -/
structure WritesAsNamed (i : Instr) (s t : State) : Prop where
  ofBegin : i ≠ .begin → t.init = s.init ∧ t.drvTp = s.drvTp ∧ t.xreset = s.xreset := by simp
  init : s.init = true → t.init = true := by simp
  session : i ≠ .begin → i ≠ .startSong → i ≠ .stopSong → t.session = s.session := by simp
  midi : i ≠ .begin → i ≠ .beginMidi → t.midi = s.midi := by simp
  fault : (∀ len, i ≠ .loadImage len) → i ≠ .beginMidi → t.fault = s.fault := by simp
  faultStays : s.fault = true → t.fault = true := by simp
  din : (∀ len, i ≠ .sendBuffer len) → (∀ len, i ≠ .playChunk len) → (∀ len, i ≠ .loadImage len) →
    t.din = s.din := by simp
  dout : (∀ addr, i ≠ .readReg addr) → i ≠ .printDetails → t.dout = s.dout := by simp

theorem takesDin_eq_false {i : Instr} (hb : ∀ len, i ≠ .sendBuffer len) (hp : ∀ len, i ≠ .playChunk len)
    (hl : ∀ len, i ≠ .loadImage len) : (streamsDin i || loadsDin i) = false := by
  cases i with
  | sendBuffer len => exact absurd rfl (hb len)
  | playChunk len => exact absurd rfl (hp len)
  | loadImage len => exact absurd rfl (hl len)
  | _ => rfl

theorem pushesDout_eq_false {i : Instr} (hr : ∀ addr, i ≠ .readReg addr) (hp : i ≠ .printDetails) :
    pushesDout i = false := by
  cases i with
  | readReg addr => exact absurd rfl (hr addr)
  | printDetails => exact absurd rfl hp
  | _ => rfl

theorem writesSession_eq_false {i : Instr} (hb : i ≠ .begin) (hs : i ≠ .startSong) (ht : i ≠ .stopSong)
    (x : Session) : writesSession x i = false := by
  cases i with
  | begin => exact absurd rfl hb
  | startSong => exact absurd rfl hs
  | stopSong => exact absurd rfl ht
  | _ => rfl

theorem writesMidi_eq_false {i : Instr} (hb : i ≠ .begin) (hm : i ≠ .beginMidi) (v : Bool) :
    writesMidi v i = false := by
  cases i with
  | begin => exact absurd rfl hb
  | beginMidi => exact absurd rfl hm
  | _ => rfl

/-- The items that may raise the fault of a malformed image (44_firmware_loader.md R232, R235). -/
theorem Op.raises_of_expand_none {op : Op} {c : Config} {loc : Locals} (he : op.expand c loc = none) :
    (∃ len, op = .imageLoop len) ∨ (∃ len, op = .imageHeader len) ∨ op = .raiseImage := by
  cases op
  case imageLoop len => exact .inl ⟨len, rfl⟩
  case imageHeader len => exact .inr (.inl ⟨len, rfl⟩)
  case raiseImage => exact .inr (.inr rfl)
  case regWrites l => rcases l with _ | ⟨⟨a, v⟩, l⟩ <;> cases he
  case sendGroups | sendBytes | readRegs | imageSelect | imageCopy | imageRepeat | discard =>
    simp only [Op.expand] at he
    split at he <;> cases he
  case imagePayload =>
    simp only [Op.expand] at he
    split at he
    · cases he
    · split at he <;> cases he
  all_goals cases he

theorem loadsDin_iff (i : Instr) : loadsDin i = true ↔ ∃ len, i = .loadImage len := by
  cases i <;> simp [loadsDin]

/-- Only LOAD_IMAGE and BEGIN_MIDI have an item that may raise the fault of a malformed image (R37). -/
theorem mayRaise_of_expand_none {i : Instr} {op : Op} {c : Config} {loc : Locals} (h : op.mayServe i = true)
    (he : op.expand c loc = none) : (∃ len, i = .loadImage len) ∨ i = .beginMidi := by
  rcases Op.raises_of_expand_none he with ⟨len, rfl⟩ | ⟨len, rfl⟩ | rfl
  · exact .inl ((loadsDin_iff i).mp h)
  · exact .inl ((loadsDin_iff i).mp h)
  · exact .inr (of_decide_eq_true h)

namespace WritesAsNamed

variable {i : Instr} {s t u : State}

theorem refl (i : Instr) (s : State) : WritesAsNamed i s s := {}

theorem trans (h : WritesAsNamed i s t) (h' : WritesAsNamed i t u) : WritesAsNamed i s u where
  ofBegin hi := by simp [h'.ofBegin hi, h.ofBegin hi]
  init hi := h'.init (h.init hi)
  session hb hs ht := (h'.session hb hs ht).trans (h.session hb hs ht)
  midi hb hm := (h'.midi hb hm).trans (h.midi hb hm)
  fault hl hm := (h'.fault hl hm).trans (h.fault hl hm)
  faultStays hf := h'.faultStays (h.faultStays hf)
  din hb hp hl := (h'.din hb hp hl).trans (h.din hb hp hl)
  dout hr hp := (h'.dout hr hp).trans (h.dout hr hp)

theorem rest_at (i : Instr) (s : State) (w : CmdWord) (loc : Locals) (ops : List Op) :
    WritesAsNamed i s (s.at w loc ops) :=
  ⟨fun _ => ⟨rfl, rfl, rfl⟩, id, fun _ _ _ => rfl, fun _ _ => rfl, fun _ _ => rfl, id, fun _ _ _ => rfl,
    fun _ _ => rfl⟩

theorem finish (c : ResultCode) : WritesAsNamed i s (s.finish c) := {}

theorem raiseFault (c : ResultCode) (hi : (∃ len, i = .loadImage len) ∨ i = .beginMidi) :
    WritesAsNamed i s (s.raiseFault c) where
  fault hl hm := (hi.elim (fun ⟨len, h⟩ => hl len h) hm).elim

theorem setLine {l : Line} {v : Level} (h : (Op.setLine l v).mayServe i = true) :
    WritesAsNamed i s (s.setLine l v) := by
  cases l with
  | xcs | xdcs => exact {}
  | xreset => exact { ofBegin := fun hi => absurd (of_decide_eq_true h) hi }

theorem enter {l : Line} (h : (Op.enter l).mayServe i = true) : WritesAsNamed i s (s.setLine l true) := by
  cases l with
  | xcs | xdcs => exact {}
  | xreset => cases h

theorem dinPop (h : (streamsDin i || loadsDin i) = true) (b : Byte) (bs : List Byte) :
    WritesAsNamed i s (s.dinPop b bs) where
  din hb hp hl := absurd h (Bool.eq_false_iff.mp (takesDin_eq_false hb hp hl))

theorem doutPush (h : pushesDout i = true) (v : Word) : WritesAsNamed i s (s.doutPush v) where
  dout hr hp := absurd h (Bool.eq_false_iff.mp (pushesDout_eq_false hr hp))

theorem assign {a : Assign} (h : (Op.assign a).mayServe i = true) : WritesAsNamed i s (s.assign a) := by
  cases a with
  | init v =>
    obtain ⟨hi, hv⟩ := Bool.and_eq_true_iff.mp h
    exact { ofBegin := fun hne => absurd (of_decide_eq_true hi) hne, init := fun _ => hv }
  | session v =>
    exact { session := fun hb hs ht => absurd h (Bool.eq_false_iff.mp (writesSession_eq_false hb hs ht v)) }
  | midi v => exact { midi := fun hb hm => absurd h (Bool.eq_false_iff.mp (writesMidi_eq_false hb hm v)) }
  | err c => exact {}
  | drvTp p => exact { ofBegin := fun hne => absurd (of_decide_eq_true h) hne }

/-- The silent items of a command write what the command may write. -/
theorem settle {w : CmdWord} {ops : List Op} (hops : Serves i ops) (loc : Locals) (s : State) :
    WritesAsNamed i s (settle w ops loc s) := by
  induction ops generalizing loc s with
  | nil => exact finish .ok
  | cons op rest ih =>
    obtain ⟨hop, hrest⟩ := (serves_cons ..).mp hops
    by_cases hp : op.isPrimitive = true
    · rw [settle_primitive hp]
      exact rest_at ..
    · rcases Op.silent_cases op (by simpa using hp) with ⟨c, rfl⟩ | ⟨a, rfl⟩ | he
      · exact finish c
      · exact (assign hop).trans (ih hrest loc _)
      · rcases hx : op.expand s.cfg loc with _ | ⟨loc', _ | ⟨op', ops'⟩⟩
        · rw [settle_faults he hx]
          exact raiseFault .errImage (mayRaise_of_expand_none hop hx)
        · rw [settle_gone he hx]
          exact ih hrest loc' s
        · rw [settle_opens he hx]
          exact rest_at ..

/-- One primitive of a command, and the silent items after it. -/
theorem microStep {w : CmdWord} {loc : Locals} {ops : List Op} (hops : Serves i ops)
    (h : microStep w loc ops s = .next t) : WritesAsNamed i s t := by
  rcases microStep_next h with rfl | ⟨rest, rfl, -, rfl⟩ | ⟨rfl, rfl⟩ | ⟨op, rest, rfl, -, rfl⟩
    | ⟨l, v, rest, rfl, rfl⟩ | ⟨l, rest, rfl, -, rfl⟩ | ⟨rest, rfl, -, rfl⟩ | ⟨o, d, rest, rfl, rfl⟩
    | ⟨rest, rfl, -, rfl⟩ | ⟨rest, rfl, rfl⟩ | ⟨p, rest, rfl, -, rfl⟩ | ⟨d, b, bs, rest, rfl, -, rfl⟩
    | ⟨b, bs, rest, rfl, -, rfl⟩ | ⟨rest, rfl, -, rfl⟩
  · exact refl i t
  · exact {}
  · exact finish .ok
  · exact settle hops loc s
  all_goals obtain ⟨hop, hrest⟩ := (serves_cons ..).mp hops
  · exact (setLine hop).trans (settle hrest _ _)
  · exact (enter hop).trans (settle hrest _ _)
  · exact trans {} (settle hrest _ s.afterSample)
  · exact trans {} (settle hrest _ (s.afterXfer o))
  · exact trans {} (settle hrest _ s.tpCapture)
  · exact trans {} (settle hrest _ (s.tpWrite s.drvTp))
  · exact trans {} (settle hrest _ (s.tpRestore p))
  · exact (dinPop hop b bs).trans (settle hrest _ _)
  · have hstream : (streamsDin i || loadsDin i) = true := Bool.or_eq_true_iff.mpr (.inl hop)
    exact (dinPop hstream b bs).trans (settle ((serves_cons ..).mpr ⟨rfl, hrest⟩) _ _)
  · exact (doutPush hop loc.word).trans (settle hrest _ _)

/-- A step of a command that serves. -/
theorem exec {w : CmdWord} {k : Pos} (hp : s.phase = .exec w k) (hd : decode w = .ok i) (hs : ServesCommand s)
    (h : exec i s = .next t) : WritesAsNamed i s t := by
  cases k with
  | start =>
    rcases hg : guardOf i s with _ | c
    · rw [exec_accepts hp hg] at h
      cases h
      exact settle (serves_programOf s.cfg i) ..
    · rw [exec_rejects hp hg] at h
      cases h
      exact settle (serves_rejectProgram i c) ..
  | run loc ops =>
    rw [exec_run i hp] at h
    exact microStep ((servesCommand_of_phase_run hp hd).mp hs) h

end WritesAsNamed

/-- Settles O48: a command's items write what it is named a writer of, and no item writes the configuration or the
schedule. -/
theorem onlyNamedWritersWrite : Obligations.OnlyNamedWritersWrite := by
  intro s t w k i hp hd hs h
  obtain ⟨hbegin, hinit, hsession, hmidi, hfault, hstays, hdin, hdout⟩ := WritesAsNamed.exec hp hd hs h
  obtain ⟨hsched, hcfg⟩ := exec_sched_cfg h
  exact ⟨hbegin, hinit, hsession, hmidi, hfault, hstays, hdin, hdout, hcfg, hsched⟩

end Sys2Proof.Machine
end

section
/-!
The STATUS vector (10_state.md R44): each field of it is the register's number, and nothing else stands in it.
-/

namespace Sys2Proof.Machine

open Sys2Proof

/-! ## The fields -/

/-- The fields side by side, their widths not yet added up: so a field can be cut out. -/
def State.statusFields (s : State) : BitVec (4 + 4 + 1 + 1 + 1 + 2 + 2 + 1) :=
  0#4 ++ resultCode s.err ++ BitVec.ofBool s.fault ++ BitVec.ofBool s.midi ++ BitVec.ofBool s.init
    ++ sessionCode s.session ++ busModeCode s.busMode ++ BitVec.ofBool s.busy

theorem status_extractLsb' (s : State) (k n : Nat) :
    s.status.extractLsb' k n = s.statusFields.extractLsb' k n := rfl

theorem status_getLsbD (s : State) (k : Nat) : s.status.getLsbD k = s.statusFields.getLsbD k := rfl

theorem status_busMode (s : State) : s.status.extractLsb' 1 2 = busModeCode s.busMode := by
  rw [status_extractLsb', State.statusFields]
  simp (disch := decide) only [BitVec.extractLsb'_append_eq_of_le]
  exact BitVec.extractLsb'_append_eq_right

theorem status_session (s : State) : s.status.extractLsb' 3 2 = sessionCode s.session := by
  rw [status_extractLsb', State.statusFields]
  simp (disch := decide) only [BitVec.extractLsb'_append_eq_of_le]
  exact BitVec.extractLsb'_append_eq_right

theorem status_err (s : State) : s.status.extractLsb' 8 4 = resultCode s.err := by
  rw [status_extractLsb', State.statusFields]
  simp (disch := decide) only [BitVec.extractLsb'_append_eq_of_le]
  exact BitVec.extractLsb'_append_eq_right

theorem status_high (s : State) : s.status.extractLsb' 12 4 = 0 := by
  rw [status_extractLsb', State.statusFields]
  simp (disch := decide) only [BitVec.extractLsb'_append_eq_of_le, BitVec.extractLsb'_zero]
  rfl

theorem status_busy (s : State) : s.status.getLsbD 0 = s.busy := by
  rw [status_getLsbD, State.statusFields]
  simp only [BitVec.getLsbD_append]
  simp

theorem status_init (s : State) : s.status.getLsbD 5 = s.init := by
  rw [status_getLsbD, State.statusFields]
  simp only [BitVec.getLsbD_append]
  simp

theorem status_midi (s : State) : s.status.getLsbD 6 = s.midi := by
  rw [status_getLsbD, State.statusFields]
  simp only [BitVec.getLsbD_append]
  simp

theorem status_fault (s : State) : s.status.getLsbD 7 = s.fault := by
  rw [status_getLsbD, State.statusFields]
  simp only [BitVec.getLsbD_append]
  simp

/-! ## What the fields show -/

theorem State.busy_iff (s : State) : s.busy = true ↔ s.phase = .halted ∨ ∃ w k, s.phase = .exec w k := by
  rcases hp : s.phase with _ | ⟨w, k⟩ | _ <;> simp [State.busy, State.cmdReady, hp]

theorem busModeCode_eq_three_iff (m : BusMode) : busModeCode m = 3 ↔ m = .forbidden := by
  cases m <;> simp [busModeCode]

/-- R44: the code 3 would show both selects low, which R42 forbids. -/
theorem status_busMode_ne_three {s : State} (hs : Disciplined s) : s.status.extractLsb' 1 2 ≠ 3 := by
  rw [status_busMode, ne_eq, busModeCode_eq_three_iff, s.busMode_forbidden_iff]
  exact not_bothLow_of_disciplined hs

/-- Settles O14: every field is the number of its register or view (R34, R41, R300). -/
theorem statusLayout : Obligations.StatusLayout := by
  intro s
  rw [status_busy, status_init, status_midi, status_fault, status_session, status_err]
  refine ⟨s.busy_iff, fun hx hd => ?_, fun hx hd => ?_, fun hx hd => ?_, status_busMode_ne_three,
    fun h => by rw [h]; rfl, fun h => by rw [h]; rfl, fun h => by rw [h]; rfl, fun h => by rw [h]; rfl,
    rfl, rfl, rfl,
    fun h => by rw [h]; rfl, fun h => by rw [h]; rfl, fun h => by rw [h]; rfl, fun h => by rw [h]; rfl,
    fun h => by rw [h]; rfl, fun h => by rw [h]; rfl, status_high s⟩
  · rw [status_busMode, s.busMode_idle_iff.mpr ⟨hx, hd⟩]; rfl
  · rw [status_busMode, s.busMode_control_iff.mpr ⟨hx, hd⟩]; rfl
  · rw [status_busMode, s.busMode_data_iff.mpr ⟨hx, hd⟩]; rfl

end Sys2Proof.Machine
end

section
/-!
The host's moves during a command (10_state.md R48, R49; 60_exceptions.md R311). A primitive reads only the oldest byte
of DIN and whether DOUT has room. So as long as the one is there, or no more are to come, and the other is the same, the
bytes still to be pushed may as well be in DIN, and the words already taken may as well stand in a deeper DOUT: one
commuting lemma per shared operation, and a simulation from it.
-/

namespace Sys2Proof.Machine

open Sys2Proof

/-! ## A state with more in DIN and more room in DOUT -/

/-- The configuration with `room` more places in DOUT. -/
def deeper (room : Nat) (c : Config) : Config := { c with doutDepth := c.doutDepth + room }

/-- `s` with the words `front` before those in DOUT and `room` more places there, the bytes `more` behind those in
DIN, and nothing scheduled. -/
def State.widen (front : List Word) (room : Nat) (more : List Byte) (s : State) : State :=
  { s with cfg := deeper room s.cfg, din := s.din ++ more, dout := front ++ s.dout, sched := [] }

/-- No primitive can tell `s` from `s` widened: DIN is empty in both or in neither, and DOUT is full in both or in
neither. -/
def State.hides (front : List Word) (room : Nat) (more : List Byte) (s : State) : Prop :=
  (s.din = [] → more = [])
  ∧ (s.cfg.doutDepth + room ≤ front.length + s.dout.length ↔ s.cfg.doutDepth ≤ s.dout.length)

@[simp] theorem State.widen_phase (front : List Word) (room : Nat) (more : List Byte) (s : State) :
    (s.widen front room more).phase = s.phase := rfl

@[simp] theorem State.widen_din (front : List Word) (room : Nat) (more : List Byte) (s : State) :
    (s.widen front room more).din = s.din ++ more := rfl

@[simp] theorem State.widen_tpSave (front : List Word) (room : Nat) (more : List Byte) (s : State) :
    (s.widen front room more).tpSave = s.tpSave := rfl

theorem State.widen_full_iff {front : List Word} {room : Nat} {more : List Byte} {s : State}
    (h : s.hides front room more) :
    (s.widen front room more).cfg.doutDepth ≤ (s.widen front room more).dout.length
      ↔ s.cfg.doutDepth ≤ s.dout.length := by
  simpa [State.widen, deeper] using h.2

/-! ## No micro-program depends on the depth of DOUT -/

theorem imageActsFuel_deeper (room : Nat) (c : Config) (fuel : Nat) (ws : List Word) :
    imageActsFuel (deeper room c) fuel ws = imageActsFuel c fuel ws := by
  induction fuel, ws using imageActsFuel.induct (c := c) with
  | case1 | case2 | case3 => simp [imageActsFuel]
  | case4 fuel a h rest hlt => simp [imageActsFuel, hlt]
  | case5 fuel a h rest hlt ih =>
    simp only [imageActsFuel, ih]
    rfl

theorem programOf_deeper (room : Nat) (c : Config) (i : Instr) :
    programOf (deeper room c) i = programOf c i := by
  cases i with
  | beginMidi =>
    have hacts : imageActs (deeper room c) c.midiImage = imageActs c c.midiImage := imageActsFuel_deeper ..
    show imageLoadRom (deeper room c) c.midiImage ++ _ = imageLoadRom c c.midiImage ++ _
    simp only [imageLoadRom, imageWrites, imageLoads, hacts]
    rfl
  | _ => rfl

theorem Op.expand_deeper (room : Nat) (c : Config) (loc : Locals) (op : Op) :
    op.expand (deeper room c) loc = op.expand c loc := by
  cases op with
  | regWrites l => cases l <;> rfl
  | _ => rfl

/-! ## The shared operations commute with widening -/

section
variable (front : List Word) (room : Nat) (more : List Byte)

theorem settle_widen (w : CmdWord) (ops : List Op) (loc : Locals) (s : State) :
    settle w ops loc (s.widen front room more) = (settle w ops loc s).widen front room more := by
  induction ops generalizing loc s with
  | nil => rfl
  | cons op rest ih =>
    by_cases hp : op.isPrimitive = true
    · rw [settle_primitive hp, settle_primitive hp]; rfl
    · rcases Op.silent_cases op (by simpa using hp) with ⟨c, rfl⟩ | ⟨a, rfl⟩ | he
      · rfl
      · have hassign : (s.widen front room more).assign a = (s.assign a).widen front room more := by cases a <;> rfl
        rw [settle_assign, settle_assign, hassign]
        exact ih loc (s.assign a)
      · have hexpand : op.expand (s.widen front room more).cfg loc = op.expand s.cfg loc := Op.expand_deeper ..
        rcases hx : op.expand s.cfg loc with _ | ⟨loc', _ | ⟨op', ops'⟩⟩
        · rw [settle_faults he hx, settle_faults he (hexpand.trans hx)]; rfl
        · rw [settle_gone he hx, settle_gone he (hexpand.trans hx)]; exact ih loc' s
        · rw [settle_opens he hx, settle_opens he (hexpand.trans hx)]; rfl

theorem State.widen_setLine (l : Line) (v : Level) (s : State) :
    (s.widen front room more).setLine l v = (s.setLine l v).widen front room more := by cases l <;> rfl

theorem State.widen_dreqTaken (s : State) :
    (s.widen front room more).dreqTaken = s.dreqTaken.widen front room more := by
  simp only [State.dreqTaken, State.widen]
  split <;> rfl

theorem State.widen_misoTaken (s : State) :
    (s.widen front room more).misoTaken = s.misoTaken.widen front room more := by
  simp only [State.misoTaken, State.widen]
  split <;> rfl

theorem State.widen_afterSample (s : State) :
    (s.widen front room more).afterSample = s.afterSample.widen front room more := by
  rw [State.afterSample, State.widen_dreqTaken, State.afterSample]; rfl

theorem State.widen_afterXfer (o : Byte) (s : State) :
    (s.widen front room more).afterXfer o = (s.afterXfer o).widen front room more := by
  rw [State.afterXfer, State.widen_misoTaken, State.afterXfer]; rfl

variable {front room more}

/-- A primitive that cannot tell the two states apart has the same effect in both. -/
theorem microStep_widen (w : CmdWord) (loc : Locals) (ops : List Op) {s : State} (h : s.hides front room more) :
    microStep w loc ops (s.widen front room more)
      = mapNext (State.widen front room more) (microStep w loc ops s) := by
  rcases ops with _ | ⟨op, rest⟩
  · rfl
  cases op
  case setLine l v =>
    rw [microStep_setLine, microStep_setLine, State.widen_setLine, settle_widen]; rfl
  case enter l =>
    simp only [microStep]
    rw [show (s.widen front room more).busMode = s.busMode from rfl]
    split
    · rw [State.widen_setLine, settle_widen]; rfl
    · rfl
  case awaitReady =>
    simp only [microStep]
    rw [show (s.widen front room more).sampleReady = s.sampleReady from rfl, State.widen_afterSample]
    split
    · rw [settle_widen]; rfl
    · rfl
  case xfer o d =>
    rw [microStep_xfer, microStep_xfer, State.widen_afterXfer, settle_widen]; rfl
  case tpCapture =>
    simp only [microStep]
    rw [show (s.widen front room more).tpHeld = s.tpHeld from rfl]
    split
    · rfl
    · exact congrArg Host.Outcome.next (settle_widen front room more w rest loc s.tpCapture)
  case tpApply => exact congrArg Host.Outcome.next (settle_widen front room more w rest loc (s.tpWrite s.drvTp))
  case tpRestore =>
    rcases hp : s.tpSave with _ | p
    · simp only [microStep, State.widen_tpSave, hp]; rfl
    · rw [microStep_tpRestore w loc rest s hp, microStep_tpRestore w loc rest (s.widen front room more) hp]
      exact congrArg Host.Outcome.next (settle_widen front room more w rest loc (s.tpRestore p))
  case dinPop d =>
    rcases hb : s.din with _ | ⟨b, bs⟩
    · rw [microStep_dinPop_hold w loc rest s d hb, microStep_dinPop_hold _ _ _ _ d (by simp [hb, h.1 hb])]; rfl
    · rw [microStep_dinPop w loc rest s d hb, microStep_dinPop (b := b) (bs := bs ++ more) _ _ _ _ d (by simp [hb])]
      exact congrArg Host.Outcome.next (settle_widen front room more w rest _ (s.dinPop b bs))
  case dinSend =>
    rcases hb : s.din with _ | ⟨b, bs⟩
    · rw [microStep_dinSend_hold w loc rest s hb, microStep_dinSend_hold _ _ _ _ (by simp [hb, h.1 hb])]; rfl
    · rw [microStep_dinSend w loc rest s hb, microStep_dinSend (b := b) (bs := bs ++ more) _ _ _ _ (by simp [hb])]
      exact congrArg Host.Outcome.next (settle_widen front room more w _ _ (s.dinPop b bs))
  case doutPush =>
    simp only [microStep, State.widen_full_iff h]
    split
    · rfl
    · have hpush : (s.widen front room more).doutPush loc.word = (s.doutPush loc.word).widen front room more := by
        simp [State.doutPush, State.record, State.widen]
      rw [hpush, settle_widen]; rfl
  all_goals exact congrArg Host.Outcome.next (settle_widen front room more w _ loc s)

theorem guardOf_widen (i : Instr) (s : State) : guardOf i (s.widen front room more) = guardOf i s := by
  cases i <;> rfl

theorem exec_widen (i : Instr) {s : State} (h : s.hides front room more) :
    exec i (s.widen front room more) = mapNext (State.widen front room more) (exec i s) := by
  rcases hp : s.phase with _ | ⟨w, _ | ⟨loc, ops⟩⟩ | _
  · rw [exec_ready i hp, exec_ready i (s := s.widen front room more) hp]; rfl
  · rcases hg : guardOf i s with _ | c
    · rw [exec_accepts hp hg, exec_accepts (s := s.widen front room more) hp ((guardOf_widen i s).trans hg),
        settle_widen, show (s.widen front room more).cfg = deeper room s.cfg from rfl, programOf_deeper]
      rfl
    · rw [exec_rejects hp hg, exec_rejects (s := s.widen front room more) hp ((guardOf_widen i s).trans hg),
        settle_widen]
      rfl
  · rw [exec_run i hp, exec_run i (s := s.widen front room more) hp, microStep_widen w loc ops h]
  · rw [exec_halted i hp, exec_halted i (s := s.widen front room more) hp]; rfl

end

/-! ## The machine simulates the command -/

theorem mapNext_eq_next_iff {f : State → State} {r : Result} {t : State} :
    mapNext f r = .next t ↔ ∃ u, r = .next u ∧ f u = t := by
  cases r <;> simp [mapNext]

/-- The machine gets from `s`, by moves of other agents, to a state related to `a` as `s` is, at which its next step
matches that of command `i` from `a`. -/
def Matches (i : Instr) (R : State → State → Prop) (s a : State) : Prop :=
  ∃ j u, stepN j s = .next u ∧ ∀ a', exec i a = .next a' → ∃ u', step u = .next u' ∧ R u' a'

/-- Where every step of the command is matched, every run of it is. -/
theorem stepN_simulates_execN {i : Instr} {R : State → State → Prop} (hR : ∀ s a, R s a → Matches i R s a) {n : Nat}
    {s a t : State} (hs : R s a) (h : execN i n a = .next t) : ∃ j u, stepN j s = .next u ∧ R u t := by
  induction n generalizing s a with
  | zero => cases h; exact ⟨0, s, rfl, hs⟩
  | succ n ih =>
    obtain ⟨j, u, hu, hstep⟩ := hR s a hs
    rcases ha : exec i a with a' | r | r
    · rw [execN_succ ha] at h
      obtain ⟨u', hu', hrel⟩ := hstep a' ha
      obtain ⟨j', v, hv, hrel'⟩ := ih hrel h
      exact ⟨j + (j' + 1), v, by rw [stepN_add hu, stepN, hu']; exact hv, hrel'⟩
    · simp [execN, ha] at h
    · simp [execN, ha] at h

/-- A step of the command from a state that a primitive cannot tell from a wider one, taken in the wider one. -/
theorem exec_of_exec_widen {i : Instr} {front : List Word} {room : Nat} {more : List Byte} {u a' : State}
    (h : u.hides front room more) (ha : exec i (u.widen front room more) = .next a') :
    ∃ u', exec i u = .next u' ∧ u'.widen front room more = a' :=
  mapNext_eq_next_iff.mp (exec_widen i h ▸ ha)

/-! ## Bytes still to be pushed (R48) -/

/-- `s` is at the word `w`, the host has bytes left to push and nothing else is scheduled, and with those bytes in DIN
`s` is `a`. -/
def Pushing (w : CmdWord) (s a : State) : Prop :=
  s.within w ∧ 1 ≤ s.cfg.dinDepth ∧ ∃ bs : List Byte, s.sched = bs.map .push ∧ s.widen [] 0 bs = a

/-- The host pushes until it has no byte left or DIN is full. -/
theorem stepN_pushes {bs : List Byte} {s : State} (h : s.sched = bs.map .push) :
    ∃ j u cs, stepN j s = .next u ∧ u.phase = s.phase ∧ u.cfg = s.cfg ∧ u.sched = cs.map Move.push
      ∧ u.widen [] 0 cs = s.widen [] 0 bs ∧ (cs = [] ∨ u.cfg.dinDepth ≤ u.din.length) := by
  induction bs generalizing s with
  | nil => exact ⟨0, s, [], rfl, rfl, rfl, h, rfl, .inl rfl⟩
  | cons b bs ih =>
    by_cases hroom : s.din.length < s.cfg.dinDepth
    · obtain ⟨j, u, cs, hu, hphase, hcfg, hsched, hwide, hend⟩ :=
        ih (s := { s with din := s.din ++ [b], sched := bs.map .push }) rfl
      refine ⟨j + 1, u, cs, ?_, hphase, hcfg, hsched, ?_, hend⟩
      · rw [stepN, step_push h hroom]; exact hu
      · rw [hwide]; simp [State.widen]
    · exact ⟨0, s, b :: bs, rfl, rfl, rfl, h, rfl, .inr (not_lt.mp hroom)⟩

theorem matches_of_pushing {i : Instr} {w : CmdWord} (hd : decode w = .ok i) {s a : State} (h : Pushing w s a) :
    Matches i (Pushing w) s a := by
  obtain ⟨hw, hdepth, bs, hs, rfl⟩ := h
  obtain ⟨j, u, cs, hu, hphase, hcfg, hsched, hwide, hend⟩ := stepN_pushes hs
  have huw : u.within w := by rwa [State.within, hphase]
  have hdin : u.din = [] → cs = [] := fun hnil => hend.resolve_right (by rw [hnil, hcfg]; exact not_le.mpr hdepth)
  have hturn : step u = controllerStep u := by
    rcases cs with _ | ⟨c, cs⟩
    · exact step_alone hsched
    · exact step_push_waits hsched (hend.resolve_left (List.cons_ne_nil c cs))
  refine ⟨j, u, hu, fun a' ha => ?_⟩
  rw [← hwide] at ha
  obtain ⟨u', hu', rfl⟩ := exec_of_exec_widen ⟨hdin, by simp⟩ ha
  obtain ⟨hsched', hcfg'⟩ := exec_sched_cfg hu'
  refine ⟨u', ?_, exec_within huw hu', by rw [hcfg', hcfg]; exact hdepth, cs, hsched'.trans hsched, rfl⟩
  rw [hturn, controllerStep_within hd huw, hu']

/-- Settles O40: with the host's bytes still to come, the machine simulates the command that has them in DIN. -/
theorem hostMayPushDuringTheCommand : Obligations.HostMayPushDuringTheCommand := by
  intro s t w k i bs n hdepth hp hd hs h
  have hstart : Pushing w s { s with din := s.din ++ bs, sched := [] } := ⟨.inl ⟨k, hp⟩, hdepth, bs, hs, rfl⟩
  obtain ⟨j, u, hu, -, -, cs, hcs, hend⟩ := stepN_simulates_execN (fun _ _ => matches_of_pushing hd) hstart h
  exact ⟨j, u, cs, hu, hcs, hend⟩

/-! ## Words already taken (R49) -/

/-- `s` is at the word `w`, the host took `taken` and has takes left up to `j` and nothing else is scheduled, and with
those words in front and `j` more places in DOUT `s` is `a`. -/
def Taking (w : CmdWord) (c : Config) (j : Nat) (s a : State) : Prop :=
  s.within w ∧ s.cfg = c ∧ ∃ (taken : List Word) (left : Nat), taken.length + left = j
    ∧ s.sched = List.replicate left .take ∧ s.widen taken j [] = a

/-- The host takes until it has no take left or DOUT is empty. -/
theorem stepN_takes {left j : Nat} {taken : List Word} {s : State} (hj : taken.length + left = j)
    (h : s.sched = List.replicate left .take) :
    ∃ p u taken' left', stepN p s = .next u ∧ u.phase = s.phase ∧ u.cfg = s.cfg ∧ taken'.length + left' = j
      ∧ u.sched = List.replicate left' .take ∧ u.widen taken' j [] = s.widen taken j []
      ∧ (left' = 0 ∨ u.dout = []) := by
  induction left generalizing s taken with
  | zero => exact ⟨0, s, taken, 0, rfl, rfl, rfl, hj, h, rfl, .inl rfl⟩
  | succ left ih =>
    rcases hv : s.dout with _ | ⟨v, vs⟩
    · exact ⟨0, s, taken, left + 1, rfl, rfl, rfl, hj, h, rfl, .inr hv⟩
    · obtain ⟨p, u, taken', left', hu, hphase, hcfg, hj', hsched, hwide, hend⟩ :=
        ih (s := { s with dout := vs, sched := List.replicate left .take }) (taken := taken ++ [v])
          (by simp; omega) rfl
      refine ⟨p + 1, u, taken', left', ?_, hphase, hcfg, hj', hsched, ?_, hend⟩
      · rw [stepN, step_take h hv]; exact hu
      · rw [hwide]; simp [State.widen, hv]

theorem matches_of_taking {i : Instr} {w : CmdWord} {c : Config} {j : Nat} (hd : decode w = .ok i)
    (hdepth : 1 ≤ c.doutDepth) {s a : State} (h : Taking w c j s a) : Matches i (Taking w c j) s a := by
  obtain ⟨hw, rfl, taken, left, hj, hs, rfl⟩ := h
  obtain ⟨p, u, taken', left', hu, hphase, hcfg, hj', hsched, hwide, hend⟩ := stepN_takes hj hs
  have huw : u.within w := by rwa [State.within, hphase]
  have hhides : u.hides taken' j [] := by
    refine ⟨fun _ => rfl, ?_⟩
    rcases hend with rfl | hempty
    · omega
    · rw [hempty, hcfg]; simp only [List.length_nil]; omega
  have hturn : step u = controllerStep u := by
    rcases left' with _ | left'
    · exact step_alone hsched
    · exact step_take_waits hsched (hend.resolve_left (Nat.succ_ne_zero left'))
  refine ⟨p, u, hu, fun a' ha => ?_⟩
  rw [← hwide] at ha
  obtain ⟨u', hu', rfl⟩ := exec_of_exec_widen hhides ha
  obtain ⟨hsched', hcfg'⟩ := exec_sched_cfg hu'
  refine ⟨u', ?_, exec_within huw hu', hcfg'.trans hcfg, taken', left', hj', hsched'.trans hsched, rfl⟩
  rw [hturn, controllerStep_within hd huw, hu']

theorem State.widen_taken (taken : List Word) (j : Nat) (s : State) :
    s.widen taken j []
      = { s with
          cfg := { s.cfg with doutDepth := s.cfg.doutDepth + j }, dout := taken ++ s.dout, sched := [] } := by
  simp [State.widen, deeper]

/-- Settles O41: with words taken, the machine simulates the command under the deeper DOUT. -/
theorem hostMayTakeDuringTheCommand : Obligations.HostMayTakeDuringTheCommand := by
  intro s t w k i j n hdepth hp hd hs h
  have hstart : Taking w s.cfg j s
      { s with cfg := { s.cfg with doutDepth := s.cfg.doutDepth + j }, sched := [] } :=
    ⟨.inl ⟨k, hp⟩, rfl, [], j, Nat.zero_add j, hs, State.widen_taken ..⟩
  obtain ⟨p, u, hu, -, hcfg, taken, left, hj, hsched, hend⟩ :=
    stepN_simulates_execN (fun _ _ => matches_of_taking hd hdepth) hstart h
  have hleft : left = j - taken.length := by omega
  rw [State.widen_taken, hcfg] at hend
  exact ⟨p, u, taken, hu, by omega, hleft ▸ hsched, hend⟩

end Sys2Proof.Machine
end

section
/-!
The encoding (30_encoding.md R102 to R109). The decoder opcode by opcode, the fields of a command's word, and the
decoder against the opcode map: on an opcode that a row of the map has, `decode` answers that row's command where the
row spells the word, and `ERR_RESERVED` where it does not. The statements follow from these.
-/

namespace Sys2Proof.Machine

open Sys2Proof Sys2Proof.Laws

/-! ## The decoder, opcode by opcode (R109) -/

@[simp] theorem ifZero_zero (n : Nat) (i : Instr) : ifZero 0#n i = .ok i := rfl

theorem ifZero_of_ne_zero {n : Nat} {z : BitVec n} (h : z ≠ 0) (i : Instr) : ifZero z i = .error .errReserved :=
  if_neg h

section
variable {w : CmdWord}

theorem decode_begin (h : fieldOpcode w = 0x01) : decode w = ifZero (fieldLen w) .begin := by
  rw [decode, h]; rfl

theorem decode_readReg (h : fieldOpcode w = 0x02) :
    decode w = ifZero (fieldValue w) (.readReg (fieldAddr w)) := by
  rw [decode, h]; rfl

theorem decode_writeReg (h : fieldOpcode w = 0x03) : decode w = .ok (.writeReg (fieldAddr w) (fieldValue w)) := by
  rw [decode, h]; rfl

theorem decode_sendBuffer (h : fieldOpcode w = 0x04) : decode w = .ok (.sendBuffer (fieldLen w)) := by
  rw [decode, h]; rfl

theorem decode_sendZeroes (h : fieldOpcode w = 0x05) : decode w = .ok (.sendZeroes (fieldLen w)) := by
  rw [decode, h]; rfl

theorem decode_startSong (h : fieldOpcode w = 0x06) : decode w = ifZero (fieldLen w) .startSong := by
  rw [decode, h]; rfl

theorem decode_playChunk (h : fieldOpcode w = 0x07) : decode w = .ok (.playChunk (fieldLen w)) := by
  rw [decode, h]; rfl

theorem decode_stopSong (h : fieldOpcode w = 0x08) : decode w = ifZero (fieldLen w) .stopSong := by
  rw [decode, h]; rfl

theorem decode_loadImage (h : fieldOpcode w = 0x09) : decode w = .ok (.loadImage (fieldLen w)) := by
  rw [decode, h]; rfl

theorem decode_setVolume (h : fieldOpcode w = 0x0A) :
    decode w = ifZero (fieldHigh16 w) (.setVolume (fieldLevel w)) := by
  rw [decode, h]; rfl

theorem decode_beginMidi (h : fieldOpcode w = 0x0B) : decode w = ifZero (fieldLen w) .beginMidi := by
  rw [decode, h]; rfl

theorem decode_sendMidi (h : fieldOpcode w = 0x0C) :
    decode w = .ok (.sendMidi (fieldAddr w) (fieldD1 w) (fieldLevel w)) := by
  rw [decode, h]; rfl

theorem decode_printDetails (h : fieldOpcode w = 0x0D) : decode w = ifZero (fieldLen w) .printDetails := by
  rw [decode, h]; rfl

theorem decode_reserved (h : reservedOpcode (fieldOpcode w) = true) : decode w = .error .errOpcode := by
  have hop : (fieldOpcode w).toNat = 0 ∨ 0x0E ≤ (fieldOpcode w).toNat := of_decide_eq_true h
  rw [decode]
  split
  case h_14 => rfl
  all_goals omega

end

/-! ## The fields of a format (R102, R103) -/

@[simp] theorem fieldOpcode_formatN (op : Byte) : fieldOpcode (formatN op) = op := fieldOpcode_append ..
@[simp] theorem fieldLen_formatN (op : Byte) : fieldLen (formatN op) = 0#24 := fieldLen_append ..

@[simp] theorem fieldOpcode_formatA (op a : Byte) : fieldOpcode (formatA op a) = op := fieldOpcode_append ..
@[simp] theorem fieldAddr_formatA (op a : Byte) : fieldAddr (formatA op a) = a := fieldAddr_append ..
@[simp] theorem fieldValue_formatA (op a : Byte) : fieldValue (formatA op a) = 0#16 := fieldValue_append ..

@[simp] theorem fieldOpcode_formatR (op a : Byte) (v : Word) : fieldOpcode (formatR op a v) = op :=
  fieldOpcode_append ..
@[simp] theorem fieldAddr_formatR (op a : Byte) (v : Word) : fieldAddr (formatR op a v) = a := fieldAddr_append ..
@[simp] theorem fieldValue_formatR (op a : Byte) (v : Word) : fieldValue (formatR op a v) = v :=
  fieldValue_append ..

@[simp] theorem fieldOpcode_formatL (op : Byte) (len : Len) : fieldOpcode (formatL op len) = op :=
  fieldOpcode_append ..
@[simp] theorem fieldLen_formatL (op : Byte) (len : Len) : fieldLen (formatL op len) = len := fieldLen_append ..

@[simp] theorem fieldOpcode_formatV (op l : Byte) : fieldOpcode (formatV op l) = op := fieldOpcode_append ..
@[simp] theorem fieldHigh16_formatV (op l : Byte) : fieldHigh16 (formatV op l) = 0#16 := fieldHigh16_append ..
@[simp] theorem fieldLevel_formatV (op l : Byte) : fieldLevel (formatV op l) = l := fieldLevel_append ..

@[simp] theorem fieldOpcode_formatM (op a b c : Byte) : fieldOpcode (formatM op a b c) = op :=
  fieldOpcode_append ..
@[simp] theorem fieldAddr_formatM (op a b c : Byte) : fieldAddr (formatM op a b c) = a := fieldAddr_append ..
@[simp] theorem fieldD1_formatM (op a b c : Byte) : fieldD1 (formatM op a b c) = b := fieldD1_append ..
@[simp] theorem fieldLevel_formatM (op a b c : Byte) : fieldLevel (formatM op a b c) = c := fieldLow_append ..

/-- Settles O1: each command's opcode selects its own arm of the decoder, and that arm reads the operands back from
the fields that the command's format put them in. -/
theorem decodeOfEncode : Obligations.DecodeOfEncode := by
  intro i
  cases i with
  | begin => simp [encode, decode_begin]
  | readReg addr => simp [encode, decode_readReg]
  | writeReg addr value => simp [encode, decode_writeReg]
  | sendBuffer len => simp [encode, decode_sendBuffer]
  | sendZeroes len => simp [encode, decode_sendZeroes]
  | startSong => simp [encode, decode_startSong]
  | playChunk len => simp [encode, decode_playChunk]
  | stopSong => simp [encode, decode_stopSong]
  | loadImage len => simp [encode, decode_loadImage]
  | setVolume level => simp [encode, decode_setVolume]
  | beginMidi => simp [encode, decode_beginMidi]
  | sendMidi mcmd d1 d2 => simp [encode, decode_sendMidi]
  | printDetails => simp [encode, decode_printDetails]

/-- Settles O5: the decoder evaluates on closed words. -/
theorem literalWordsDecode : Obligations.LiteralWordsDecode :=
  ⟨rfl, rfl, rfl, rfl, rfl, rfl, rfl, rfl, rfl, rfl⟩

/-! ## Every word in the format of its opcode (R102) -/

section
variable {w : CmdWord} {op : Byte}

theorem formatL_fields (h : fieldOpcode w = op) : formatL op (fieldLen w) = w := by
  subst h; exact word_split w

theorem formatN_fields (h : fieldOpcode w = op) (hz : fieldLen w = 0) : formatN op = w :=
  (congrArg (formatL op) hz).symm.trans (formatL_fields h)

theorem formatR_fields (h : fieldOpcode w = op) : formatR op (fieldAddr w) (fieldValue w) = w :=
  (congrArg (formatL op) (len_split w)).trans (formatL_fields h)

theorem formatA_fields (h : fieldOpcode w = op) (hz : fieldValue w = 0) : formatA op (fieldAddr w) = w :=
  (congrArg (formatR op (fieldAddr w)) hz).symm.trans (formatR_fields h)

theorem formatV_fields (h : fieldOpcode w = op) (hz : fieldHigh16 w = 0) : formatV op (fieldLevel w) = w := by
  rw [formatV, ← hz]; exact (congrArg (formatL op) (level_split w)).trans (formatL_fields h)

theorem formatM_fields (h : fieldOpcode w = op) : formatM op (fieldAddr w) (fieldD1 w) (fieldLevel w) = w :=
  (congrArg (formatR op (fieldAddr w)) (value_split w)).trans (formatR_fields h)

end

/-! ## The decoder against the opcode map (R105 to R107) -/

/-- A row of the map: its mnemonic, its opcode byte and the mask of its other 24 bits. -/
def rowOf (name : String) (op : Byte) (m : Len) : OpcodeRow := ⟨name, op ++ (0 : Len), (0xFF : Byte) ++ m⟩

theorem opcodeMap_eq_rows : opcodeMap = SpelledByOwnRow.splitMap.map fun r => rowOf r.1 r.2.1 r.2.2 :=
  SpelledByOwnRow.opcodeMap_split

theorem fieldOpcode_rowOf (name : String) (op : Byte) (m : Len) : fieldOpcode (rowOf name op m).pattern = op :=
  fieldOpcode_append ..

theorem rowOf_spells_iff {name : String} {op : Byte} {m : Len} {w : CmdWord} :
    (rowOf name op m).spells w = true ↔ fieldOpcode w = op ∧ fieldLen w &&& m = 0 := by
  have h : (rowOf name op m).spells (fieldOpcode w ++ fieldLen w) = _ := SpelledByOwnRow.spells_iff ..
  rw [word_split w] at h
  rw [h, Bool.and_eq_true, decide_eq_true_iff, decide_eq_true_iff]

theorem fieldOpcode_of_spells {r : OpcodeRow} (hr : r ∈ opcodeMap) {w : CmdWord} (h : r.spells w = true) :
    fieldOpcode w = fieldOpcode r.pattern := by
  rw [opcodeMap_eq_rows, List.mem_map] at hr
  obtain ⟨⟨name, op, m⟩, -, rfl⟩ := hr
  rw [fieldOpcode_rowOf, (rowOf_spells_iff.mp h).1]

/-- On a word with the opcode of row `r`, the decoder agrees with the row: it answers a command of the row, of which
the word is the encoding, where the row spells the word, and `ERR_RESERVED` where it does not. -/
def DecidedByRow (w : CmdWord) (r : OpcodeRow) : Prop :=
  fieldOpcode w = fieldOpcode r.pattern →
    (r.spells w = true ∧ ∃ i, decode w = .ok i ∧ encode i = w ∧ i.mnemonic = r.mnemonic)
    ∨ (r.spells w = false ∧ decode w = .error .errReserved)

section
variable {w : CmdWord} {name : String} {op : Byte} {i : Instr}

/-- A row all of whose bits past the opcode are operands. -/
theorem decidedByRow_operands (hd : fieldOpcode w = op → decode w = .ok i)
    (he : fieldOpcode w = op → encode i = w) (hn : i.mnemonic = name) : DecidedByRow w (rowOf name op 0) := by
  intro hop
  rw [fieldOpcode_rowOf] at hop
  exact .inl ⟨rowOf_spells_iff.mpr ⟨hop, BitVec.and_zero⟩, i, hd hop, he hop, hn⟩

/-- A row whose mask has the bits of the must-be-zero field `z`. -/
theorem decidedByRow_reserved {n : Nat} {z : BitVec n} {m : Len} (hm : fieldLen w &&& m = 0 ↔ z = 0)
    (hd : fieldOpcode w = op → decode w = ifZero z i) (he : fieldOpcode w = op → z = 0 → encode i = w)
    (hn : i.mnemonic = name) : DecidedByRow w (rowOf name op m) := by
  intro hop
  rw [fieldOpcode_rowOf] at hop
  by_cases hz : z = 0
  · exact .inl ⟨rowOf_spells_iff.mpr ⟨hop, hm.mpr hz⟩, i, by rw [hd hop, hz]; rfl, he hop hz, hn⟩
  · refine .inr ⟨Bool.eq_false_iff.mpr fun h => hz (hm.mp (rowOf_spells_iff.mp h).2), ?_⟩
    rw [hd hop, ifZero_of_ne_zero hz]

end

/-! ### The must-be-zero fields under their masks -/

theorem append_and_high_eq_zero_iff {m n : Nat} (x : BitVec m) (y : BitVec n) :
    (x ++ y) &&& (BitVec.allOnes m ++ 0#n) = 0 ↔ x = 0 := by
  rw [BitVec.and_append, BitVec.and_allOnes, BitVec.and_zero]
  constructor
  · intro h
    simpa [BitVec.extractLsb'_append_eq_left] using congrArg (BitVec.extractLsb' n m) h
  · rintro rfl; exact BitVec.zero_append_zero

theorem append_and_low_eq_zero_iff {m n : Nat} (x : BitVec m) (y : BitVec n) :
    (x ++ y) &&& (0#m ++ BitVec.allOnes n) = 0 ↔ y = 0 := by
  rw [BitVec.and_append, BitVec.and_allOnes, BitVec.and_zero]
  constructor
  · intro h
    simpa [BitVec.extractLsb'_append_eq_right] using congrArg (BitVec.extractLsb' 0 n) h
  · rintro rfl; exact BitVec.zero_append_zero

theorem fieldLen_masked_iff (w : CmdWord) : fieldLen w &&& 0xFFFFFF = 0 ↔ fieldLen w = 0 := by
  rw [show (0xFFFFFF : Len) = BitVec.allOnes 24 by decide, BitVec.and_allOnes]

theorem fieldValue_masked_iff (w : CmdWord) : fieldLen w &&& 0x00FFFF = 0 ↔ fieldValue w = 0 := by
  rw [← len_split w]; exact append_and_low_eq_zero_iff ..

theorem fieldHigh16_masked_iff (w : CmdWord) : fieldLen w &&& 0xFFFF00 = 0 ↔ fieldHigh16 w = 0 := by
  rw [← level_split w]; exact append_and_high_eq_zero_iff ..

/-! ### Every row -/

theorem decidedByRow {r : OpcodeRow} (hr : r ∈ opcodeMap) (w : CmdWord) : DecidedByRow w r := by
  rw [opcodeMap_eq_rows] at hr
  simp only [SpelledByOwnRow.splitMap, List.map_cons, List.map_nil, List.mem_cons, List.not_mem_nil, or_false] at hr
  rcases hr with rfl | rfl | rfl | rfl | rfl | rfl | rfl | rfl | rfl | rfl | rfl | rfl | rfl
  · exact decidedByRow_reserved (fieldLen_masked_iff w) decode_begin formatN_fields rfl
  · exact decidedByRow_reserved (fieldValue_masked_iff w) decode_readReg formatA_fields rfl
  · exact decidedByRow_operands decode_writeReg formatR_fields rfl
  · exact decidedByRow_operands decode_sendBuffer formatL_fields rfl
  · exact decidedByRow_operands decode_sendZeroes formatL_fields rfl
  · exact decidedByRow_reserved (fieldLen_masked_iff w) decode_startSong formatN_fields rfl
  · exact decidedByRow_operands decode_playChunk formatL_fields rfl
  · exact decidedByRow_reserved (fieldLen_masked_iff w) decode_stopSong formatN_fields rfl
  · exact decidedByRow_operands decode_loadImage formatL_fields rfl
  · exact decidedByRow_reserved (fieldHigh16_masked_iff w) decode_setVolume formatV_fields rfl
  · exact decidedByRow_reserved (fieldLen_masked_iff w) decode_beginMidi formatN_fields rfl
  · exact decidedByRow_operands decode_sendMidi formatM_fields rfl
  · exact decidedByRow_reserved (fieldLen_masked_iff w) decode_printDetails formatN_fields rfl

/-- The opcodes that are not reserved are the rows' (R106). -/
theorem exists_row_of_opcode {op : Byte} (h : reservedOpcode op = false) :
    ∃ r ∈ opcodeMap, op = fieldOpcode r.pattern := by
  revert op; decide

theorem reservedOpcode_of_row {r : OpcodeRow} (hr : r ∈ opcodeMap) :
    reservedOpcode (fieldOpcode r.pattern) = false := by
  revert r; decide

theorem row_eq_of_mnemonic_eq {r r' : OpcodeRow} (hr : r ∈ opcodeMap) (hr' : r' ∈ opcodeMap)
    (h : r.mnemonic = r'.mnemonic) : r = r' := by
  have distinct : (opcodeMap.map OpcodeRow.mnemonic).Nodup := by decide
  exact List.inj_on_of_nodup_map distinct hr hr' h

/-- All that the decoder can answer: a reserved opcode, a command that a row spells, or reserved bits. -/
theorem decode_cases (w : CmdWord) :
    (reservedOpcode (fieldOpcode w) = true ∧ decode w = .error .errOpcode)
    ∨ (∃ r ∈ opcodeMap, r.spells w = true ∧ ∃ i, decode w = .ok i ∧ encode i = w ∧ i.mnemonic = r.mnemonic)
    ∨ decode w = .error .errReserved := by
  rcases ho : reservedOpcode (fieldOpcode w) with _ | _
  · obtain ⟨r, hr, hop⟩ := exists_row_of_opcode ho
    rcases decidedByRow hr w hop with h | ⟨-, hd⟩
    · exact .inr (.inl ⟨r, hr, h⟩)
    · exact .inr (.inr hd)
  · exact .inl ⟨rfl, decode_reserved ho⟩

theorem decode_of_spells {r : OpcodeRow} (hr : r ∈ opcodeMap) {w : CmdWord} (h : r.spells w = true) :
    ∃ i, decode w = .ok i ∧ i.mnemonic = r.mnemonic := by
  rcases decidedByRow hr w (fieldOpcode_of_spells hr h) with ⟨-, i, hd, -, hn⟩ | ⟨hs, -⟩
  · exact ⟨i, hd, hn⟩
  · rw [h] at hs; cases hs

/-- A word that decodes is the encoding of its command, and the command's row spells it. -/
theorem spelled_of_decode {w : CmdWord} {i : Instr} (h : decode w = .ok i) :
    encode i = w ∧ ∃ r ∈ opcodeMap, r.spells w = true ∧ i.mnemonic = r.mnemonic := by
  rcases decode_cases w with ⟨-, hd⟩ | ⟨r, hr, hs, j, hd, he, hn⟩ | hd <;> rw [h] at hd <;> cases hd
  exact ⟨he, r, hr, hs, hn⟩

/-- Settles O2: a command is decoded only from a word that its own row spells, and rows have mnemonics of their
own. -/
theorem wordSpellsItsRow : Obligations.WordSpellsItsRow := by
  refine ⟨fun r hr w => ⟨decode_of_spells hr, ?_⟩, fun w hno => ?_⟩
  · rintro ⟨i, hd, hn⟩
    obtain ⟨-, r', hr', hs, hn'⟩ := spelled_of_decode hd
    rwa [row_eq_of_mnemonic_eq hr hr' (hn.symm.trans hn')]
  · rcases hd : decode w with c | i
    · exact ⟨c, rfl⟩
    · obtain ⟨-, r, hr, hs, -⟩ := spelled_of_decode hd
      rw [hno r hr] at hs; cases hs

/-! ## The rejection of a word (R106, R107) -/

/-- A word that decodes to no command is rejected in one step, with its `End` as the only event (60_exceptions.md
R304). -/
theorem step_rejects_word {s : State} {w : CmdWord} {c : ResultCode} (hs : s.sched = [])
    (hp : s.phase = .exec w .start) (hd : decode w = .error c) :
    step s = .next { s with phase := .ready, err := c, trace := s.trace ++ [.done c] } := by
  rw [step_alone hs, controllerStep_illegal hp hd]; rfl

/-- Settles O3: no row has a reserved opcode, and the decoder answers `ERR_OPCODE` on it. -/
theorem reservedOpcodeRejected : Obligations.ReservedOpcodeRejected := by
  refine ⟨rfl, fun s w hs hp ho => ⟨fun r hr => ?_, step_rejects_word hs hp (decode_reserved ho)⟩⟩
  refine Bool.eq_false_iff.mpr fun h => ?_
  rw [fieldOpcode_of_spells hr h, reservedOpcode_of_row hr] at ho
  cases ho

/-- Settles O4: with a command's opcode, the decoder answers the command of a row that spells the word, or
`ERR_RESERVED`. -/
theorem reservedBitsRejected : Obligations.ReservedBitsRejected := by
  refine ⟨fun s w hs hp ho hno => step_rejects_word hs hp ?_, fun w i h => (spelled_of_decode h).1⟩
  rcases decode_cases w with ⟨ho', -⟩ | ⟨r, hr, h, -⟩ | hd
  · rw [ho] at ho'; cases ho'
  · rw [hno r hr] at h; cases h
  · exact hd

/-! ## Commands that are one another's equal (R111) -/

/-- In session `Streaming` PLAY_CHUNK's acceptance check asks no more than SEND_BUFFER's (60_exceptions.md R302). -/
theorem guardOf_playChunk_eq_sendBuffer {s : State} (h : s.session = .streaming) (len : Len) :
    guardOf (.playChunk len) s = guardOf (.sendBuffer len) s := by
  simp [guardOf, acceptance, SessionNeed.met, h]

/-- Settles O32: the two commands have the same acceptance check, payload and micro-program; past the check a step
does not depend on the command. -/
theorem equivalentCommands : Obligations.EquivalentCommands := by
  refine ⟨fun s level => ?_, fun s w len _ h => ?_, fun s w loc ops len hp => ?_⟩
  · rw [exec_eq_runCommand, exec_eq_runCommand]; rfl
  · rw [exec_eq_runCommand, exec_eq_runCommand, guardOf_playChunk_eq_sendBuffer h]; rfl
  · rw [exec_run _ hp, exec_run _ hp]

end Sys2Proof.Machine
end

section
/-!
The lines and the shared profile (40_line_control.md), step by step: the wait for the ready line, that no step of a
disciplined state is without a next state, what an exchange finds, and the life of a held profile.
-/

namespace Sys2Proof.Machine

open Sys2Proof

/-! ## AwaitReady (R147) -/

/-- A busy sample leaves the command where it is. -/
theorem exec_await_busy (i : Instr) {s : State} {w : CmdWord} {loc : Locals} {rest : List Op} {d : List Level}
    (hp : s.phase = .exec w (.run loc (.awaitReady :: rest))) (hq : s.dreqIn = (!s.cfg.readyLevel) :: d) :
    exec i s = .next { s with dreqIn := d, trace := s.trace ++ [.ready false] } := by
  have hbusy : s.sampleReady = false := by simp [sampleReady_of hq]
  rw [exec_run i hp, microStep_await_busy w loc rest s hbusy, afterSample_of hq]
  simp

/-- A ready sample ends the wait, and the silent items after it run. -/
theorem exec_await_ready (i : Instr) {s : State} {w : CmdWord} {loc : Locals} {rest : List Op} {d : List Level}
    (hp : s.phase = .exec w (.run loc (.awaitReady :: rest))) (hq : s.dreqIn = s.cfg.readyLevel :: d) :
    exec i s = .next (settle w rest loc { s with dreqIn := d, trace := s.trace ++ [.ready true] }) := by
  have hready : s.sampleReady = true := by simp [sampleReady_of hq]
  rw [exec_run i hp, microStep_await_ready w loc rest s hready, afterSample_of hq]
  simp

theorem execN_await_busy (i : Instr) {s : State} {w : CmdWord} {loc : Locals} {rest : List Op} {d : List Level}
    (n : Nat) (hp : s.phase = .exec w (.run loc (.awaitReady :: rest)))
    (hq : s.dreqIn = List.replicate n (!s.cfg.readyLevel) ++ d) :
    execN i n s = .next { s with dreqIn := d, trace := s.trace ++ List.replicate n (.ready false) } := by
  induction n generalizing s with
  | zero => subst hq; simp [execN]
  | succ n ih =>
    have hq' : s.dreqIn = (!s.cfg.readyLevel) :: (List.replicate n (!s.cfg.readyLevel) ++ d) := hq
    rw [execN_succ (exec_await_busy i hp hq')]
    refine (ih ?_ ?_).trans ?_
    · exact hp
    · rfl
    · simp [List.replicate_succ]

/-- Settles O37: by induction on the number of busy samples, each of which leaves the poll in front. -/
theorem awaitReadyPolls : Obligations.AwaitReadyPolls :=
  fun i _ _ _ _ _ hp => ⟨fun n => execN_await_busy i n hp, exec_await_ready i hp⟩

/-! ## What the check of an item asks of the state (R155) -/

section
variable {s : State} {r : Bool} {b' : Bus}

theorem busMode_idle_of_check_enter {l : Line} (hc : Op.check (s.bus r) (.enter l) = some b') :
    s.busMode = .idle := by
  obtain ⟨h, -⟩ := Option.ite_none_right_eq_some.mp hc
  obtain ⟨hidle, -⟩ := Bool.and_eq_true_iff.mp h
  exact s.busMode_idle_iff.mpr (Bool.and_eq_true_iff.mp hidle)

theorem tpSave_none_of_check_tpCapture (hc : Op.check (s.bus r) .tpCapture = some b') : s.tpSave = none := by
  obtain ⟨h, -⟩ := Option.ite_none_right_eq_some.mp hc
  obtain ⟨-, -, hnone⟩ := s.busFree_iff.mp ((s.free_bus_iff r).mp h)
  exact hnone

theorem tpSave_some_of_check_tpRestore (hc : Op.check (s.bus r) .tpRestore = some b') :
    ∃ p, s.tpSave = some p := by
  obtain ⟨h, -⟩ := Option.ite_none_right_eq_some.mp hc
  obtain ⟨-, hheld⟩ := Bool.and_eq_true_iff.mp h
  exact Option.isSome_iff_exists.mp hheld

/-- An exchange asks for a transaction in `Control` or `Data` and a ready sample. -/
theorem bus_of_check_xfer {o : Byte} {d : ByteDst} (hc : Op.check (s.bus r) (.xfer o d) = some b') :
    s.tpHeld = true ∧ s.busMode ≠ .idle ∧ r = true := by
  obtain ⟨h, -⟩ := Option.ite_none_right_eq_some.mp hc
  obtain ⟨hmode, hr⟩ := Bool.and_eq_true_iff.mp h
  have hbus : (s.bus r).held = true ∧ (s.bus r).idle = false := by
    rcases Bool.or_eq_true_iff.mp hmode with hm | hm <;>
      simp_all [Bus.inData, Bus.inControl, Bus.idle]
  obtain ⟨hheld, hidle⟩ := hbus
  refine ⟨hheld, fun he => ?_, hr⟩
  rw [show (s.bus r).idle = true from Bool.and_eq_true_iff.mpr (s.busMode_idle_iff.mp he)] at hidle
  cases hidle

end

/-! ## A disciplined state has a next state (R156) -/

/-- Three items alone can fault, and where the items to come keep the discipline none of them does. -/
theorem microStep_answers (w : CmdWord) (loc : Locals) {ops : List Op} {s : State} (hops : s.keepsBus ops) :
    ∃ t, microStep w loc ops s = .next t := by
  obtain ⟨r, -, hb⟩ := hops
  rcases ops with _ | ⟨op, rest⟩
  · exact ⟨_, rfl⟩
  obtain ⟨b', hc, -⟩ := (bracketed_cons_iff ..).mp hb
  cases op
  case enter l => exact ⟨_, microStep_enter w loc rest s l (busMode_idle_of_check_enter hc)⟩
  case tpCapture => exact ⟨_, microStep_tpCapture w loc rest s (tpSave_none_of_check_tpCapture hc)⟩
  case tpRestore =>
    obtain ⟨p, hp⟩ := tpSave_some_of_check_tpRestore hc
    exact ⟨_, microStep_tpRestore w loc rest s hp⟩
  case awaitReady =>
    cases hr : s.sampleReady with
    | true => exact ⟨_, microStep_await_ready w loc rest s hr⟩
    | false => exact ⟨_, microStep_await_busy w loc rest s hr⟩
  case dinPop d =>
    cases hd : s.din with
    | nil => exact ⟨_, microStep_dinPop_hold w loc rest s d hd⟩
    | cons b bs => exact ⟨_, microStep_dinPop w loc rest s d hd⟩
  case dinSend =>
    cases hd : s.din with
    | nil => exact ⟨_, microStep_dinSend_hold w loc rest s hd⟩
    | cons b bs => exact ⟨_, microStep_dinSend w loc rest s hd⟩
  case doutPush =>
    rcases Nat.lt_or_ge s.dout.length s.cfg.doutDepth with hroom | hfull
    · exact ⟨_, microStep_doutPush w loc rest s hroom⟩
    · exact ⟨_, microStep_doutPush_hold w loc rest s hfull⟩
  all_goals exact ⟨_, rfl⟩

theorem controllerStep_answers {s : State} (hs : Disciplined s) : ∃ t, controllerStep s = .next t := by
  rcases controllerStep_cases s with ⟨-, e⟩ | ⟨-, e⟩ | ⟨w, k, c, -, -, e⟩ | ⟨-, -, i, -, -, e⟩
  iterate 3 · exact ⟨_, e⟩
  rw [e]
  rcases exec_cases i s with ⟨-, e⟩ | ⟨-, e⟩ | ⟨w, -, ⟨-, e⟩ | ⟨c, -, e⟩⟩ | ⟨w, loc, ops, hp, e⟩
  iterate 4 · exact ⟨_, e⟩
  obtain ⟨-, -, -, hops⟩ := (disciplined_of_phase_run hp).mp hs
  rw [e]
  exact microStep_answers w loc hops

/-- Settles O45: the check of the items to come excludes the three internal faults, and no other agent's move
faults. -/
theorem stepAlwaysAnswers : Obligations.StepAlwaysAnswers := by
  intro s hs
  rcases step_cases s with e | ⟨ms, -, e⟩ | ⟨m, ms, -, -, -, e⟩
  · rw [e]; exact controllerStep_answers hs
  · rw [e]; exact controllerStep_answers (s := s.withSched ms) hs
  · exact ⟨_, e⟩

/-! ## What a controller's step comes to -/

/-- The controller stays as it is, runs silent items alone (at an acceptance check or a rejection), or runs one
primitive and the silent items after it. -/
theorem controllerStep_next {s t : State} (h : controllerStep s = .next t) :
    t = s ∨ (∃ w ops loc, t = settle w ops loc s)
    ∨ ∃ w loc ops, s.phase = .exec w (.run loc ops) ∧ microStep w loc ops s = .next t := by
  rcases controllerStep_cases s with ⟨-, e⟩ | ⟨-, e⟩ | ⟨w, k, c, -, -, e⟩ | ⟨-, -, i, -, -, e⟩ <;> rw [e] at h
  · cases h; exact .inl rfl
  · cases h; exact .inl rfl
  · cases h; exact .inr (.inl ⟨w, [.finish c], .blank, rfl⟩)
  rcases exec_cases i s with ⟨-, e⟩ | ⟨-, e⟩ | ⟨w, -, ⟨-, e⟩ | ⟨c, -, e⟩⟩ | ⟨w, loc, ops, hp, e⟩ <;> rw [e] at h
  · cases h; exact .inl rfl
  · cases h; exact .inl rfl
  · cases h; exact .inr (.inl ⟨w, _, _, rfl⟩)
  · cases h; exact .inr (.inl ⟨w, _, _, rfl⟩)
  · exact .inr (.inr ⟨w, loc, ops, hp, h⟩)

/-! ## The step that exchanges a byte (R143) -/

/-- The first event of a primitive's step is the primitive's own. -/
theorem first_event_of_settle {w : CmdWord} {ops : List Op} {loc : Locals} {x : State} {tr more : List Event}
    {e e' : Event} (hx : x.trace = tr ++ [e]) (h : (settle w ops loc x).trace = tr ++ e' :: more) : e' = e := by
  rcases settle_trace w ops loc x with ht | ⟨c, ht⟩ <;> rw [ht, hx] at h <;> simp_all

/-- Silent items record no exchange. -/
theorem settle_trace_ne_xfer {w : CmdWord} {ops : List Op} {loc : Locals} {s : State} {o b : Byte}
    {more : List Event} : (settle w ops loc s).trace ≠ s.trace ++ .xfer o b :: more := by
  rcases settle_trace w ops loc s with ht | ⟨c, ht⟩ <;> simp [ht]

/-- A move of another agent records no exchange. -/
theorem Move.apply_trace_ne_xfer (m : Move) (s : State) (o b : Byte) (more : List Event) :
    (m.apply s).trace ≠ s.trace ++ .xfer o b :: more := by
  cases m <;> simp [Move.apply, resetEvents]

/-- A primitive whose step first records an exchange is an `Xfer`. -/
theorem xfer_of_microStep {w : CmdWord} {loc : Locals} {ops : List Op} {s t : State} {o b : Byte}
    {more : List Event} (h : microStep w loc ops s = .next t) (ht : t.trace = s.trace ++ .xfer o b :: more) :
    ∃ o' d rest, ops = .xfer o' d :: rest := by
  rcases microStep_next h with rfl | ⟨rest, -, -, rfl⟩ | ⟨-, rfl⟩ | ⟨op, rest, -, -, rfl⟩ | ⟨l, v, rest, -, rfl⟩
    | ⟨l, rest, -, -, rfl⟩ | ⟨rest, -, -, rfl⟩ | ⟨o', d, rest, rfl, -⟩ | ⟨rest, -, -, rfl⟩ | ⟨rest, -, rfl⟩
    | ⟨p, rest, -, -, rfl⟩ | ⟨d, b, bs, rest, -, -, rfl⟩ | ⟨b, bs, rest, -, -, rfl⟩ | ⟨rest, -, -, rfl⟩
  · simp at ht
  · simp at ht
  · simp at ht
  · exact absurd ht settle_trace_ne_xfer
  · cases first_event_of_settle (State.setLine_trace ..) ht
  · cases first_event_of_settle (State.setLine_trace ..) ht
  · cases first_event_of_settle (State.afterSample_trace ..) ht
  · exact ⟨o', d, rest, rfl⟩
  · cases first_event_of_settle (State.tpCapture_trace ..) ht
  · cases first_event_of_settle (State.tpWrite_trace ..) ht
  · cases first_event_of_settle (State.tpRestore_trace ..) ht
  · cases first_event_of_settle (State.dinPop_trace ..) ht
  · cases first_event_of_settle (State.dinPop_trace ..) ht
  · cases first_event_of_settle (State.doutPush_trace ..) ht

/-- A controller's step that first records an exchange runs an `Xfer` of a micro-program. -/
theorem xfer_of_controllerStep {s t : State} {o b : Byte} {more : List Event} (h : controllerStep s = .next t)
    (ht : t.trace = s.trace ++ .xfer o b :: more) :
    ∃ w loc o' d rest, s.phase = .exec w (.run loc (.xfer o' d :: rest)) := by
  rcases controllerStep_next h with rfl | ⟨w, ops, loc, rfl⟩ | ⟨w, loc, ops, hp, hm⟩
  · simp at ht
  · exact absurd ht settle_trace_ne_xfer
  · obtain ⟨o', d, rest, rfl⟩ := xfer_of_microStep hm ht
    exact ⟨w, loc, o', d, rest, hp⟩

/-- Where a disciplined command is about to exchange a byte, a profile is held, a select is low and the last sample
was ready. -/
theorem bus_of_disciplined_xfer {s : State} {w : CmdWord} {loc : Locals} {o : Byte} {d : ByteDst}
    {rest : List Op} (hs : Disciplined s) (hp : s.phase = .exec w (.run loc (.xfer o d :: rest))) :
    s.tpHeld = true ∧ s.busMode ≠ .idle ∧ lastReady s.trace = some true := by
  obtain ⟨-, -, -, r, hready, hb⟩ := (disciplined_of_phase_run hp).mp hs
  obtain ⟨b', hc, -⟩ := (bracketed_cons_iff ..).mp hb
  obtain ⟨hheld, hmode, hr⟩ := bus_of_check_xfer hc
  exact ⟨hheld, hmode, hready hr⟩

/-- Settles O46: only an `Xfer` of a micro-program records an exchange, and its check asks for all three. -/
theorem noExchangeWhileBusy : Obligations.NoExchangeWhileBusy := by
  intro s t o b more hs h ht
  obtain ⟨ms, h | ⟨m, -, rfl⟩⟩ := step_next h
  · obtain ⟨w, loc, o', d, rest, hp⟩ := xfer_of_controllerStep (s := s.withSched ms) h ht
    exact bus_of_disciplined_xfer hs hp
  · exact absurd ht (m.apply_trace_ne_xfer (s.withSched ms) o b more)

/-! ## The held profile (R153) -/

/-- The profile `p` is held still, or was put back as the shared one. -/
def State.holdsOrRestored (p : Profile) (s : State) : Prop :=
  s.tpSave = some p ∨ (s.tpSave = none ∧ s.tp = p)

theorem holdsOrRestored_settle {w : CmdWord} {ops : List Op} {loc : Locals} {s : State} {p : Profile}
    (h : s.holdsOrRestored p) : (settle w ops loc s).holdsOrRestored p := by
  simpa [State.holdsOrRestored] using h

/-- `TxnEnd` alone lets a held profile go, and `TxnBegin` asks that none is held. -/
theorem holdsOrRestored_microStep {w : CmdWord} {loc : Locals} {ops : List Op} {s t : State} {p : Profile}
    (hs : s.tpSave = some p) (h : microStep w loc ops s = .next t) : t.holdsOrRestored p := by
  rcases microStep_next h with rfl | ⟨rest, -, -, rfl⟩ | ⟨-, rfl⟩ | ⟨op, rest, -, -, rfl⟩ | ⟨l, v, rest, -, rfl⟩
    | ⟨l, rest, -, -, rfl⟩ | ⟨rest, -, -, rfl⟩ | ⟨o, d, rest, -, rfl⟩ | ⟨rest, -, hnone, -⟩ | ⟨rest, -, rfl⟩
    | ⟨q, rest, -, hq, rfl⟩ | ⟨d, b, bs, rest, -, -, rfl⟩ | ⟨b, bs, rest, -, -, rfl⟩ | ⟨rest, -, -, rfl⟩
  iterate 8 · exact .inl (by simpa using hs)
  · cases hs.symm.trans hnone
  · exact .inl (by simpa using hs)
  · cases hs.symm.trans hq
    exact holdsOrRestored_settle (.inr ⟨rfl, rfl⟩)
  iterate 3 · exact .inl (by simpa using hs)

theorem holdsOrRestored_controllerStep {s t : State} {p : Profile} (hs : s.tpSave = some p)
    (h : controllerStep s = .next t) : t.holdsOrRestored p := by
  rcases controllerStep_next h with rfl | ⟨w, ops, loc, rfl⟩ | ⟨w, loc, ops, -, hm⟩
  · exact .inl hs
  · exact holdsOrRestored_settle (.inl hs)
  · exact holdsOrRestored_microStep hs hm

/-- Of the other agents' moves only a reset touches the held profile. -/
theorem Move.apply_tpSave {m : Move} (hreset : m ≠ .reset) (s : State) : (m.apply s).tpSave = s.tpSave := by
  cases m with
  | reset => exact absurd rfl hreset
  | controller | offer _ | push _ | take | coUser _ => rfl

/-- Settles O54: the controller's `TxnEnd` puts back what is held, and no other agent's move touches it. -/
theorem heldProfileIsRestored : Obligations.HeldProfileIsRestored := by
  intro s t p hs hr h
  rcases step_cases s with e | ⟨ms, -, e⟩ | ⟨m, ms, hm, -, -, e⟩ <;> rw [e] at h
  · exact holdsOrRestored_controllerStep hs h
  · exact holdsOrRestored_controllerStep (s := s.withSched ms) hs h
  · cases h
    have hreset : m ≠ .reset := by
      rintro rfl
      exact hr (by rw [hm]; rfl)
    exact .inl ((Move.apply_tpSave hreset _).trans hs)

end Sys2Proof.Machine
end

section
/-!
The register access commands (41_register_access.md R170 to R176): an accepted command completes where the run of its
micro-program does, and each micro-program is one of the shared runs of register transactions. The round trip of R176
then puts two of them together on the machine's own steps, the second offer waiting on the first command.
-/

namespace Sys2Proof.Machine

open Sys2Proof

/-! ## From the acceptance check to the end of a command -/

/-- A command that passes its acceptance check goes where the run of its micro-program goes (60_exceptions.md R302). -/
theorem completes_of_reach {i : Instr} {s t : State} {w : CmdWord} (hp : s.phase = .exec w .start)
    (hg : guardOf i s = none) (h : Reach i (settle w (programOf s.cfg i) .blank s) t) :
    ∃ u, exec i s = .next u ∧ ∃ n, execN i n u = .next t := ⟨_, exec_accepts hp hg, h⟩

theorem settle_finish_adv (w : CmdWord) (loc : Locals) (s : State) (d : List Level) (m : List Byte)
    (evs : List Event) : settle w [.finish .ok] loc (s.adv d m evs) = s.completed d m evs := rfl

theorem settle_finish_adv_dout (w : CmdWord) (loc : Locals) (s : State) (d : List Level) (m : List Byte)
    (evs : List Event) (out : List Word) :
    settle w [.finish .ok] loc { s.adv d m evs with dout := out } = { s.completed d m evs with dout := out } := rfl

/-- The queued answers, the first transaction's before those of the others. -/
theorem answersRegs_cons_iff (s : State) (r : Reply) (rs : List Reply) (d : List Level) (m : List Byte) :
    s.answersRegs (r :: rs) d m
      ↔ s.dreqIn = samples s.cfg.readyLevel r.busy ++ (replyLevels s.cfg.readyLevel rs ++ d)
        ∧ s.misoIn = [r.b0, r.b1, r.b2, r.b3] ++ (replyBytes rs ++ m) := by
  rw [State.answersRegs, replyLevels_cons, replyBytes_cons, List.append_assoc, List.append_assoc]

/-! ## The commands -/

/-- A command whose micro-program is one register write completes, and nothing but `ERR` and the trace differs. -/
theorem regWrite_completes {i : Instr} {s : State} {a : Byte} {v : Word} {r : Reply} {d : List Level} {m : List Byte}
    (hprog : programOf s.cfg i = regWrite s.cfg a v ++ [.finish .ok]) (hg : guardOf i s = none) (hs : s.atStart)
    (ha : s.answersRegs [r] d m) :
    ∃ u, exec i s = .next u ∧ ∃ n, execN i n u = .next
      (s.completed d m (writeEvents s.cfg s.tp s.drvTp a v r)) := by
  have ⟨⟨w, hp⟩, _⟩ := hs
  obtain ⟨hdreq, hmiso⟩ := (answersRegs_cons_iff ..).mp ha
  refine completes_of_reach hp hg ?_
  rw [hprog, ← settle_finish_adv w .blank]
  exact regWrite_run i w .blank _ a v s r d m (State.outside_of_start hs) hdreq hmiso

/-- Settles O17: the micro-program is one register write. -/
theorem writeRegCompletes : Obligations.WriteRegCompletes := by
  intro s addr value r d m hs hi ha
  exact regWrite_completes rfl (acceptance_any hi) hs ha

theorem byteHi_joinBytes (hi lo : Byte) : byteHi (joinBytes hi lo) = hi := BitVec.extractLsb'_append_eq_left

theorem byteLo_joinBytes (hi lo : Byte) : byteLo (joinBytes hi lo) = lo := BitVec.extractLsb'_append_eq_right

/-- The frame of a volume write sends `level` twice (30_encoding.md R121). -/
theorem writeEvents_volumeWord (c : Config) (tp drv : Profile) (level : Byte) (r : Reply) :
    writeEvents c tp drv c.regVol (volumeWord level) r = regTxnEvents tp drv c.sciOpWrite c.regVol level level r := by
  rw [writeEvents, volumeWord, byteHi_joinBytes, byteLo_joinBytes]

/-- Settles O18: the micro-program is one register write, of a word with the same byte twice. -/
theorem setVolumeCompletes : Obligations.SetVolumeCompletes := by
  intro s level r d m hs hi ha
  have h := regWrite_completes (i := .setVolume level) rfl (acceptance_any hi) hs ha
  rwa [writeEvents_volumeWord] at h

/-- READ_REG completes with the read's events, then the push. -/
theorem readReg_completes {s : State} {a : Byte} {r : Reply} {d : List Level} {m : List Byte} (hs : s.atStart)
    (hi : s.init = true) (ha : s.answersRegs [r] d m) (hroom : s.dout.length < s.cfg.doutDepth) :
    ∃ u, exec (.readReg a) s = .next u ∧ ∃ n, execN (.readReg a) n u = .next
      { s.completed d m (readEvents s.cfg s.tp s.drvTp a r ++ [.dout (joinBytes r.b2 r.b3)]) with
        dout := s.dout ++ [joinBytes r.b2 r.b3] } := by
  have ⟨⟨w, hp⟩, _⟩ := hs
  obtain ⟨hdreq, hmiso⟩ := (answersRegs_cons_iff ..).mp ha
  refine completes_of_reach hp (acceptance_any hi) ?_
  rw [← settle_finish_adv_dout w { Locals.blank with hi := r.b2, lo := r.b3 }]
  exact readPush_run _ w .blank _ a s r d m (State.outside_of_start hs) hdreq hmiso hroom

/-- Settles O16: the micro-program is one register read and the push of its value. -/
theorem readRegCompletes : Obligations.ReadRegCompletes := by
  intro s addr r d m hs hi ha hroom
  simpa [readEvents, regTxnEvents] using readReg_completes (a := addr) hs hi ha hroom

/-- Settles O19: the micro-program is the loop of reads and pushes from register 0 on. -/
theorem printDetailsCompletes : Obligations.PrintDetailsCompletes := by
  intro s rs d m hs hi hlen ha hroom
  have ⟨⟨w, hp⟩, _⟩ := hs
  rw [← hlen] at hroom
  obtain ⟨loc, hrun⟩ :=
    readRegs_run .printDetails w .blank [.finish .ok] 0 s rs d m (State.outside_of_start hs) ha hroom
  refine completes_of_reach hp (acceptance_any hi) ?_
  rwa [settle_finish_adv_dout, hlen] at hrun

/-! ## Commands offered one after the other (10_state.md R47) -/

/-- `s` with the word `w` just latched and the moves `ms` to come. -/
def State.latched (w : CmdWord) (ms : List Move) (s : State) : State :=
  { s with phase := .exec w .start, trace := s.trace ++ [.cmd w], sched := ms }

/-- Where the bus is free, a latched command starts with it free. -/
theorem State.atStart_latched {s : State} (h : s.busFree) (w : CmdWord) (ms : List Move) :
    (s.latched w ms).atStart := by
  obtain ⟨hidle, hheld⟩ := h
  exact ⟨⟨w, rfl⟩, hidle, s.tpHeld_eq_false_iff.mp hheld⟩

/-- A latched and completed command leaves the bus as it was (10_state.md R43). -/
theorem State.busFree_completed_latched {s : State} (h : s.busFree) (w : CmdWord) (ms : List Move) (d : List Level)
    (m : List Byte) (evs : List Event) : ((s.latched w ms).completed d m evs).busFree := h

theorem step_offer {s : State} {w : CmdWord} {rest : List Move} (hp : s.phase = .ready)
    (hs : s.sched = .offer w :: rest) : step s = .next (s.latched w rest) := by
  obtain ⟨-, htransfer, -⟩ := commandTransfer s w rest hs
  exact htransfer hp

/-- Inside a command an offer waits, and the controller steps. -/
theorem step_offers_wait {s : State} {ws : List CmdWord} (hs : s.sched = ws.map .offer) (hp : s.phase ≠ .ready) :
    step s = controllerStep s := by
  cases ws with
  | nil => exact step_alone hs
  | cons w ws =>
    obtain ⟨-, -, hwait⟩ := commandTransfer s w _ hs
    exact (hwait hp).1

/-- A run of a command is a run of the machine while offers wait; it stops where the command has ended. -/
theorem stepN_of_execN {i : Instr} {w : CmdWord} (hd : decode w = .ok i) {ws : List CmdWord} {n : Nat} {s t : State}
    (hw : s.within w) (hs : s.sched = ws.map .offer) (h : execN i n s = .next t) : ∃ k, stepN k s = .next t := by
  induction n generalizing s with
  | zero => exact ⟨0, h⟩
  | succ n ih =>
    rcases hx : exec i s with u | f | f
    · rw [execN_succ hx] at h
      by_cases hp : s.phase = .ready
      · cases (exec_ready i hp).symm.trans hx
        exact ih hw hs h
      · obtain ⟨k, hk⟩ := ih (exec_within hw hx) ((exec_sched_cfg hx).1.trans hs) h
        have hstep : step s = .next u := by rw [step_offers_wait hs hp, controllerStep_within hd hw, hx]
        exact ⟨k + 1, by rw [stepN, hstep]; exact hk⟩
    · simp [execN, hx] at h
    · simp [execN, hx] at h

/-- A command offered in READY: the machine latches its word and gets where the command does. -/
theorem stepN_offered {i : Instr} {ws : List CmdWord} {s t : State} (hp : s.phase = .ready)
    (hs : s.sched = .offer (encode i) :: ws.map .offer)
    (h : ∃ u, exec i (s.latched (encode i) (ws.map .offer)) = .next u ∧ ∃ n, execN i n u = .next t) :
    ∃ n, stepN n s = .next t := by
  obtain ⟨u, hu, n, hn⟩ := h
  obtain ⟨k, hk⟩ := stepN_of_execN (decodeOfEncode i) (.inl ⟨.start, rfl⟩) rfl ((execN_succ hu n).trans hn)
  exact ⟨k + 1, by rw [stepN, step_offer hp hs]; exact hk⟩

/-- Two runs of the machine, one after the other. -/
theorem stepN_trans {s t u : State} (h : ∃ n, stepN n s = .next t) (h' : ∃ n, stepN n t = .next u) :
    ∃ n, stepN n s = .next u := by
  obtain ⟨n, hn⟩ := h
  obtain ⟨m, hm⟩ := h'
  exact ⟨n + m, (stepN_add hn m).trans hm⟩

/-- Settles O35: the write completes with the read's offer still waiting; the read then finds the bytes of `v`. -/
theorem writeThenReadRoundTrip : Obligations.WriteThenReadRoundTrip := by
  intro s a v r1 r2 d m hp hfree hi hroom hs ha hb2 hb3
  have hword : joinBytes r2.b2 r2.b3 = v := by rw [hb2, hb3]; exact joinBytes_hi_lo v
  have hwrite := stepN_offered (ws := [encode (.readReg a)]) hp hs
    (regWrite_completes (a := a) (v := v) rfl (acceptance_any hi) (State.atStart_latched hfree ..)
      (answersRegs_split (r1 := [r1]) ha))
  have hboth := stepN_trans hwrite (stepN_offered (ws := []) rfl rfl
    (readReg_completes (r := r2) (d := d) (m := m)
      (State.atStart_latched (State.busFree_completed_latched hfree ..) ..) hi ⟨rfl, rfl⟩ hroom))
  simpa [State.completed, State.latched, hword] using hboth

end Sys2Proof.Machine
end

section
/-!
The streaming data commands (42_streaming.md R190 to R193): each micro-program is one data transaction, so the command
completes where the shared run of a data transaction does, DIN left as the byte source leaves it.
-/

namespace Sys2Proof.Machine

open Sys2Proof

theorem settle_finish_adv_din (w : CmdWord) (loc : Locals) (s : State) (d : List Level) (m : List Byte)
    (evs : List Event) (din' : List Byte) :
    settle w [.finish .ok] loc { s.adv d m evs with din := din' } = { s.completed d m evs with din := din' } := rfl

/-- A command whose micro-program is one data transaction completes, and nothing but DIN, `ERR` and the trace
differs. -/
theorem dataSend_completes {i : Instr} {s : State} {src : DataSrc} {ks : List Nat} {bs : List (Byte × Byte)}
    {din' : List Byte} {d : List Level} {m : List Byte}
    (hprog : programOf s.cfg i = dataSend src bs.length ++ [.finish .ok]) (hg : guardOf i s = none) (hs : s.atStart)
    (ha : s.answersData ks bs d m) (hsrc : src.gives (bs.map Prod.fst) s.din din') :
    ∃ u, exec i s = .next u ∧ ∃ n, execN i n u = .next
      { s.completed d m (dataEvents src.isDin s.cfg.readyGrain s.tp s.drvTp ks bs) with din := din' } := by
  have ⟨⟨w, hp⟩, _⟩ := hs
  refine completes_of_reach hp hg ?_
  rw [hprog, ← settle_finish_adv_din w .blank]
  exact dataSend_run i w .blank _ src ks bs s din' d m (State.outside_of_start hs) ha hsrc

/-- The zero source sends the zero bytes of any exchanges and takes nothing from DIN (42_streaming.md R192). -/
theorem DataSrc.zero_gives (is din : List Byte) :
    DataSrc.zero.gives ((is.map fun i => ((0 : Byte), i)).map Prod.fst) din din := by
  have hzero : ∀ b ∈ (is.map fun i => ((0 : Byte), i)).map Prod.fst, b = 0 := by simp
  exact ⟨hzero, rfl⟩

/-- Settles O20: the micro-program is one data transaction whose source is DIN, which gives its oldest bytes. -/
theorem sendBufferCompletes : Obligations.SendBufferCompletes := by
  intro s len ks bs rest d m hs hi hlen hdin ha
  have hprog : programOf s.cfg (.sendBuffer len) = dataSend .din bs.length ++ [.finish .ok] := by rw [hlen]; rfl
  exact dataSend_completes hprog (acceptance_any hi) hs ha hdin

/-- Settles O21: the micro-program is one data transaction whose source is zero, which leaves DIN alone. -/
theorem sendZeroesCompletes : Obligations.SendZeroesCompletes := by
  intro s len ks is d m hs hi hlen ha
  have hprog : programOf s.cfg (.sendZeroes len)
      = dataSend .zero (is.map fun i => ((0 : Byte), i)).length ++ [.finish .ok] := by
    rw [List.length_map, hlen]; rfl
  exact dataSend_completes hprog (acceptance_any hi) hs ha (DataSrc.zero_gives is s.din)

end Sys2Proof.Machine
end

section
/-!
The playback session commands (43_playback_session.md R210 to R215): PLAY_CHUNK is one data transaction, and START_SONG
and STOP_SONG are one between two assignments to `SESSION`. So `Priming` and `Draining` stay inside the command (R211):
what matters along a micro-program is where the command may end, and only the loader's checks of its image end one early.
-/

namespace Sys2Proof.Machine

open Sys2Proof

/-! ## The commands -/

/-- A command that sends zeroes between two assignments to `SESSION` completes: the first assignment stands right after
the acceptance step, the second at the end, and nothing else but `ERR` and the trace differs. -/
theorem sessionSend_completes {i : Instr} {s : State} {during after : Session} {ks : List Nat} {is : List Byte}
    {d : List Level} {m : List Byte}
    (hprog : programOf s.cfg i = .assign (.session during) :: dataSend .zero is.length
      ++ [.assign (.session after), .finish .ok])
    (hg : guardOf i s = none) (hs : s.atStart) (ha : s.answersData ks (is.map fun i => (0, i)) d m) :
    ∃ u, exec i s = .next u ∧ u.session = during ∧ ∃ n, execN i n u = .next
      { s.completed d m (dataEvents false s.cfg.readyGrain s.tp s.drvTp ks (is.map fun i => (0, i))) with
        session := after } := by
  have ⟨⟨w, hp⟩, _⟩ := hs
  refine ⟨_, exec_accepts hp hg, ?_, ?_⟩ <;> rw [hprog, List.cons_append, settle_assign]
  · rfl
  · have hrun := dataSend_run i w .blank [.assign (.session after), .finish .ok] .zero ks
      (is.map fun i => (0, i)) (s.assign (.session during)) s.din d m (State.outside_of_start hs) ha
      (DataSrc.zero_gives is s.din)
    rwa [List.length_map] at hrun

/-- Settles O22: zeroes between `Priming` and `Streaming`. -/
theorem startSongCompletes : Obligations.StartSongCompletes := by
  intro s ks is d m hs hi hidle hlen ha
  exact sessionSend_completes (by rw [hlen]; rfl) (acceptance_idle hi hidle) hs ha

/-- Settles O23: the micro-program is SEND_BUFFER's, one data transaction whose source is DIN. -/
theorem playChunkCompletes : Obligations.PlayChunkCompletes := by
  intro s len ks bs rest d m hs hi hstreaming hlen hdin ha
  have hprog : programOf s.cfg (.playChunk len) = dataSend .din bs.length ++ [.finish .ok] := by rw [hlen]; rfl
  exact dataSend_completes hprog (acceptance_streaming hi hstreaming) hs ha hdin

/-- Settles O24: zeroes between `Draining` and `Idle`. -/
theorem stopSongCompletes : Obligations.StopSongCompletes := by
  intro s ks is d m hs hi hstreaming hlen ha
  exact sessionSend_completes (by rw [hlen]; rfl) (acceptance_streaming hi hstreaming) hs ha

/-! ## Where a command may end -/

/-- The command may end at this item: by an end, or by the fault of a malformed image (60_exceptions.md R308). -/
def Op.mayEnd : Op → Bool
  | .finish _ => true
  | .imageLoop _ => true
  | .imageHeader _ => true
  | .raiseImage => true
  | _ => false

/-- An item that does not write `SESSION` wants it settled where the command may end there. -/
theorem endsSettled_cons_iff {op : Op} (h : ∀ y, op ≠ .assign (.session y)) (x : Session) (rest : List Op) :
    endsSettled x (op :: rest) = true
      ↔ (op.mayEnd = true → settledSession x = true) ∧ endsSettled x rest = true := by
  cases op
  case assign a =>
    cases a with
    | session y => exact absurd rfl (h y)
    | init _ | midi _ | err _ | drvTp _ => simp [endsSettled, Op.mayEnd]
  all_goals simp [endsSettled, Op.mayEnd]

theorem endsSettled_append_iff {ops : List Op} (h : ∀ y, .assign (.session y) ∉ ops) (x : Session) (rest : List Op) :
    endsSettled x (ops ++ rest) = true
      ↔ (ops.any Op.mayEnd = true → settledSession x = true) ∧ endsSettled x rest = true := by
  induction ops with
  | nil => simp
  | cons op ops ih =>
    have hop : ∀ y, op ≠ .assign (.session y) := fun y e => h y (e ▸ List.mem_cons_self)
    rw [List.cons_append, endsSettled_cons_iff hop, ih fun y hy => h y (List.mem_cons_of_mem _ hy), List.any_cons,
      Bool.or_eq_true, or_imp, and_assoc]

/-- Where nothing writes `SESSION`, it stays settled. -/
theorem endsSettled_of_settled {ops : List Op} (h : ∀ y, .assign (.session y) ∉ ops) {x : Session}
    (hx : settledSession x = true) : endsSettled x ops = true := by
  rw [← List.append_nil ops, endsSettled_append_iff h]
  exact ⟨fun _ => hx, hx⟩

theorem endsSettled_assign (a : Assign) (rest : List Op) (s : State) :
    endsSettled s.session (.assign a :: rest) = endsSettled (s.assign a).session rest := by cases a <;> rfl

/-- An item that raises the fault is one at which the command may end. -/
theorem Op.mayEnd_of_expand_none {op : Op} {c : Config} {loc : Locals} (he : op.expand c loc = none) :
    op.mayEnd = true := by
  cases op
  case imageLoop | imageHeader | raiseImage | finish => rfl
  case regWrites l => rcases l with _ | ⟨⟨a, v⟩, l⟩ <;> cases he
  case sendGroups | sendBytes | readRegs | imageSelect | imageCopy | imageRepeat | discard =>
    simp only [Op.expand] at he
    split at he <;> cases he
  case imagePayload =>
    simp only [Op.expand] at he
    split at he
    · cases he
    · split at he <;> cases he
  all_goals cases he

/-- An item at which the command cannot end turns into such items. -/
theorem Op.any_mayEnd_expand {op : Op} (h : op.mayEnd = false) {c : Config} {loc loc' : Locals} {ops : List Op}
    (he : op.expand c loc = some (loc', ops)) : ops.any Op.mayEnd = false := by
  cases op
  case imageLoop | imageHeader | raiseImage | finish => cases h
  case regWrites l => rcases l with _ | ⟨⟨a, v⟩, l⟩ <;> (cases he; rfl)
  case sendBytes src g =>
    simp only [Op.expand] at he
    split at he <;> cases he
    · rfl
    · cases src <;> rfl
  case sendGroups | readRegs | imageSelect | imageCopy | imageRepeat | discard =>
    simp only [Op.expand] at he
    split at he <;> cases he <;> rfl
  case imagePayload =>
    simp only [Op.expand] at he
    split at he
    · cases he; rfl
    · split at he <;> cases he <;> rfl
  all_goals (cases he; rfl)

/-- What a silent item turns into leaves `SESSION` settled where the item did. -/
theorem endsSettled_expand {op : Op} (h : op.isExpanded = true) {c : Config} {loc loc' : Locals} {ops : List Op}
    (he : op.expand c loc = some (loc', ops)) {x : Session} {rest : List Op}
    (hx : endsSettled x (op :: rest) = true) : endsSettled x (ops ++ rest) = true := by
  obtain ⟨hend, hrest⟩ := (endsSettled_cons_iff (by rintro y rfl; cases h) x rest).mp hx
  refine (endsSettled_append_iff (fun y => assign_notMem_expand he _) x rest).mpr ⟨fun hany => hend ?_, hrest⟩
  by_contra hop
  rw [Op.any_mayEnd_expand (Bool.eq_false_of_not_eq_true hop) he] at hany
  cases hany

/-- A silent item that raises the fault does so with `SESSION` settled. -/
theorem settledSession_of_expand_none {op : Op} (h : op.isExpanded = true) {c : Config} {loc : Locals}
    (he : op.expand c loc = none) {x : Session} {rest : List Op} (hx : endsSettled x (op :: rest) = true) :
    settledSession x = true := by
  obtain ⟨hend, -⟩ := (endsSettled_cons_iff (by rintro y rfl; cases h) x rest).mp hx
  exact hend (Op.mayEnd_of_expand_none he)

/-- A command assigns to `SESSION` only what it is named a writer of (10_state.md R34). -/
theorem writesSession_of_assign_mem_programOf {c : Config} {i : Instr} {y : Session}
    (h : .assign (.session y) ∈ programOf c i) : writesSession y i = true := serves_programOf c i _ h

/-- From a settled session every command leaves it settled: BEGIN, START_SONG and STOP_SONG end on an assignment, and
no other command writes `SESSION`. -/
theorem endsSettled_programOf {x : Session} (hx : settledSession x = true) (c : Config) (i : Instr) :
    endsSettled x (programOf c i) = true := by
  cases i
  case begin | startSong | stopSong => rfl
  all_goals
    refine endsSettled_of_settled (fun y hy => ?_) hx
    cases writesSession_of_assign_mem_programOf hy

theorem endsSettled_rejectProgram {x : Session} (hx : settledSession x = true) (c : ResultCode) (n : Nat) :
    endsSettled x (rejectProgram c n) = true := endsSettled_of_settled (by simp [rejectProgram]) hx

/-! ## Every step keeps the session settled -/

theorem sessionSettled_of_phase_ready {s : State} (h : s.phase = .ready) :
    SessionSettled s ↔ settledSession s.session = true := by simp [SessionSettled, h]

theorem sessionSettled_of_phase_start {s : State} {w : CmdWord} (h : s.phase = .exec w .start) :
    SessionSettled s ↔ settledSession s.session = true := by simp [SessionSettled, h]

theorem sessionSettled_of_phase_run {s : State} {w : CmdWord} {loc : Locals} {ops : List Op}
    (h : s.phase = .exec w (.run loc ops)) :
    SessionSettled s ↔ (∃ i, decode w = .ok i) ∧ endsSettled s.session ops = true := by simp [SessionSettled, h]

/-- Where the items to come leave the session settled, the silent ones at their head do. -/
theorem sessionSettled_settle {w : CmdWord} (hw : ∃ i, decode w = .ok i) {ops : List Op} (loc : Locals) {s : State}
    (hops : endsSettled s.session ops = true) : SessionSettled (settle w ops loc s) := by
  induction ops generalizing loc s with
  | nil => exact hops
  | cons op rest ih =>
    by_cases hp : op.isPrimitive = true
    · rw [settle_primitive hp]
      exact ⟨hw, hops⟩
    · rcases Op.silent_cases op (by simpa using hp) with ⟨c, rfl⟩ | ⟨a, rfl⟩ | he
      · exact ((endsSettled_cons_iff (op := .finish c) nofun s.session rest).mp hops).1 rfl
      · rw [endsSettled_assign] at hops
        exact ih loc hops
      · rcases hx : op.expand s.cfg loc with _ | ⟨loc', _ | ⟨op', ops'⟩⟩
        · rw [settle_faults he hx]
          exact settledSession_of_expand_none he hx hops
        · rw [settle_gone he hx]
          exact ih loc' (endsSettled_expand he hx hops)
        · rw [settle_opens he hx]
          exact ⟨hw, endsSettled_expand he hx hops⟩

/-- A primitive leaves `SESSION` as it is, for the items after it. -/
theorem sessionSettled_microStep {w : CmdWord} {loc : Locals} {ops : List Op} {s t : State} (hs : SessionSettled s)
    (hp : s.phase = .exec w (.run loc ops)) (h : microStep w loc ops s = .next t) : SessionSettled t := by
  obtain ⟨hw, hops⟩ := (sessionSettled_of_phase_run hp).mp hs
  rcases microStep_next h with rfl | ⟨rest, rfl, -, rfl⟩ | ⟨rfl, rfl⟩ | ⟨op, rest, rfl, -, rfl⟩
    | ⟨l, v, rest, rfl, rfl⟩ | ⟨l, rest, rfl, -, rfl⟩ | ⟨rest, rfl, -, rfl⟩ | ⟨o, d, rest, rfl, rfl⟩
    | ⟨rest, rfl, -, rfl⟩ | ⟨rest, rfl, rfl⟩ | ⟨p, rest, rfl, -, rfl⟩ | ⟨d, b, bs, rest, rfl, -, rfl⟩
    | ⟨b, bs, rest, rfl, -, rfl⟩ | ⟨rest, rfl, -, rfl⟩
  · exact hs
  · exact (sessionSettled_of_phase_run (by simpa using hp)).mpr ⟨hw, by simpa using hops⟩
  · exact hops
  · exact sessionSettled_settle hw loc hops
  all_goals exact sessionSettled_settle hw _ (by simpa [endsSettled] using hops)

theorem sessionSettled_exec {i : Instr} {w : CmdWord} {k : Pos} {s t : State} (hs : SessionSettled s)
    (hp : s.phase = .exec w k) (hd : decode w = .ok i) (h : exec i s = .next t) : SessionSettled t := by
  cases k with
  | start =>
    have hx := (sessionSettled_of_phase_start hp).mp hs
    rcases hg : guardOf i s with _ | c
    · rw [exec_accepts hp hg] at h
      cases h
      exact sessionSettled_settle ⟨i, hd⟩ _ (endsSettled_programOf hx s.cfg i)
    · rw [exec_rejects hp hg] at h
      cases h
      exact sessionSettled_settle ⟨i, hd⟩ _ (endsSettled_rejectProgram hx c (payloadOf i))
  | run loc ops =>
    rw [exec_run i hp] at h
    exact sessionSettled_microStep hs hp h

theorem sessionSettled_controllerStep {s t : State} (hs : SessionSettled s) (h : controllerStep s = .next t) :
    SessionSettled t := by
  rcases controllerStep_cases s with ⟨-, e⟩ | ⟨-, e⟩ | ⟨w, k, c, hp, hd, e⟩ | ⟨w, k, i, hp, hd, e⟩ <;> rw [e] at h
  · cases h; exact hs
  · cases h; exact hs
  · cases h
    cases k with
    | start => exact (sessionSettled_of_phase_start hp).mp hs
    | run loc ops =>
      obtain ⟨⟨i, hi⟩, -⟩ := (sessionSettled_of_phase_run hp).mp hs
      cases hd.symm.trans hi
  · exact sessionSettled_exec hs hp hd h

/-- No other agent writes `SESSION` but a reset, and an offer is latched at a command boundary only. -/
theorem sessionSettled_apply {m : Move} {s : State} (hs : SessionSettled s) (hm : m.enabled s = true) :
    SessionSettled (m.apply s) := by
  cases m with
  | controller | push _ | take | coUser _ => exact hs
  | offer w => exact (sessionSettled_of_phase_ready (s.cmdReady_iff.mp hm)).mp hs
  | reset => rfl

/-- Settles O49: the controller's step goes by where its micro-program may end, and no other agent's move breaks it. -/
theorem stepKeepsSessionSettled : Obligations.StepKeepsSessionSettled := by
  intro s t hs h
  obtain ⟨ms, h | ⟨m, hm, rfl⟩⟩ := step_next h
  · exact sessionSettled_controllerStep (s := s.withSched ms) hs h
  · exact sessionSettled_apply (s := s.withSched ms) hs hm

end Sys2Proof.Machine
end

section
/-!
The firmware loader (44_firmware_loader.md R230 to R236). An image is read record by record: the loader and the
well-formedness check recurse over the same records, so they reach the image's end together, and a record takes and
writes what its header says, whatever follows it. LOAD_IMAGE is then the shared run of the loader on DIN, and ends by
how the image does.
-/

namespace Sys2Proof.Machine

open Sys2Proof

/-! ## One record (R232, R236) -/

theorem headerNeed_of_repeat {h : Word} (hr : headerRepeat h = true) : headerNeed h = 1 := by simp [headerNeed, hr]

theorem headerNeed_of_copy {h : Word} (hr : headerRepeat h = false) : headerNeed h = headerCount h := by
  simp [headerNeed, hr]

theorem loadWords_payloadActs (c : Config) (a h : Word) (ws : List Word) :
    loadWords (payloadActs c a h ws) = ws.take (headerNeed h) := by
  cases hr : headerRepeat h with
  | false => simp [payloadActs, hr, loadWords_copy, headerNeed_of_copy hr]
  | true => cases ws <;> simp [payloadActs, hr, loadWords, loadWords_repeat, headerNeed_of_repeat hr]

/-- The words a record takes after its header are those its header asks for (30_encoding.md R118). -/
theorem loadWords_recordActs_eq_take (c : Config) (a h : Word) (ws : List Word) :
    loadWords (recordActs c a h ws) = ws.take (headerNeed h) := by
  rw [recordActs_eq, loadWords_append, loadWords_select, List.nil_append, loadWords_payloadActs]

theorem length_loadWrites_select (c : Config) (a : Word) :
    (loadWrites ((recordSelect c a).map fun p => LoadAct.write p.1 p.2)).length
      = if c.loaderTarget = .fixedPair then 1 else 0 := by
  cases ht : c.loaderTarget <;> simp [recordSelect, ht, loadWrites]

theorem length_loadWrites_payloadActs {c : Config} {a h : Word} {ws : List Word} (hn : headerNeed h ≤ ws.length) :
    (loadWrites (payloadActs c a h ws)).length = headerCount h := by
  cases hr : headerRepeat h with
  | false =>
    rw [headerNeed_of_copy hr] at hn
    simp [payloadActs, hr, loadWrites_copy, hn]
  | true =>
    rw [headerNeed_of_repeat hr] at hn
    cases ws with
    | nil => simp at hn
    | cons v ws => simp [payloadActs, hr, loadWrites, loadWrites_repeat]

theorem length_loadWrites_recordActs {c : Config} {a h : Word} {ws : List Word} (hn : headerNeed h ≤ ws.length) :
    (loadWrites (recordActs c a h ws)).length
      = headerCount h + if c.loaderTarget = .fixedPair then 1 else 0 := by
  rw [recordActs_eq, loadWrites_append, List.length_append, length_loadWrites_select,
    length_loadWrites_payloadActs hn, Nat.add_comm]

/-! ## The records of an image -/

/-- An image has at most as many records as words, so more fuel than its length changes nothing. -/
theorem imageActsFuel_eq_of_le {c : Config} {fuel fuel' : Nat} {ws : List Word} (hf : ws.length ≤ fuel)
    (hf' : ws.length ≤ fuel') : imageActsFuel c fuel ws = imageActsFuel c fuel' ws := by
  induction fuel, ws using imageActsFuel.induct (c := c) generalizing fuel' with
  | case1 | case2 => simp [imageActsFuel]
  | case3 => simp at hf
  | case4 fuel a h rest hshort =>
    obtain ⟨fuel', rfl⟩ : ∃ k, fuel' = k + 1 := Nat.exists_eq_add_one.mpr (by simp at hf'; omega)
    simp [imageActsFuel, hshort]
  | case5 fuel a h rest hroom ih =>
    obtain ⟨fuel', rfl⟩ : ∃ k, fuel' = k + 1 := Nat.exists_eq_add_one.mpr (by simp at hf'; omega)
    simp only [List.length_cons] at hf hf'
    have htail := ih (fuel' := fuel') (by rw [List.length_drop]; omega) (by rw [List.length_drop]; omega)
    simp only [imageActsFuel, hroom, if_false, htail]

/-- An image that opens with a record: the record, then the rest of the image (R232). -/
theorem imageActs_record (c : Config) (a h : Word) {payload : List Word} (hn : payload.length = headerNeed h)
    (more : List Word) :
    (imageActs c (a :: h :: payload ++ more)).1
      = .word a :: .word h :: (recordActs c a h (payload ++ more) ++ (imageActs c more).1) := by
  have hroom : ¬ (payload ++ more).length < headerNeed h := by simp [← hn]
  have hrest : (payload ++ more).drop (headerNeed h) = more := by simp [← hn]
  have hfuel : imageActsFuel c ((payload ++ more).length + 1) more = imageActs c more :=
    imageActsFuel_eq_of_le (by simp; omega) le_rfl
  simp only [imageActs, List.cons_append, List.length_cons, imageActsFuel, hroom, if_false, hrest]
  rw [hfuel, imageActs]

/-- The loader raises its fault exactly where the tiling of R230 breaks. -/
theorem imageActsFuel_ends (c : Config) (fuel : Nat) (ws : List Word) :
    (imageActsFuel c fuel ws).2 = imageWfFuel fuel ws := by
  induction fuel, ws using imageActsFuel.induct (c := c) with
  | case1 | case2 | case3 => simp [imageActsFuel, imageWfFuel]
  | case4 fuel a h rest hshort => simp [imageActsFuel, imageWfFuel, hshort]
  | case5 fuel a h rest hroom ih => simpa only [imageActsFuel, imageWfFuel, hroom, if_false] using ih

theorem loadWords_imageActsFuel {c : Config} {fuel : Nat} {ws : List Word} (hwf : imageWfFuel fuel ws = true) :
    loadWords (imageActsFuel c fuel ws).1 = ws := by
  induction fuel, ws using imageActsFuel.induct (c := c) with
  | case1 => simp [imageActsFuel, loadWords]
  | case2 | case3 => simp [imageWfFuel] at hwf
  | case4 fuel a h rest hshort => simp [imageWfFuel, hshort] at hwf
  | case5 fuel a h rest hroom ih =>
    simp only [imageWfFuel, hroom, if_false] at hwf
    simp only [imageActsFuel, hroom, if_false, loadWords, loadWords_append, loadWords_recordActs_eq_take, ih hwf,
      List.take_append_drop]

theorem imageLoads_eq_imageWf (c : Config) (ws : List Word) : imageLoads c ws = imageWf ws :=
  imageActsFuel_ends c ws.length ws

/-- Every word of a well-formed image is taken, once and in order (R232). -/
theorem loadWords_imageActs {c : Config} {ws : List Word} (hwf : imageWf ws = true) :
    loadWords (imageActs c ws).1 = ws :=
  loadWords_imageActsFuel hwf

/-- Settles O34: the loader and the well-formedness check recurse over the same records. -/
theorem loaderEndsIffWellFormed : Obligations.LoaderEndsIffWellFormed :=
  fun c ws => ⟨imageLoads_eq_imageWf c ws, loadWords_imageActs⟩

/-- Settles O33: the first record is taken apart from the rest, and its header says how much it takes and writes. -/
theorem recordCounts : Obligations.RecordCounts := by
  refine ⟨fun _ => rfl, fun c a h payload more hlen => ?_⟩
  have hn : payload.length = headerNeed h := hlen
  have hwords : loadWords (imageActs c (a :: h :: payload ++ more)).1
      = a :: h :: payload ++ loadWords (imageActs c more).1 := by
    rw [imageActs_record c a h hn]
    simp [loadWords, loadWords_append, loadWords_recordActs_eq_take, ← hn]
  refine ⟨hwords, ?_, ?_⟩
  · rw [hwords, List.length_append, List.length_cons, List.length_cons, hlen]
    split <;> omega
  · have hroom : headerNeed h ≤ (payload ++ more).length := by simp [← hn]
    rw [imageActs_record c a h hn, loadWrites, loadWrites, loadWrites_append, List.length_append,
      length_loadWrites_recordActs hroom]
    rfl

/-! ## LOAD_IMAGE (R232, R233, R235) -/

/-- `s` after the loader ran over the image `ws` at the front of DIN, with `rest` behind it and the transactions
answered by `rs`: the words it took are gone from DIN, and the rest of the image stays (R235). -/
def State.loaded (ws : List Word) (rs : List Reply) (rest : List Byte) (d : List Level) (m : List Byte) (s : State) :
    State :=
  { s.adv d m (loadEvents s.cfg s.tp s.drvTp (imageActs s.cfg ws).1 rs) with
    din := (ws.drop (loadWords (imageActs s.cfg ws).1).length).flatMap wordBytes ++ rest }

/-- LOAD_IMAGE runs the loader over its image, then ends or raises the fault, as the image is well formed or not. -/
theorem loadImage_ends {s : State} {len : Len} {ws : List Word} {rs : List Reply} {rest : List Byte} {d : List Level}
    {m : List Byte} (hs : s.atStart) (hi : s.init = true) (hlen : ws.length = len.toNat)
    (hdin : s.din = ws.flatMap wordBytes ++ rest) (hrs : rs.length = (loadWrites (imageActs s.cfg ws).1).length)
    (ha : s.answersRegs rs d m) :
    ∃ u, exec (.loadImage len) s = .next u ∧ ∃ n, execN (.loadImage len) n u = .next
      (if imageWf ws then (s.loaded ws rs rest d m).finish .ok
        else (s.loaded ws rs rest d m).raiseFault .errImage) := by
  have ⟨⟨w, hp⟩, _⟩ := hs
  obtain ⟨loc, hrun⟩ := imageLoop_run (.loadImage len) w ws.length .blank [.finish .ok] ws len.toNat rs s rest d m
    (State.outside_of_start hs) le_rfl (by simp [Locals.blank, hlen]) hdin hrs ha
  simp only [settle_finish, imageActsFuel_ends] at hrun
  exact completes_of_reach hp (acceptance_any hi) hrun

/-- Settles O25: the loader takes every word of a well-formed image and LOAD_IMAGE ends. -/
theorem loadImageCompletes : Obligations.LoadImageCompletes := by
  intro s len ws rs rest d m hs hi hlen hwf hdin hrs ha
  have hend := loadImage_ends hs hi hlen hdin hrs ha
  have hleft : (ws.drop (loadWords (imageActs s.cfg ws).1).length).flatMap wordBytes ++ rest = rest := by
    simp [loadWords_imageActs hwf]
  rwa [if_pos hwf, State.loaded, hleft] at hend

/-- Settles O30: the loader stops at the overrun, the unread words stay in DIN, and LOAD_IMAGE faults. -/
theorem malformedImageFaults : Obligations.MalformedImageFaults := by
  intro s len ws rs rest d m hs hi hlen hwf hdin hrs ha
  have hend := loadImage_ends hs hi hlen hdin hrs ha
  rwa [if_neg (by simp [hwf])] at hend

end Sys2Proof.Machine
end

section
/-!
The initialisation and MIDI-mode commands (45_init_and_midi.md R260 to R264). BEGIN pulses the reset line, waits for the
peripheral and performs INIT_WRITES under the profile `TP_INIT`. BEGIN_MIDI runs the loader on a ROM image, which ends
or raises the fault of R235, and then performs MIDI_WRITES. SEND_MIDI is one data transaction whose source is a frame.
-/

namespace Sys2Proof.Machine

open Sys2Proof

/-! ## BEGIN (R260, R262) -/

/-- One line write of a micro-program (40_line_control.md R140). -/
theorem setLine_run (i : Instr) (w : CmdWord) (loc : Locals) (rest : List Op) (l : Line) (v : Level) (s : State) :
    Reach i (settle w (.setLine l v :: rest) loc s) (settle w rest loc (s.setLine l v)) := by
  have hline : (s.at w loc (.setLine l v :: rest)).setLine l v = (s.setLine l v).at w loc (.setLine l v :: rest) := by
    cases l <;> rfl
  have hstep := microStep_setLine w loc rest (s.at w loc (.setLine l v :: rest)) l v
  rw [hline, settle_at] at hstep
  rw [settle_primitive rfl]
  exact Reach.micro hstep (Reach.refl ..)

/-- The events of BEGIN's line writes (R260). -/
def pulseEvents (c : Config) : List Event :=
  [.line .xcs true, .line .xdcs true, .line .xreset c.resetActive, .line .xreset (!c.resetActive)]

/-- `s` with the selects and the reset line where BEGIN's line writes leave them (R262). -/
def State.released (s : State) : State := { s with xcs := true, xdcs := true, xreset := !s.cfg.resetActive }

/-- The two select writes and the reset pulse (R260). -/
theorem pulse_run (i : Instr) (w : CmdWord) (loc : Locals) (rest : List Op) (s : State) :
    Reach i
      (settle w (.setLine .xcs true :: .setLine .xdcs true :: .setLine .xreset s.cfg.resetActive
        :: .setLine .xreset (!s.cfg.resetActive) :: rest) loc s)
      (settle w rest loc (s.released.adv s.dreqIn s.misoIn (pulseEvents s.cfg))) := by
  have hlines : (((s.setLine .xcs true).setLine .xdcs true).setLine .xreset s.cfg.resetActive).setLine .xreset
      (!s.cfg.resetActive) = s.released.adv s.dreqIn s.misoIn (pulseEvents s.cfg) := by
    simp [State.setLine, State.record, State.released, State.adv, pulseEvents]
  rw [← hlines]
  exact (setLine_run ..).trans ((setLine_run ..).trans ((setLine_run ..).trans (setLine_run ..)))

/-- BEGIN up to its register writes: the pulse, the wait for the peripheral, and the profile `TP_INIT` (R260). -/
theorem beginOpening_run (i : Instr) (w : CmdWord) (loc : Locals) (rest : List Op) (s : State) (k : Nat)
    (d : List Level) (h : s.dreqIn = samples s.cfg.readyLevel k ++ d) :
    Reach i
      (settle w (.setLine .xcs true :: .setLine .xdcs true :: .setLine .xreset s.cfg.resetActive
        :: .setLine .xreset (!s.cfg.resetActive) :: .awaitReady :: .assign (.drvTp s.cfg.tpInit) :: rest) loc s)
      (settle w rest loc ((s.released.assign (.drvTp s.cfg.tpInit)).adv d s.misoIn
        (pulseEvents s.cfg ++ pollEvents k))) := by
  have hwait := await_run i w loc (.assign (.drvTp s.cfg.tpInit) :: rest) k d
    (s.released.adv s.dreqIn s.misoIn (pulseEvents s.cfg)) h
  rw [State.adv_adv, settle_assign] at hwait
  exact (pulse_run i w loc _ s).trans hwait

/-- The assignments that end BEGIN, and its completion (R260, R262). -/
theorem settle_beginEnd (w : CmdWord) (loc : Locals) (s : State) (d : List Level) (m : List Byte) (evs : List Event) :
    settle w [.assign (.drvTp s.cfg.tpRun), .assign (.init true), .assign (.session .idle), .assign (.midi false),
        .finish .ok] loc ((s.released.assign (.drvTp s.cfg.tpInit)).adv d m evs)
      = { s.completed d m evs with
          init := true, session := .idle, midi := false, drvTp := s.cfg.tpRun, xcs := true, xdcs := true,
          xreset := !s.cfg.resetActive } := by
  simp [settle_assign, settle_finish, State.assign, State.finish, State.record, State.completed, State.adv,
    State.released]

/-- Settles O15: after the opening come the writes, under `TP_INIT`, and the assignments that end BEGIN. -/
theorem beginCompletes : Obligations.BeginCompletes := by
  intro s k rs d m hs hlen hdreq hmiso
  have ⟨⟨w, hp⟩, _⟩ := hs
  obtain ⟨-, -, hfree⟩ := State.outside_of_start hs
  rw [List.append_assoc] at hdreq
  have hwrites := regWrites_run .begin w .blank
    [.assign (.drvTp s.cfg.tpRun), .assign (.init true), .assign (.session .idle), .assign (.midi false), .finish .ok]
    s.cfg.initWrites
    ((s.released.assign (.drvTp s.cfg.tpInit)).adv (replyLevels s.cfg.readyLevel rs ++ d) s.misoIn
      (pulseEvents s.cfg ++ pollEvents k)) rs d m ⟨rfl, rfl, hfree⟩ hlen ⟨rfl, hmiso⟩
  rw [State.adv_adv, settle_beginEnd] at hwrites
  exact completes_of_reach hp rfl ((beginOpening_run .begin w .blank _ s k _ hdreq).trans hwrites)

/-! ## The loader on a ROM image (44_firmware_loader.md R232, R235) -/

/-- `s` after the loader ran over the ROM image `ws`, its transactions answered by `rs`. -/
def State.romLoaded (ws : List Word) (rs : List Reply) (d : List Level) (m : List Byte) (s : State) : State :=
  s.adv d m (writesEvents s.cfg s.tp s.drvTp (imageWrites s.cfg ws) rs)

/-- The loader on a ROM image performs the image's writes, then goes on or raises the fault, as the image is well formed
or not. -/
theorem imageLoadRom_run (i : Instr) (w : CmdWord) (loc : Locals) (rest : List Op) (ws : List Word) (s : State)
    (rs : List Reply) (d : List Level) (m : List Byte) (ho : s.outside)
    (hlen : rs.length = (imageWrites s.cfg ws).length) (ha : s.answersRegs rs d m) :
    Reach i (settle w (imageLoadRom s.cfg ws ++ rest) loc s)
      (if imageWf ws then settle w rest loc (s.romLoaded ws rs d m)
        else (s.romLoaded ws rs d m).raiseFault .errImage) := by
  have hwrites (after : List Op) := regWrites_run i w loc after (imageWrites s.cfg ws) s rs d m ho hlen ha
  rw [imageLoadRom, imageLoads_eq_imageWf]
  cases imageWf ws with
  | true => exact hwrites rest
  | false => exact hwrites (.raiseImage :: rest)

/-! ## BEGIN_MIDI (R263) -/

/-- Settles O26: the loader goes on, and the writes of MIDI_WRITES follow. -/
theorem beginMidiCompletes : Obligations.BeginMidiCompletes := by
  intro s r1 r2 d m hs hi hwf hlen1 hlen2 ha
  have ⟨⟨w, hp⟩, _⟩ := hs
  have ho := State.outside_of_start hs
  have hload := imageLoadRom_run .beginMidi w .blank [.regWrites s.cfg.midiWrites, .assign (.midi true), .finish .ok]
    s.cfg.midiImage s r1 _ _ ho hlen1 (answersRegs_split ha)
  have hwrites := regWrites_run .beginMidi w .blank [.assign (.midi true), .finish .ok] s.cfg.midiWrites
    (s.romLoaded s.cfg.midiImage r1 (replyLevels s.cfg.readyLevel r2 ++ d) (replyBytes r2 ++ m)) r2 d m ho hlen2
    ⟨rfl, rfl⟩
  rw [if_pos hwf] at hload
  rw [State.romLoaded, State.adv_adv] at hwrites
  exact completes_of_reach hp (acceptance_any hi) (hload.trans hwrites)

/-- Settles O31: the loader faults after the image's writes, and MIDI_WRITES is not reached. -/
theorem malformedMidiImageFaults : Obligations.MalformedMidiImageFaults := by
  intro s rs d m hs hi hwf hlen ha
  have ⟨⟨w, hp⟩, _⟩ := hs
  have hload := imageLoadRom_run .beginMidi w .blank [.regWrites s.cfg.midiWrites, .assign (.midi true), .finish .ok]
    s.cfg.midiImage s rs d m (State.outside_of_start hs) hlen ha
  rw [if_neg (by simp [hwf])] at hload
  exact completes_of_reach hp (acceptance_any hi) hload

/-! ## SEND_MIDI (R264) -/

/-- Settles O27: the micro-program is one data transaction whose source is the frame, which leaves DIN alone. -/
theorem sendMidiCompletes : Obligations.SendMidiCompletes := by
  intro s mcmd d1 d2 ks bs d m hs hi hframe ha
  have hlen : bs.length = 6 := by simpa using congrArg List.length hframe
  have hprog : programOf s.cfg (.sendMidi mcmd d1 d2)
      = dataSend (.frame (midiFrame s.cfg.midiPad mcmd d1 d2)) bs.length ++ [.finish .ok] := by rw [hlen]; rfl
  exact dataSend_completes hprog (acceptance_any hi) hs ha ⟨hframe ▸ List.prefix_rfl, rfl⟩

end Sys2Proof.Machine
end

section
/-!
What happens in place of exceptions (60_exceptions.md R302 to R311): the rejection of a command and the order of its
causes, the HALTED state, and the holds. A command's acceptance check and its discard are those that R302 and R305 word,
and the causes of R303, read off a word, start with the code that the decoder or that check answers.
-/

namespace Sys2Proof.Machine

open Sys2Proof

/-! ## Holds (R311) -/

theorem exec_dinPop (i : Instr) {s : State} {w : CmdWord} {loc : Locals} {dst : ByteDst} {rest : List Op} {b : Byte}
    {bs : List Byte} (hp : s.phase = .exec w (.run loc (.dinPop dst :: rest))) (hb : s.din = b :: bs) :
    exec i s = .next (settle w rest (loc.keep dst b) (s.dinPop b bs)) := by
  rw [exec_run i hp, microStep_dinPop w loc rest s dst hb]

/-- A byte popped in a data transaction is exchanged in the next step (42_streaming.md R190). -/
theorem exec_dinSend (i : Instr) {s : State} {w : CmdWord} {loc : Locals} {rest : List Op} {b : Byte}
    {bs : List Byte} (hp : s.phase = .exec w (.run loc (.dinSend :: rest))) (hb : s.din = b :: bs) :
    exec i s = .next ((s.dinPop b bs).at w loc (.xfer b .drop :: rest)) := by
  rw [exec_run i hp, microStep_dinSend w loc rest s hb, settle_primitive rfl]

theorem exec_doutPush (i : Instr) {s : State} {w : CmdWord} {loc : Locals} {rest : List Op}
    (hp : s.phase = .exec w (.run loc (.doutPush :: rest))) (hroom : s.dout.length < s.cfg.doutDepth) :
    exec i s = .next (settle w rest loc (s.doutPush loc.word)) := by
  rw [exec_run i hp, microStep_doutPush w loc rest s hroom]

/-- Settles O39: each hold is the primitive's own answer, and READY with an empty schedule is the controller's. -/
theorem holdsChangeNothing : Obligations.HoldsChangeNothing := by
  refine ⟨fun i s w loc dst rest hp => ⟨fun hempty => ?_, fun b bs => exec_dinPop i hp⟩,
    fun i s w loc rest hp => ⟨fun hempty => ?_, fun b bs => exec_dinSend i hp⟩,
    fun i s w loc rest hp => ⟨fun hfull => ?_, exec_doutPush i hp⟩, fun s hp hs => ?_⟩
  · rw [exec_run i hp, microStep_dinPop_hold w loc rest s dst hempty]
  · rw [exec_run i hp, microStep_dinSend_hold w loc rest s hempty]
  · rw [exec_run i hp, microStep_doutPush_hold w loc rest s hfull]
  · rw [step_alone hs, controllerStep_ready hp]

/-! ## HALTED (R309) -/

theorem controllerStep_halted {s : State} (h : s.phase = .halted) : controllerStep s = .next s := by
  simp [controllerStep, h]

/-- From `s` to `t` at most the host moved a byte into DIN or a word out of DOUT: `PHASE`, `FAULT`, `ERR` and the trace
are as they were. -/
def State.onlyChannelsMoved (s t : State) : Prop :=
  t.phase = s.phase ∧ t.fault = s.fault ∧ t.err = s.err ∧ t.trace = s.trace
  ∧ (t.din = s.din ∨ ∃ b, t.din = s.din ++ [b]) ∧ (t.dout = s.dout ∨ ∃ v, s.dout = v :: t.dout)

theorem State.onlyChannelsMoved_withSched (s : State) (ms : List Move) : s.onlyChannelsMoved (s.withSched ms) :=
  ⟨rfl, rfl, rfl, rfl, .inl rfl, .inl rfl⟩

/-- An enabled move but an offer and a reset moves at most a byte or a word of the channels. -/
theorem Move.apply_onlyChannelsMoved {m : Move} {s : State} (hm : m.enabled s = true) (hoffer : ∀ w, m ≠ .offer w)
    (hreset : m ≠ .reset) : s.onlyChannelsMoved (m.apply s) := by
  cases m with
  | offer w => exact absurd rfl (hoffer w)
  | reset => exact absurd rfl hreset
  | controller | coUser _ => exact ⟨rfl, rfl, rfl, rfl, .inl rfl, .inl rfl⟩
  | push b => exact ⟨rfl, rfl, rfl, rfl, .inr ⟨b, rfl⟩, .inl rfl⟩
  | take =>
    obtain ⟨v, vs, hv⟩ := List.exists_cons_of_ne_nil ((Move.take_enabled_iff s).mp hm)
    exact ⟨rfl, rfl, rfl, rfl, .inl rfl, .inr ⟨v, by simp [Move.apply, hv]⟩⟩

/-- A step in HALTED that is no reset: the controller stays, an offer waits, and the other agents reach only the
channels and the shared profile. -/
theorem step_halted {s : State} (hp : s.phase = .halted) (hr : s.sched.head? ≠ some .reset) :
    ∃ t, step s = .next t ∧ s.onlyChannelsMoved t := by
  rcases step_cases s with e | ⟨rest, -, e⟩ | ⟨m, rest, hs, -, hm, e⟩
  · exact ⟨s, e.trans (controllerStep_halted hp), s.onlyChannelsMoved_withSched s.sched⟩
  · exact ⟨s.withSched rest, e.trans (controllerStep_halted (s := s.withSched rest) hp),
      s.onlyChannelsMoved_withSched rest⟩
  · refine ⟨_, e, Move.apply_onlyChannelsMoved (s := s.withSched rest) hm ?_ ?_⟩
    · rintro w rfl
      cases hp.symm.trans (s.cmdReady_iff.mp hm)
    · rintro rfl
      exact hr (by rw [hs]; rfl)

/-- Settles O13: no command executes in HALTED, and STATUS shows what the discipline says of it (R37, R45). -/
theorem haltedIsQuiescent : Obligations.HaltedIsQuiescent := by
  intro s hp
  refine ⟨?_, fun i => exec_halted i hp, fun hr => ?_, fun hs => ?_⟩
  · simp [State.cmdReady, hp]
  · obtain ⟨t, ht, hphase, hmoved⟩ := step_halted hp hr
    exact ⟨t, ht, hphase.trans hp, hmoved⟩
  · obtain ⟨-, hfault, herr⟩ := (disciplined_of_phase_halted hp).mp hs
    rw [status_busy, status_fault, status_err, herr]
    exact ⟨s.busy_iff.mpr (.inl hp), hfault, rfl⟩

/-! ## A rejected command (R302, R304, R305) -/

theorem acceptance_eq_rejection {i : Instr} {s : State} {need : SessionNeed} (hi : i ≠ .begin)
    (hneed : sessionAllows s.session i = need.met s.session) : acceptance need s = rejection i s := by
  simp [rejection, acceptance, hi, hneed]

/-- The acceptance check of every command is the one that R302 words. -/
theorem guardOf_eq_rejection (i : Instr) (s : State) : guardOf i s = rejection i s := by
  cases i with
  | begin => simp [guardOf, rejection, sessionAllows]
  | readReg _ | writeReg _ _ | sendBuffer _ | sendZeroes _ | startSong | playChunk _ | stopSong | loadImage _
  | setVolume _ | beginMidi | sendMidi _ _ _ | printDetails => exact acceptance_eq_rejection nofun rfl

/-- The bytes that a rejection discards are the command's payload that R305 words. -/
theorem payloadOf_eq_discardBytes (i : Instr) : payloadOf i = discardBytes i := by cases i <;> rfl

/-- The micro-program of a rejection, with its payload in DIN: `ERR`, the discard, the end. -/
theorem rejectProgram_run (i : Instr) (w : CmdWord) (c : ResultCode) {s : State} {payload rest : List Byte}
    (hdin : s.din = payload ++ rest) :
    Reach i (settle w (rejectProgram c payload.length) .blank s) (s.rejected c payload rest) := by
  rw [rejectProgram, settle_assign]
  exact discard_run i w .blank [.finish c] payload (s.assign (.err c)) rest hdin

theorem finish_eq_rejected (c : ResultCode) (s : State) : s.finish c = s.rejected c [] s.din := by
  simp [State.finish, State.rejected, State.record]

/-- Settles O28: a rejection runs its micro-program; a word that spells no command has no payload to discard. -/
theorem rejectionIsPrecise : Obligations.RejectionIsPrecise := by
  refine ⟨fun i s w c payload rest hp hc hdin hlen => ?_, fun s w c hp hd => ?_⟩
  · have hrun := rejectProgram_run i w c hdin
    rw [hlen, ← payloadOf_eq_discardBytes] at hrun
    exact ⟨_, exec_rejects hp ((guardOf_eq_rejection i s).trans hc), hrun⟩
  · rw [controllerStep_illegal hp hd, State.rejectWord_eq, finish_eq_rejected]

/-! ## The causes of a rejection in order (R303) -/

/-- The acceptance check answers only the two codes whose rejection discards a payload (R305). -/
theorem rejection_codes {i : Instr} {s : State} {c : ResultCode} (h : rejection i s = some c) :
    c = .errNotInit ∨ c = .errSession := by
  rw [rejection] at h
  split at h
  · cases h; exact .inl rfl
  · split at h <;> cases h
    exact .inr rfl

theorem fieldOpcode_encode_ne_begin_iff (i : Instr) : fieldOpcode (encode i) ≠ 0x01 ↔ i ≠ .begin := by
  cases i <;> simp [encode]

/-- The opcodes that R302 names for `ERR_SESSION` are those of the commands that ask something of `SESSION`. -/
theorem sessionForbids_encode_iff (i : Instr) (x : Session) :
    ((fieldOpcode (encode i) = 0x06 ∧ x ≠ .idle)
      ∨ ((fieldOpcode (encode i) = 0x07 ∨ fieldOpcode (encode i) = 0x08) ∧ x ≠ .streaming))
      ↔ sessionAllows x i = false := by
  cases i <;> simp [encode, sessionAllows]

/-- R305 read off the opcode of a command's word. -/
theorem discardOf_encode {c : ResultCode} (hc : c = .errNotInit ∨ c = .errSession) (i : Instr) :
    discardOf (encode i) c = discardBytes i := by
  rw [discardOf, if_pos hc]
  cases i <;> simp [encode, discardBytes]

theorem wordWf_iff (w : CmdWord) : wordWf w = true ↔ ∃ i, decode w = .ok i := by
  rw [wordWf, List.any_eq_true]
  constructor
  · rintro ⟨r, hr, hs⟩
    obtain ⟨i, hd, -⟩ := decode_of_spells hr hs
    exact ⟨i, hd⟩
  · rintro ⟨i, hd⟩
    obtain ⟨-, r, hr, hs, -⟩ := spelled_of_decode hd
    exact ⟨r, hr, hs⟩

theorem reservedOpcode_of_decode {w : CmdWord} {i : Instr} (h : decode w = .ok i) :
    reservedOpcode (fieldOpcode w) = false := by
  refine Bool.eq_false_iff.mpr fun ho => ?_
  cases (decode_reserved ho).symm.trans h

/-- A word that spells no command: the opcode is reserved, or it is a command's and its bits are not (R106, R107). -/
theorem decode_error_cases {w : CmdWord} {c : ResultCode} (h : decode w = .error c) :
    (c = .errOpcode ∧ reservedOpcode (fieldOpcode w) = true)
    ∨ (c = .errReserved ∧ reservedOpcode (fieldOpcode w) = false ∧ wordWf w = false) := by
  rcases decode_cases w with ⟨ho, hd⟩ | ⟨-, -, -, i, hd, -⟩ | hd <;> rw [h] at hd <;> cases hd
  · exact .inl ⟨rfl, ho⟩
  · refine .inr ⟨rfl, Bool.eq_false_iff.mpr fun ho => ?_, Bool.eq_false_iff.mpr fun hwf => ?_⟩
    · cases (decode_reserved ho).symm.trans h
    · obtain ⟨i, hd⟩ := (wordWf_iff w).mp hwf
      cases hd.symm.trans h

/-- Nothing is discarded for a word that spells no command (R305). -/
theorem discardOf_of_decode_error {w : CmdWord} {c : ResultCode} (h : decode w = .error c) : discardOf w c = 0 := by
  rcases decode_error_cases h with ⟨rfl, -⟩ | ⟨rfl, -⟩ <;> rfl

/-- On a word that spells no command the first cause is the decoder's code. -/
theorem head?_rejectionCauses_of_error {w : CmdWord} {c : ResultCode} (h : decode w = .error c) (s : State) :
    (rejectionCauses w s).head? = some c := by
  rcases decode_error_cases h with ⟨rfl, ho⟩ | ⟨rfl, ho, hwf⟩
  · simp [rejectionCauses, ho]
  · simp [rejectionCauses, ho, hwf]

/-- On a command's word the causes are those of its acceptance check. -/
theorem rejectionCauses_of_ok {w : CmdWord} {i : Instr} (h : decode w = .ok i) (s : State) :
    rejectionCauses w s = (if i ≠ .begin ∧ s.init = false then [.errNotInit] else [])
      ++ (if sessionAllows s.session i = false then [.errSession] else []) := by
  have ho := reservedOpcode_of_decode h
  have hwf := (wordWf_iff w).mpr ⟨i, h⟩
  obtain ⟨rfl, -⟩ := spelled_of_decode h
  simp only [rejectionCauses, fieldOpcode_encode_ne_begin_iff, sessionForbids_encode_iff]
  simp [ho, hwf]

/-- On a command's word the first cause is the code of its acceptance check. -/
theorem head?_rejectionCauses_of_ok {w : CmdWord} {i : Instr} (h : decode w = .ok i) (s : State) :
    (rejectionCauses w s).head? = rejection i s := by
  rw [rejectionCauses_of_ok h, rejection]
  split
  · rfl
  · cases sessionAllows s.session i <;> rfl

/-- Settles O29: the first cause is the code that the decoder or the acceptance check answers, so the rejection is that
of `RejectionIsPrecise`, carried to the machine's own steps. -/
theorem firstCauseIsReported : Obligations.FirstCauseIsReported := by
  obtain ⟨precise, preciseWord⟩ := rejectionIsPrecise
  refine ⟨fun s w c more payload rest hs hp hcauses hdin hlen => ?_, fun s w hcauses => ?_⟩
  · have hfirst : (rejectionCauses w s).head? = some c := by rw [hcauses]; rfl
    rcases hd : decode w with c' | i
    · cases (head?_rejectionCauses_of_error hd s).symm.trans hfirst
      rw [discardOf_of_decode_error hd, List.length_eq_zero_iff] at hlen
      subst hlen
      refine ⟨1, ?_⟩
      rw [stepN, step_alone hs, preciseWord s w c hp hd, hdin]
      rfl
    · have hc : rejection i s = some c := (head?_rejectionCauses_of_ok hd s).symm.trans hfirst
      obtain ⟨henc, -⟩ := spelled_of_decode hd
      rw [← henc, discardOf_encode (rejection_codes hc)] at hlen
      obtain ⟨u, hu, n, hn⟩ := precise i s w c payload rest hp hc hdin hlen
      exact stepN_of_execN (ws := []) hd (.inl ⟨.start, hp⟩) hs ((execN_succ hu n).trans hn)
  · have hnone : (rejectionCauses w s).head? = none := by rw [hcauses]; rfl
    rcases hd : decode w with c | i
    · cases (head?_rejectionCauses_of_error hd s).symm.trans hnone
    · exact ⟨i, rfl, (head?_rejectionCauses_of_ok hd s).symm.trans hnone⟩

end Sys2Proof.Machine
end

section
/-!
The platform's reset (70_reset_and_hazards.md R340).
-/

namespace Sys2Proof.Machine

open Sys2Proof

/-- Settles O11: the reset move is R58's table, with the events of R340. -/
theorem resetMove : Obligations.ResetMove := fun _ _ h => step_reset h

end Sys2Proof.Machine
end

section
/-!
Co-users that move during a command (70_reset_and_hazards.md R350, 20_memory.md R88). A primitive reads of the two
profiles that a co-user can make different only whether one is held, and what it then does differs in nothing but the
profile it finds or puts back. That a `TPSet` right after a `TPGet` is no put-back comes from the micro-programs: each
of their `TPRead`s is followed at once by the write of `DRV_TP` (40_line_control.md R152).
-/

namespace Sys2Proof.Machine

open Sys2Proof

/-! ## Events with the profiles found written over -/

/-- The event of a `TPRead`. -/
def Event.isGet : Event → Bool
  | .tpGet _ => true
  | _ => false

/-- The last of the events is that of a `TPRead`; `b` says it of the one before them. -/
def endsInGet (b : Bool) (evs : List Event) : Bool := evs.foldl (fun _ e => e.isGet) b

@[simp] theorem endsInGet_append_singleton (b : Bool) (evs : List Event) (e : Event) :
    endsInGet b (evs ++ [e]) = e.isGet := by simp [endsInGet]

theorem hideFound_append (b : Bool) (evs evs' : List Event) :
    hideFound b (evs ++ evs') = hideFound b evs ++ hideFound (endsInGet b evs) evs' := by
  induction evs generalizing b with
  | nil => rfl
  | cons e evs ih => cases e <;> exact congrArg (List.cons _) (ih _)

/-- Writing profiles over leaves every event of its kind. -/
theorem endsInGet_hideFound (b b' : Bool) (evs : List Event) :
    endsInGet b (hideFound b' evs) = endsInGet b evs := by
  induction evs generalizing b b' with
  | nil => rfl
  | cons e evs ih => cases e <;> exact ih _ _

/-! ## Every profile found is followed by the profile applied -/

/-- Every `TPRead` among the items is followed at once by the write of `DRV_TP`, and so is the last event before them
where `afterGet` says that it is a `TPGet` (R152). -/
def appliesFound : Bool → List Op → Bool
  | afterGet, [] => !afterGet
  | _, .tpApply :: rest => appliesFound false rest
  | afterGet, .tpCapture :: rest => !afterGet && appliesFound true rest
  | afterGet, _ :: rest => !afterGet && appliesFound false rest

theorem appliesFound_append {b : Bool} {ops rest : List Op} (h : appliesFound b ops = true)
    (hrest : appliesFound false rest = true) : appliesFound b (ops ++ rest) = true := by
  induction ops generalizing b with
  | nil => cases b <;> simp_all [appliesFound]
  | cons op ops ih => cases op <;> simp_all [appliesFound]

/-- Past a `TPGet` the next item is the write of `DRV_TP`. -/
theorem not_afterGet_of_appliesFound {b : Bool} {op : Op} {rest : List Op} (hop : op ≠ .tpApply)
    (h : appliesFound b (op :: rest) = true) : b = false := by
  cases op <;> simp_all [appliesFound]

theorem appliesFound_tail {op : Op} {rest : List Op} (hop : op ≠ .tpCapture)
    (h : appliesFound false (op :: rest) = true) : appliesFound false rest = true := by
  cases op <;> simp_all [appliesFound]

/-- What a silent item turns into applies every profile it finds. -/
theorem appliesFound_expand {op : Op} (h : op.isExpanded = true) {c : Config} {loc loc' : Locals} {ops : List Op}
    (he : op.expand c loc = some (loc', ops)) : appliesFound false ops = true := by
  cases op
  case regWrites l => rcases l with _ | ⟨⟨a, v⟩, l⟩ <;> (cases he; rfl)
  case sendBytes src g =>
    simp only [Op.expand] at he
    split at he <;> cases he
    · rfl
    · cases src <;> rfl
  case sendGroups | readRegs | imageHeader | imageSelect | imageCopy | imageRepeat | discard =>
    simp only [Op.expand] at he
    split at he <;> cases he <;> rfl
  case imageLoop | imagePayload =>
    simp only [Op.expand] at he
    split at he
    · cases he; rfl
    · split at he <;> cases he <;> rfl
  case raiseImage => cases he
  case imageAddr | imageStore => cases he; rfl
  all_goals cases h

theorem appliesFound_programOf (c : Config) (i : Instr) : appliesFound false (programOf c i) = true := by
  cases i
  case beginMidi =>
    refine appliesFound_append ?_ rfl
    unfold imageLoadRom
    split <;> rfl
  all_goals rfl

/-- Where a command stands, it applies every profile that it finds; `afterGet` says that the last event is a `TPGet`. -/
def State.willApply (afterGet : Bool) (s : State) : Prop :=
  match s.phase with
  | .exec _ (.run _ ops) => appliesFound afterGet ops = true
  | _ => afterGet = false

theorem State.willApply_run_iff {b : Bool} {s : State} {w : CmdWord} {loc : Locals} {ops : List Op}
    (h : s.phase = .exec w (.run loc ops)) : s.willApply b ↔ appliesFound b ops = true := by
  simp [State.willApply, h]

theorem State.willApply_start_iff {b : Bool} {s : State} {w : CmdWord} (h : s.phase = .exec w .start) :
    s.willApply b ↔ b = false := by simp [State.willApply, h]

theorem State.not_afterGet_of_ended {b : Bool} {s : State} (hs : s.willApply b)
    (h : s.phase = .ready ∨ s.phase = .halted) : b = false := by
  rcases h with h | h <;> simpa [State.willApply, h] using hs

theorem willApply_settle (w : CmdWord) {ops : List Op} (loc : Locals) (s : State) {b : Bool}
    (hops : appliesFound b ops = true) : (settle w ops loc s).willApply b := by
  induction ops generalizing loc s with
  | nil => exact Bool.not_inj hops
  | cons op rest ih =>
    by_cases hp : op.isPrimitive = true
    · rw [settle_primitive hp]
      exact hops
    · obtain rfl : b = false := not_afterGet_of_appliesFound (by rintro rfl; exact hp rfl) hops
      have hrest : appliesFound false rest = true := appliesFound_tail (by rintro rfl; exact hp rfl) hops
      rcases Op.silent_cases op (by simpa using hp) with ⟨c, rfl⟩ | ⟨a, rfl⟩ | he
      · rfl
      · exact ih loc (s.assign a) hrest
      · rcases hx : op.expand s.cfg loc with _ | ⟨loc', _ | ⟨op', ops'⟩⟩
        · rw [settle_faults he hx]
          rfl
        · rw [settle_gone he hx]
          exact ih loc' s hrest
        · rw [settle_opens he hx]
          exact appliesFound_append (appliesFound_expand he hx) hrest

/-! ## Two states that differ in the profiles found -/

/-- `a` is `u` with nothing scheduled but for the shared profile, the profile held, which is held in both or in neither,
and the profiles that the events since `tr₀` found and put back; `afterGet` says that the last of them is a `TPGet`. -/
structure AlikeSince (tr₀ : List Event) (afterGet : Bool) (a u : State) : Prop where
  fields : { u with tp := a.tp, tpSave := a.tpSave, trace := a.trace, sched := [] } = a
  held : u.tpHeld = a.tpHeld
  events : ∃ evs evs', a.trace = tr₀ ++ evs ∧ u.trace = tr₀ ++ evs' ∧ hideFound false evs' = hideFound false evs
    ∧ endsInGet false evs = afterGet

namespace AlikeSince

variable {tr₀ : List Event} {b : Bool} {a u a' u' : State}

/-- `a` is `u` with its own profiles and its own trace. -/
theorem exists_fields (h : AlikeSince tr₀ b a u) :
    ∃ p q tr, a = { u with tp := p, tpSave := q, trace := tr, sched := [] } := ⟨_, _, _, h.fields.symm⟩

theorem reads {α : Type} (h : AlikeSince tr₀ b a u) (f : State → α)
    (hf : ∀ p q tr, f { u with tp := p, tpSave := q, trace := tr, sched := [] } = f u) : f u = f a :=
  (hf ..).symm.trans (congrArg f h.fields)

/-- One event more in each trace, the two the same but for a profile found or put back. -/
theorem events_record (h : AlikeSince tr₀ b a u) {e e' : Event} (he : hideFound b [e'] = hideFound b [e]) :
    ∃ evs evs', a.trace ++ [e] = tr₀ ++ evs ∧ u.trace ++ [e'] = tr₀ ++ evs'
      ∧ hideFound false evs' = hideFound false evs ∧ endsInGet false evs = e.isGet := by
  obtain ⟨-, -, evs, evs', ha, hu, hhide, rfl⟩ := h
  have hlast : endsInGet false evs' = endsInGet false evs := by
    rw [← endsInGet_hideFound false false evs', hhide, endsInGet_hideFound]
  refine ⟨evs ++ [e], evs' ++ [e'], by rw [ha, List.append_assoc], by rw [hu, List.append_assoc], ?_, by simp⟩
  rw [hideFound_append, hideFound_append, hlast, he, hhide]

/-- A primitive that records the same event in both and touches no profile. -/
theorem same (h : AlikeSince tr₀ b a u) (e : Event) (f : State → State)
    (hf : ∀ p q tr, f { u with tp := p, tpSave := q, trace := tr, sched := [] }
      = { f u with tp := p, tpSave := q, trace := tr ++ [e], sched := [] })
    (hheld : (f u).tpHeld = u.tpHeld) (htr : (f u).trace = u.trace ++ [e]) (he : e.isGet = false) :
    AlikeSince tr₀ false (f a) (f u) := by
  have hev := h.events_record (e := e) (e' := e) rfl
  have hboth := h.held
  obtain ⟨p, q, tr, rfl⟩ := h.exists_fields
  rw [← htr, he] at hev
  rw [hf]
  exact ⟨rfl, hheld.trans hboth, hev⟩

theorem setLine (h : AlikeSince tr₀ b a u) (l : Line) (v : Level) :
    AlikeSince tr₀ false (a.setLine l v) (u.setLine l v) :=
  h.same (.line l v) (State.setLine l v) (by intros; cases l <;> rfl) (by cases l <;> rfl) (by simp) rfl

theorem afterSample (h : AlikeSince tr₀ b a u) : AlikeSince tr₀ false a.afterSample u.afterSample :=
  h.same (.ready u.sampleReady) State.afterSample
    (by intros; simp only [State.afterSample, State.dreqTaken]; split <;> rfl) (by simp [State.tpHeld]) (by simp) rfl

theorem afterXfer (h : AlikeSince tr₀ b a u) (o : Byte) : AlikeSince tr₀ false (a.afterXfer o) (u.afterXfer o) :=
  h.same (.xfer o u.misoByte) (State.afterXfer o)
    (by intros; simp only [State.afterXfer, State.misoTaken]; split <;> rfl) (by simp [State.tpHeld]) (by simp) rfl

theorem dinPop (h : AlikeSince tr₀ b a u) (x : Byte) (bs : List Byte) :
    AlikeSince tr₀ false (a.dinPop x bs) (u.dinPop x bs) :=
  h.same (.din x) (State.dinPop x bs) (fun _ _ _ => rfl) rfl rfl rfl

theorem doutPush (h : AlikeSince tr₀ b a u) (v : Word) : AlikeSince tr₀ false (a.doutPush v) (u.doutPush v) :=
  h.same (.dout v) (State.doutPush v) (fun _ _ _ => rfl) rfl rfl rfl

/-- The profile found may be another one. -/
theorem tpCapture (h : AlikeSince tr₀ b a u) : AlikeSince tr₀ true a.tpCapture u.tpCapture := by
  have hev := h.events_record (e := .tpGet a.tp) (e' := .tpGet u.tp) rfl
  obtain ⟨p, q, tr, rfl⟩ := h.exists_fields
  exact ⟨rfl, rfl, hev⟩

/-- The profile applied is the same one. -/
theorem tpApply (h : AlikeSince tr₀ b a u) : AlikeSince tr₀ false (a.tpWrite a.drvTp) (u.tpWrite u.drvTp) := by
  have hheld := h.held
  have hev := h.events_record (e := .tpSet u.drvTp) (e' := .tpSet u.drvTp) rfl
  obtain ⟨p, q, tr, rfl⟩ := h.exists_fields
  exact ⟨rfl, hheld, hev⟩

/-- The profile put back may be another one. -/
theorem tpRestore (h : AlikeSince tr₀ false a u) (p p' : Profile) :
    AlikeSince tr₀ false (a.tpRestore p) (u.tpRestore p') := by
  have hev := h.events_record (e := .tpSet p) (e' := .tpSet p') rfl
  obtain ⟨_, _, _, rfl⟩ := h.exists_fields
  exact ⟨rfl, rfl, hev⟩

theorem settle (h : AlikeSince tr₀ b a u) (w : CmdWord) {ops : List Op} (loc : Locals)
    (hops : appliesFound b ops = true) : AlikeSince tr₀ b (settle w ops loc a) (settle w ops loc u) := by
  have hheld := h.held
  have hev := h.events
  have hdone (c : ResultCode) := h.events_record (e := .done c) (e' := .done c) rfl
  obtain ⟨p, q, tr, rfl⟩ := h.exists_fields
  obtain ⟨evs, htr, hset⟩ := settle_profiles w ops loc u p q tr []
  rw [hset]
  refine ⟨rfl, by simpa [State.tpHeld] using hheld, ?_⟩
  rcases settle_records w ops loc u with hnone | ⟨hend, hphase⟩
  · obtain rfl : evs = [] := by simpa [hnone] using htr
    simpa [hnone] using hev
  · obtain rfl : evs = [.done _] := List.append_cancel_left (htr.symm.trans hend)
    obtain rfl := State.not_afterGet_of_ended (willApply_settle w loc u hops) hphase
    rw [hend]
    exact hdone _

end AlikeSince

/-! ## The command alone and the machine with co-users -/

/-- Where the one step answers a next state, the other answers one that is alike. -/
def StepsAlike (tr₀ : List Event) (r r' : Result) : Prop :=
  ∀ a, r = .next a → ∃ b u, r' = .next u ∧ AlikeSince tr₀ b a u ∧ a.willApply b

section
variable {tr₀ : List Event} {b : Bool} {a u : State}

theorem stepsAlike_next (h : AlikeSince tr₀ b a u) (hw : a.willApply b) :
    StepsAlike tr₀ (.next a) (.next u) := by
  rintro _ ⟨⟩
  exact ⟨b, u, rfl, h, hw⟩

/-- Of a fault of the command alone nothing is asked. -/
theorem stepsAlike_fault (f : Fault) (r : Result) : StepsAlike tr₀ (.fault f) r := by
  rintro _ ⟨⟩

theorem stepsAlike_settle (h : AlikeSince tr₀ b a u) (w : CmdWord) {ops : List Op} (loc : Locals)
    (hops : appliesFound b ops = true) :
    StepsAlike tr₀ (.next (settle w ops loc a)) (.next (settle w ops loc u)) :=
  stepsAlike_next (h.settle w loc hops) (willApply_settle w loc a hops)

/-- One primitive: it reads no profile but to find it, to apply `DRV_TP` and to put back the one held. -/
theorem microStep_alike (h : AlikeSince tr₀ b a u) {w : CmdWord} {loc : Locals} {ops : List Op}
    (hp : a.phase = .exec w (.run loc ops)) (hops : appliesFound b ops = true) :
    StepsAlike tr₀ (microStep w loc ops a) (microStep w loc ops u) := by
  have hold : StepsAlike tr₀ (.next a) (.next u) := stepsAlike_next h ((State.willApply_run_iff hp).mpr hops)
  have hdin : u.din = a.din := h.reads State.din fun _ _ _ => rfl
  rcases ops with _ | ⟨op, rest⟩
  · exact stepsAlike_settle h w loc hops
  by_cases hop : op = .tpApply
  · subst hop
    rw [microStep_tpApply, microStep_tpApply]
    exact stepsAlike_settle h.tpApply w loc (by simpa [appliesFound] using hops)
  obtain rfl : b = false := not_afterGet_of_appliesFound hop hops
  by_cases hget : op = .tpCapture
  · subst hget
    simp only [microStep, h.held]
    split
    · exact stepsAlike_fault _ _
    · exact stepsAlike_settle h.tpCapture w loc (by simpa [appliesFound] using hops)
  have hrest : appliesFound false rest = true := appliesFound_tail hget hops
  cases op
  case setLine l v => exact stepsAlike_settle (h.setLine l v) w loc hrest
  case enter l =>
    have hbus : u.busMode = a.busMode := h.reads State.busMode fun _ _ _ => rfl
    simp only [microStep, hbus]
    split
    · exact stepsAlike_settle (h.setLine l true) w loc hrest
    · exact stepsAlike_fault _ _
  case awaitReady =>
    have hsample : u.sampleReady = a.sampleReady := h.reads State.sampleReady fun _ _ _ => rfl
    simp only [microStep, hsample]
    split
    · exact stepsAlike_settle h.afterSample w loc hrest
    · exact stepsAlike_next h.afterSample ((State.willApply_run_iff (a.afterSample_phase.trans hp)).mpr hops)
  case xfer o d =>
    have hbyte : u.misoByte = a.misoByte := h.reads State.misoByte fun _ _ _ => rfl
    rw [microStep_xfer, microStep_xfer, hbyte]
    exact stepsAlike_settle (h.afterXfer o) w _ hrest
  case tpCapture => exact absurd rfl hget
  case tpApply => exact absurd rfl hop
  case tpRestore =>
    have hheld := h.held
    simp only [microStep]
    rcases ha : a.tpSave with _ | p
    · exact stepsAlike_fault _ _
    · obtain ⟨p', hu⟩ : ∃ p', u.tpSave = some p' :=
        Option.isSome_iff_exists.mp (hheld.trans (by simp [State.tpHeld, ha]))
      rw [hu]
      exact stepsAlike_settle (h.tpRestore p p') w loc hrest
  case dinPop d =>
    simp only [microStep, hdin]
    split
    · exact hold
    · exact stepsAlike_settle (h.dinPop ..) w _ hrest
  case dinSend =>
    simp only [microStep, hdin]
    split
    · exact hold
    · exact stepsAlike_settle (h.dinPop ..) w loc hrest
  case doutPush =>
    have hdout : u.dout = a.dout := h.reads State.dout fun _ _ _ => rfl
    have hcfg : u.cfg = a.cfg := h.reads State.cfg fun _ _ _ => rfl
    simp only [microStep, hdout, hcfg]
    split
    · exact hold
    · exact stepsAlike_settle (h.doutPush _) w loc hrest
  all_goals exact stepsAlike_settle h w loc hops

theorem exec_alike (i : Instr) (h : AlikeSince tr₀ b a u) (hw : a.willApply b) :
    StepsAlike tr₀ (exec i a) (exec i u) := by
  have hphase : u.phase = a.phase := h.reads State.phase fun _ _ _ => rfl
  have hguard : guardOf i u = guardOf i a := h.reads (guardOf i) (by intros; cases i <;> rfl)
  rcases hp : a.phase with _ | ⟨w, _ | ⟨loc, ops⟩⟩ | _
  · rw [exec_ready i hp, exec_ready i (hphase.trans hp)]
    exact stepsAlike_next h hw
  · obtain rfl := (State.willApply_start_iff hp).mp hw
    rcases hg : guardOf i a with _ | c
    · have hcfg : u.cfg = a.cfg := h.reads State.cfg fun _ _ _ => rfl
      rw [exec_accepts hp hg, exec_accepts (hphase.trans hp) (hguard.trans hg), hcfg]
      exact stepsAlike_settle h w .blank (appliesFound_programOf a.cfg i)
    · rw [exec_rejects hp hg, exec_rejects (hphase.trans hp) (hguard.trans hg)]
      exact stepsAlike_settle h w .blank rfl
  · rw [exec_run i hp, exec_run i (hphase.trans hp)]
    exact microStep_alike h hp ((State.willApply_run_iff hp).mp hw)
  · rw [exec_halted i hp, exec_halted i (hphase.trans hp)]
    exact stepsAlike_next h hw

end

/-- Only turns of the controller and co-users' moves are to come. -/
def CoUsersOnly (ms : List Move) : Prop := ∀ m ∈ ms, m = .controller ∨ ∃ p, m = .coUser p

/-- `u` is at the word `w` with only turns and co-users' moves to come, and the command alone stands at `a`. -/
def CoUsed (w : CmdWord) (tr₀ : List Event) (u a : State) : Prop :=
  u.within w ∧ CoUsersOnly u.sched ∧ ∃ b, AlikeSince tr₀ b a u ∧ a.willApply b

/-- The co-users move until it is the controller's turn. -/
theorem stepN_coUsers {tr₀ : List Event} {b : Bool} {a : State} {ms : List Move} {s : State} (hs : s.sched = ms)
    (hms : CoUsersOnly ms) (h : AlikeSince tr₀ b a s) :
    ∃ j u ms', stepN j s = .next u ∧ u.phase = s.phase ∧ AlikeSince tr₀ b a u ∧ CoUsersOnly ms'
      ∧ step u = controllerStep (u.withSched ms') := by
  induction ms generalizing s with
  | nil => exact ⟨0, s, [], rfl, rfl, h, hms, by rw [step_alone hs, ← hs]; rfl⟩
  | cons m ms ih =>
    have hms' : CoUsersOnly ms := fun m' hm' => hms m' (List.mem_cons_of_mem _ hm')
    rcases hms m List.mem_cons_self with rfl | ⟨p, rfl⟩
    · exact ⟨0, s, ms, rfl, rfl, h, hms', step_turn hs⟩
    · cases hm : (Move.coUser p).enabled s with
      | false => exact ⟨0, s, _, rfl, rfl, h, hms, by rw [step_waits hs hm, ← hs]; rfl⟩
      | true =>
        have hmoved : AlikeSince tr₀ b a { s with tp := p, sched := ms } := ⟨h.fields, h.held, h.events⟩
        obtain ⟨j, u, ms', hu, hphase, halike, hms'', hturn⟩ := ih rfl hms' hmoved
        refine ⟨j + 1, u, ms', ?_, hphase, halike, hms'', hturn⟩
        rw [stepN, step_moves hs nofun hm]
        exact hu

theorem matches_of_coUsed {i : Instr} {w : CmdWord} (hd : decode w = .ok i) {tr₀ : List Event} {s a : State}
    (h : CoUsed w tr₀ s a) : Matches i (CoUsed w tr₀) s a := by
  obtain ⟨hw, hms, b, halike, happly⟩ := h
  obtain ⟨j, u, ms, hu, hphase, halike', hms', hturn⟩ := stepN_coUsers rfl hms halike
  have huw : (u.withSched ms).within w := by rwa [State.within, State.withSched_phase, hphase]
  have hturned : AlikeSince tr₀ b a (u.withSched ms) := ⟨halike'.fields, halike'.held, halike'.events⟩
  refine ⟨j, u, hu, fun a' ha => ?_⟩
  obtain ⟨b', u', hu', hnext, hnext'⟩ := exec_alike i hturned happly a' ha
  refine ⟨u', by rw [hturn, controllerStep_within hd huw, hu'], exec_within huw hu', ?_, b', hnext, hnext'⟩
  rw [(exec_sched_cfg hu').1]
  exact hms'

/-- Settles O56: with co-users' moves and turns to come, the machine simulates the command without them. -/
theorem coUsersChangeOnlyProfilesFound : Obligations.CoUsersChangeOnlyProfilesFound := by
  intro s t w i n hp _ hd hms h
  have hstart : CoUsed w s.trace s (s.withSched []) :=
    ⟨.inl ⟨.start, hp⟩, hms, false, ⟨rfl, rfl, [], [], s.trace.append_nil.symm, s.trace.append_nil.symm, rfl, rfl⟩,
      (State.willApply_start_iff (s := s.withSched []) hp).mpr rfl⟩
  obtain ⟨j, u, hu, -, -, b, ⟨hfields, hheld, evs, evs', ht, hu', hhide, -⟩, -⟩ :=
    stepN_simulates_execN (fun _ _ => matches_of_coUsed hd) hstart h
  exact ⟨j, u, evs, evs', hu, ht, hu', hhide, hheld, hfields⟩

end Sys2Proof.Machine
end

section
/-!
Co-users that move between two register transactions (70_reset_and_hazards.md R350, 20_memory.md R88). From the step
that captures a profile to the one that puts it back the profile is held, so a co-user's move waits, and the machine
runs the transaction as the command does.
-/

namespace Sys2Proof.Machine

open Sys2Proof

/-! ## Steps with a profile held -/

/-- Steps of the command `i`, each of them from a state that holds a profile. -/
def HeldRun (i : Instr) : State → State → Prop :=
  Relation.ReflTransGen fun s t => s.tpHeld = true ∧ exec i s = .next t

theorem HeldRun.refl {i : Instr} {s : State} : HeldRun i s s := Relation.ReflTransGen.refl

theorem HeldRun.trans {i : Instr} {s t u : State} (h : HeldRun i s t) (r : HeldRun i t u) : HeldRun i s u :=
  Relation.ReflTransGen.trans h r

theorem HeldRun.step {i : Instr} {s t u : State} (hheld : s.tpHeld = true) (h : exec i s = .next t)
    (r : HeldRun i t u) : HeldRun i s u := Relation.ReflTransGen.head ⟨hheld, h⟩ r

/-- One primitive of a run. -/
theorem HeldRun.micro {i : Instr} {s t u : State} {w : CmdWord} {loc : Locals} {ops : List Op}
    (hheld : s.tpHeld = true) (h : microStep w loc ops (s.at w loc ops) = .next t) (r : HeldRun i t u) :
    HeldRun i (s.at w loc ops) u := .step hheld ((exec_at ..).trans h) r

/-- While a profile is held, a co-user's move waits, and the steps of the command are the machine's. -/
theorem stepN_of_heldRun {i : Instr} {w : CmdWord} (hd : decode w = .ok i) {q : Profile} {more : List Move}
    {s t : State} (h : HeldRun i s t) (hw : s.within w) (hs : s.sched = .coUser q :: more) :
    ∃ n, stepN n s = .next t := by
  induction h using Relation.ReflTransGen.head_induction_on with
  | refl => exact ⟨0, rfl⟩
  | @head s u hstep _ ih =>
    obtain ⟨hheld, hu⟩ := hstep
    obtain ⟨-, hwaits, -⟩ := coUserMove s q more hs
    obtain ⟨n, hn⟩ := ih (exec_within hw hu) ((exec_sched_cfg hu).1.trans hs)
    have hmachine : step s = .next u := by rw [hwaits hheld, controllerStep_within hd hw, hu]
    exact ⟨n + 1, by rw [stepN, hmachine]; exact hn⟩

theorem await_heldRun (i : Instr) (w : CmdWord) (loc : Locals) (rest : List Op) (k : Nat) (d : List Level)
    (s : State) (hheld : s.tpHeld = true) (h : s.dreqIn = samples s.cfg.readyLevel k ++ d) :
    HeldRun i (s.at w loc (.awaitReady :: rest)) (settle w rest loc (s.adv d s.misoIn (pollEvents k))) := by
  induction k generalizing s with
  | zero =>
    refine .step hheld (exec_await_ready i rfl h) ?_
    rw [settle_congr]
    · exact .refl
    · rfl
  | succ k ih =>
    have hbusy : (s.at w loc (.awaitReady :: rest)).dreqIn
        = (!s.cfg.readyLevel) :: (samples s.cfg.readyLevel k ++ d) := h
    have r := ih (s.adv (samples s.cfg.readyLevel k ++ d) s.misoIn [.ready false]) hheld rfl
    rw [State.adv_adv] at r
    exact .step hheld (exec_await_busy i rfl hbusy) r

theorem xfer_heldRun (i : Instr) (w : CmdWord) (loc : Locals) (rest : List Op) (o : Byte) (dst : ByteDst)
    (s : State) {b : Byte} {m : List Byte} (hheld : s.tpHeld = true) (h : s.misoIn = b :: m) :
    HeldRun i (s.at w loc (.xfer o dst :: rest))
      (settle w rest (loc.keep dst b) (s.adv s.dreqIn m [.xfer o b])) := by
  have h' : (s.at w loc (.xfer o dst :: rest)).misoIn = b :: m := h
  refine .micro hheld (microStep_xfer w loc rest _ o dst) ?_
  rw [misoByte_of h', afterXfer_of o h', settle_congr]
  · exact .refl
  · rfl

/-! ## A register transaction with a co-user waiting -/

/-- The items of a register transaction after the capture of the profile found. -/
def regTxnHeld (o0 o1 o2 o3 : Byte) (d2 d3 : ByteDst) (rest : List Op) : List Op :=
  .tpApply :: .awaitReady :: .enter .xdcs :: .setLine .xcs false :: .xfer o0 .drop :: .xfer o1 .drop :: .xfer o2 d2
    :: .xfer o3 d3 :: .setLine .xcs true :: .tpRestore :: rest

/-- The rest of a register transaction, up to the step that puts the profile back and the items after it. -/
theorem regTxn_heldRun (i : Instr) (w : CmdWord) (loc : Locals) (rest : List Op) (o0 o1 o2 o3 : Byte)
    (d2 d3 : ByteDst) (s : State) (r : Reply) (d : List Level) (m : List Byte) (hfree : s.outside)
    (hdreq : s.dreqIn = samples s.cfg.readyLevel r.busy ++ d) (hmiso : s.misoIn = [r.b0, r.b1, r.b2, r.b3] ++ m) :
    HeldRun i (s.tpCapture.at w loc (regTxnHeld o0 o1 o2 o3 d2 d3 rest))
      (settle w rest ((loc.keep d2 r.b2).keep d3 r.b3) (s.adv d m (regTxnEvents s.tp s.drvTp o0 o1 o2 o3 r))) := by
  obtain ⟨cfg, phase, init, session, midi, err, fault, drvTp, tpSave, xcs, xdcs, xreset, din, dout, tp,
    trace, sched, dreqIn, misoIn, draws⟩ := s
  obtain ⟨rfl, rfl, rfl⟩ := hfree
  simp only at hdreq hmiso
  subst hdreq hmiso
  refine .micro rfl (microStep_tpApply ..) ?_
  rw [settle_primitive rfl]
  refine (await_heldRun i w loc _ r.busy d _ rfl rfl).trans ?_
  rw [settle_primitive rfl]
  refine .micro rfl (microStep_enter _ _ _ _ _ rfl) ?_
  rw [settle_primitive rfl]
  refine .micro rfl (microStep_setLine ..) ?_
  rw [settle_primitive rfl]
  iterate 4
    refine (xfer_heldRun _ _ _ _ _ _ _ rfl rfl).trans ?_
    rw [settle_primitive rfl]
  refine .micro rfl (microStep_setLine ..) ?_
  rw [settle_primitive rfl]
  refine .micro rfl (microStep_tpRestore _ _ _ _ rfl) ?_
  rw [settle_congr]
  · exact .refl
  · simp [State.at, State.adv, State.record, State.setLine, State.tpCapture, State.tpWrite, State.tpRestore,
      regTxnEvents]

theorem step_coUser {s : State} {p : Profile} {rest : List Move} (hs : s.sched = .coUser p :: rest)
    (hfree : s.tpSave = none) (hp : s.cfg.profile.has p = true) :
    step s = .next { s with tp := p, sched := rest } :=
  (coUserMove s p rest hs).1 (s.tpHeld_eq_false_iff.mpr hfree) hp

theorem stepN_one {s t : State} (h : step s = .next t) : ∃ n, stepN n s = .next t :=
  ⟨1, by rw [stepN, h]; rfl⟩

/-- The first step of a register transaction captures the profile. -/
theorem exec_captures (i : Instr) {s : State} {w : CmdWord} {loc : Locals} {rest : List Op} {o0 o1 o2 o3 : Byte}
    {d2 d3 : ByteDst} (hnone : s.tpSave = none)
    (hp : s.phase = .exec w (.run loc (regTxn o0 o1 o2 o3 d2 d3 ++ rest))) :
    exec i s = .next (s.tpCapture.at w loc (regTxnHeld o0 o1 o2 o3 d2 d3 rest)) := by
  rw [regTxn_cons] at hp
  rw [exec_run i hp, microStep_tpCapture w loc _ s hnone, settle_primitive rfl]
  rfl

/-- A co-user that waited moves once the transaction and the items after it are over. -/
theorem step_settle_coUser (w : CmdWord) (ops : List Op) (loc : Locals) {s : State} {q : Profile} (more : List Move)
    (hfree : s.tpSave = none) (hq : s.cfg.profile.has q = true) :
    step (settle w ops loc (s.withSched (.coUser q :: more)))
      = .next { settle w ops loc s with tp := q, sched := more } := by
  rw [settle_withSched]
  exact step_coUser rfl ((settle_tpSave ..).trans hfree) (by rwa [State.withSched_cfg, settle_cfg])

/-- The machine runs a register transaction in one turn and the steps at which a co-user waits; then the co-user
moves. -/
theorem regTxn_turn {s : State} {w : CmdWord} {i : Instr} {loc : Locals} {rest : List Op} {o0 o1 o2 o3 : Byte}
    {d2 d3 : ByteDst} {r : Reply} {d : List Level} {m : List Byte} {q : Profile} {more : List Move}
    (hd : decode w = .ok i) (hfree : s.outside) (hq : s.cfg.profile.has q = true)
    (hs : s.sched = .controller :: .coUser q :: more) (ha : s.answersRegs [r] d m)
    (hp : s.phase = .exec w (.run loc (regTxn o0 o1 o2 o3 d2 d3 ++ rest))) :
    ∃ n, stepN n s = .next
      { settle w rest ((loc.keep d2 r.b2).keep d3 r.b3) (s.adv d m (regTxnEvents s.tp s.drvTp o0 o1 o2 o3 r)) with
        tp := q, sched := more } := by
  have ⟨_, _, hnone⟩ := hfree
  obtain ⟨hdreq, hmiso⟩ := (answersRegs_cons_iff ..).mp ha
  obtain ⟨-, hturn, -⟩ := stepRunsDecodedInstruction s w _ i hp hd
  have hcaptures := (hturn _ hs).trans (exec_captures i (s := s.withSched (.coUser q :: more)) hnone hp)
  have htxn := regTxn_heldRun i w loc rest o0 o1 o2 o3 d2 d3 (s.withSched (.coUser q :: more)) r d m hfree hdreq hmiso
  exact stepN_trans (stepN_one hcaptures)
    (stepN_trans (stepN_of_heldRun hd htxn (.inl ⟨_, rfl⟩) rfl)
      (stepN_one (step_settle_coUser w rest _ more (s := s.adv d m _) hnone hq)))

/-- A co-user moves before a register transaction, and another one after it. -/
theorem regTxn_coUsers {s : State} {w : CmdWord} {i : Instr} {loc : Locals} {rest : List Op} {o0 o1 o2 o3 : Byte}
    {d2 d3 : ByteDst} {r : Reply} {d : List Level} {m : List Byte} {p q : Profile} {more : List Move}
    (hd : decode w = .ok i) (hfree : s.busFree) (hp : s.cfg.profile.has p = true) (hq : s.cfg.profile.has q = true)
    (hs : s.sched = .coUser p :: .controller :: .coUser q :: more) (ha : s.answersRegs [r] d m)
    (hphase : s.phase = .exec w (.run loc (regTxn o0 o1 o2 o3 d2 d3 ++ rest))) :
    ∃ n, stepN n s = .next
      { settle w rest ((loc.keep d2 r.b2).keep d3 r.b3) { s with
          tp := p, dreqIn := d, misoIn := m, trace := s.trace ++ regTxnEvents p s.drvTp o0 o1 o2 o3 r } with
        tp := q, sched := more } := by
  have ⟨hx, hd', hnone⟩ := s.busFree_iff.mp hfree
  have hrun := regTxn_turn (s := State.withSched (.controller :: .coUser q :: more) { s with tp := p })
    hd ⟨hx, hd', hnone⟩ hq rfl ha hphase
  have hsched (ms : List Move) (evs : List Event) :
    (State.withSched ms { s with tp := p }).adv d m evs = (State.adv { s with tp := p } d m evs).withSched ms := rfl
  rw [hsched, settle_withSched] at hrun
  exact stepN_trans (stepN_one (step_coUser hs hnone hp)) hrun

/-- Settles O55: a register write and a register read are each one register transaction. -/
theorem coUserMovesBetweenTransactions : Obligations.CoUserMovesBetweenTransactions := by
  intro s w i loc rest a r d m p q more hd hfree hp hq hs ha
  exact ⟨fun v hphase => regTxn_coUsers hd hfree hp hq hs ha hphase,
    fun hphase => regTxn_coUsers hd hfree hp hq hs ha hphase⟩

end Sys2Proof.Machine
end

section
/-!
The work of a command in primitive events (70_reset_and_hazards.md R359): how many of them a transaction records, and
from that how many a completed command does.
-/

namespace Sys2Proof.Machine

open Sys2Proof

/-! ## How many primitive events there are -/

/-- The number of primitive events, which R359 counts. -/
def primitiveCount (evs : List Event) : Nat := evs.countP Event.ofPrimitive

theorem primitiveCount_append (evs evs' : List Event) :
    primitiveCount (evs ++ evs') = primitiveCount evs + primitiveCount evs' := List.countP_append

theorem primitiveCount_of_all {evs : List Event} (h : ∀ e ∈ evs, e.ofPrimitive = true) :
    primitiveCount evs = evs.length := List.countP_eq_length.mpr h

/-- `rd`, the samples of an `AwaitReady` that finds the peripheral busy `k` times (40_line_control.md R147). -/
theorem primitiveCount_pollEvents (k : Nat) : primitiveCount (pollEvents k) = k + 1 := by
  rw [primitiveCount_of_all, pollEvents]
  · simp
  · intro e he
    obtain ⟨-, rfl⟩ | rfl : (k ≠ 0 ∧ e = .ready false) ∨ e = .ready true := by simpa [pollEvents] using he
    · rfl
    · rfl

/-- A register transaction records ten events besides its samples (41_register_access.md R170, R172). -/
theorem primitiveCount_regTxnEvents (tp drv : Profile) (o0 o1 o2 o3 : Byte) (r : Reply) :
    primitiveCount (regTxnEvents tp drv o0 o1 o2 o3 r) = 10 + (r.busy + 1) := by
  have hopen : primitiveCount [.tpGet tp, .tpSet drv] = 2 := rfl
  have hrest : primitiveCount [.line .xdcs true, .line .xcs false, .xfer o0 r.b0, .xfer o1 r.b1, .xfer o2 r.b2,
      .xfer o3 r.b3, .line .xcs true, .tpSet tp] = 8 := rfl
  rw [regTxnEvents, primitiveCount_append, primitiveCount_append, hopen, hrest, primitiveCount_pollEvents]
  omega

/-- The primitive events of a byte sent: it is popped where it comes from DIN, and it is exchanged (42_streaming.md
R190). -/
def eventsPerByte (fromDin : Bool) : Nat := if fromDin then 2 else 1

theorem primitiveCount_byteEvents (fromDin : Bool) (bs : List (Byte × Byte)) :
    primitiveCount (byteEvents fromDin bs) = eventsPerByte fromDin * bs.length := by
  have hbyte (b : Byte × Byte) :
      primitiveCount (if fromDin then [.din b.1, .xfer b.1 b.2] else [.xfer b.1 b.2]) = eventsPerByte fromDin := by
    cases fromDin <;> rfl
  induction bs with
  | nil => rfl
  | cons b bs ih =>
    rw [byteEvents, List.flatMap_cons, primitiveCount_append, hbyte, List.length_cons, mul_add, mul_one, add_comm]
    exact congrArg (· + _) ih

/-- Over its groups a data transaction records its bytes' events and each group's samples (R190). -/
theorem primitiveCount_groupEvents {fromDin : Bool} {grain : Nat} (hg : 1 ≤ grain) {ks : List Nat}
    {bs : List (Byte × Byte)} (hk : ks.length = groupCount grain bs.length) :
    primitiveCount (groupEvents fromDin grain ks bs)
      = eventsPerByte fromDin * bs.length + (ks.map fun k => k + 1).sum := by
  induction ks generalizing bs with
  | nil =>
    have hnone : bs.length = 0 := groupCount_zero hg hk.symm
    rw [hnone]
    rfl
  | cons k ks ih =>
    obtain ⟨-, hk'⟩ := groupCount_succ hg hk.symm
    have hdrop : ks.length = groupCount grain (bs.drop grain).length := by
      rw [← hk', List.length_drop]
      congr 1
      omega
    have hbytes : (bs.take grain).length + (bs.drop grain).length = bs.length := by
      rw [← List.length_append, List.take_append_drop]
    rw [groupEvents, primitiveCount_append, primitiveCount_append, primitiveCount_pollEvents,
      primitiveCount_byteEvents, ih hdrop, ← hbytes, mul_add, List.map_cons, List.sum_cons]
    omega

/-- A data transaction records six events besides those of its groups (R190). -/
theorem primitiveCount_dataEvents {s : State} {fromDin : Bool} {ks : List Nat} {bs : List (Byte × Byte)}
    {d : List Level} {m : List Byte} (ha : s.answersData ks bs d m) :
    primitiveCount (dataEvents fromDin s.cfg.readyGrain s.tp s.drvTp ks bs)
      = 6 + eventsPerByte fromDin * bs.length + (ks.map fun k => k + 1).sum := by
  obtain ⟨hg, hk, -, -⟩ := ha
  have hopen : primitiveCount [.tpGet s.tp, .tpSet s.drvTp, .line .xcs true, .line .xdcs false] = 4 := rfl
  have hclose : primitiveCount [.line .xdcs true, .tpSet s.tp] = 2 := rfl
  rw [dataEvents, primitiveCount_append, primitiveCount_append, hopen, hclose, primitiveCount_groupEvents hg hk]
  omega

/-! ## The commands -/

/-- A run that ends in READY with `ERR` at OK counts the primitive events it recorded before its `End`. -/
theorem completesWith_of_completes {i : Instr} {s t : State} {evs : List Event} {n : Nat}
    (h : ∃ u, exec i s = .next u ∧ ∃ k, execN i k u = .next t) (hphase : t.phase = .ready) (herr : t.err = .ok)
    (htr : t.trace = s.trace ++ evs ++ [.done .ok]) (hn : primitiveCount evs = n) : completesWith i s n := by
  obtain ⟨u, hu, k, hk⟩ := h
  refine ⟨u, t, k, evs ++ [.done .ok], hu, hk, hphase, herr, by rw [htr, List.append_assoc], ?_⟩
  rw [← List.countP_eq_length_filter, ← hn]
  exact primitiveCount_append evs [.done .ok]

/-- A command that is one register write (R359). -/
theorem completesWith_regWrite {i : Instr} {s : State} {a : Byte} {v : Word} {r : Reply} {d : List Level}
    {m : List Byte} (hprog : programOf s.cfg i = regWrite s.cfg a v ++ [.finish .ok]) (hg : guardOf i s = none)
    (hs : s.atStart) (ha : s.answersRegs [r] d m) : completesWith i s (10 + (r.busy + 1)) :=
  completesWith_of_completes (regWrite_completes hprog hg hs ha) rfl rfl rfl (primitiveCount_regTxnEvents ..)

/-- A command that is one data transaction (R359). -/
theorem completesWith_dataSend {i : Instr} {s : State} {src : DataSrc} {ks : List Nat} {bs : List (Byte × Byte)}
    {din' : List Byte} {d : List Level} {m : List Byte}
    (hprog : programOf s.cfg i = dataSend src bs.length ++ [.finish .ok]) (hg : guardOf i s = none) (hs : s.atStart)
    (ha : s.answersData ks bs d m) (hsrc : src.gives (bs.map Prod.fst) s.din din') :
    completesWith i s (6 + eventsPerByte src.isDin * bs.length + (ks.map fun k => k + 1).sum) :=
  completesWith_of_completes (dataSend_completes hprog hg hs ha hsrc) rfl rfl rfl (primitiveCount_dataEvents ha)

/-- Settles O36: each of the commands is one transaction, and READ_REG pushes its value after it. -/
theorem eventCounts : Obligations.EventCounts := by
  refine ⟨fun s addr r d m hs hi ha hroom => ?_, fun s addr value r d m hs hi ha => ?_,
    fun s level r d m hs hi ha => ?_, fun s len ks bs rest d m hs hi hlen hdin ha => ⟨?_, fun hstreaming => ?_⟩,
    fun s len ks is d m hs hi hlen ha => ?_, fun s mcmd d1 d2 ks bs d m hs hi hframe ha => ?_⟩
  · refine completesWith_of_completes (readReg_completes hs hi ha hroom) rfl rfl rfl ?_
    rw [primitiveCount_append, readEvents, primitiveCount_regTxnEvents]
    rfl
  · exact completesWith_regWrite rfl (acceptance_any hi) hs ha
  · exact completesWith_regWrite rfl (acceptance_any hi) hs ha
  · rw [← hlen]
    exact completesWith_dataSend (src := .din) (by rw [hlen]; rfl) (acceptance_any hi) hs ha hdin
  · rw [← hlen]
    exact completesWith_dataSend (src := .din) (by rw [hlen]; rfl) (acceptance_streaming hi hstreaming) hs ha hdin
  · have h := completesWith_dataSend (i := .sendZeroes len) (by rw [List.length_map, hlen]; rfl) (acceptance_any hi) hs
      ha (DataSrc.zero_gives is s.din)
    simpa [eventsPerByte, DataSrc.isDin, hlen] using h
  · have hlen : bs.length = 6 := by simpa using congrArg List.length hframe
    have h := completesWith_dataSend (i := .sendMidi mcmd d1 d2)
      (src := .frame (midiFrame s.cfg.midiPad mcmd d1 d2)) (by rw [hlen]; rfl) (acceptance_any hi) hs ha
      ⟨hframe ▸ List.prefix_rfl, rfl⟩
    simpa [eventsPerByte, DataSrc.isDin, hlen] using h

end Sys2Proof.Machine
end
